-- ==== Sys2Proof/Word.lean ====
section
/-!
DEFINITION. The machine word and the memory cell (00_scope R6, R7, R9; conflict C1, D1).
-/

namespace Sys2Proof

/-- A Word: a fixed-width unsigned integer of W = 32 bits (R6, R9). -/
abbrev Word := BitVec 32

/-- One memory cell that is listed: its address and the 32-bit word it holds (R7: "a memory cell holds one
32-bit Word"). The memory has no byte addressing (20_memory R54), so the smallest addressable unit is the
word. DESIGN CHOICE, safe: log 10. -/
abbrev Cell := Nat × Word

/-- Source text of the assembler, as characters (30_encoding R100). -/
abbrev Text := List Char

end Sys2Proof
end

