-- ==== Sys2Proof/Syntax.lean ====
section
/-!
DEFINITION. The instruction set as syntax: the 15 opcodes and the decoded instruction
(00_scope R2; 10_state R27; 30_encoding R95, R98).
-/

namespace Sys2Proof

/-- The closed opcode set: 11 basic and 4 extended opcodes (R2). -/
inductive Opcode
  | ldc | ldv | stv | add | and | or | xor | eql | jmp | jmn | ldiv
  | hlt | not | rar | rrn
deriving DecidableEq, Repr

/-- R98: the extended family is exactly HLT, NOT, RAR and RRN. -/
def Opcode.ext : Opcode → Bool
  | .hlt | .not | .rar | .rrn => true
  | .ldc | .ldv | .stv | .add | .and | .or | .xor | .eql | .jmp | .jmn | .ldiv => false

/-- A decoded instruction, one constructor per row of the opcode table. The argument is the record's
`operand : Word` (R95); the family bit `ext` is the constructor's own. -/
inductive Instr
  | ldc (c : Word)
  | ldv (a : Word)
  | stv (a : Word)
  | add (a : Word)
  | and (a : Word)
  | or (a : Word)
  | xor (a : Word)
  | eql (a : Word)
  | jmp (t : Word)
  | jmn (t : Word)
  | ldiv (p : Word)
  | hlt (n : Word)
  | not (n : Word)
  | rar (n : Word)
  | rrn (n : Word)
deriving DecidableEq, Repr

/-- `CI.op` (R27). -/
def Instr.op : Instr → Opcode
  | .ldc _ => .ldc
  | .ldv _ => .ldv
  | .stv _ => .stv
  | .add _ => .add
  | .and _ => .and
  | .or _ => .or
  | .xor _ => .xor
  | .eql _ => .eql
  | .jmp _ => .jmp
  | .jmn _ => .jmn
  | .ldiv _ => .ldiv
  | .hlt _ => .hlt
  | .not _ => .not
  | .rar _ => .rar
  | .rrn _ => .rrn

/-- `CI.operand` (R27, R85). -/
def Instr.operand : Instr → Word
  | .ldc w | .ldv w | .stv w | .add w | .and w | .or w | .xor w | .eql w | .jmp w | .jmn w | .ldiv w => w
  | .hlt w | .not w | .rar w | .rrn w => w

/-- `CI.ext` (R27). -/
def Instr.ext (i : Instr) : Bool := i.op.ext

/-- The instruction with a given opcode and operand. -/
def Opcode.instr : Opcode → Word → Instr
  | .ldc => .ldc
  | .ldv => .ldv
  | .stv => .stv
  | .add => .add
  | .and => .and
  | .or => .or
  | .xor => .xor
  | .eql => .eql
  | .jmp => .jmp
  | .jmn => .jmn
  | .ldiv => .ldiv
  | .hlt => .hlt
  | .not => .not
  | .rar => .rar
  | .rrn => .rrn

/-- The source's record `{ operation, operand, extended }`, which admits records no decode produces (C9). -/
structure InstrRecord where
  op : Opcode
  operand : Word
  ext : Bool
deriving DecidableEq, Repr

/-- The record of an instruction. -/
def Instr.toRecord (i : Instr) : InstrRecord := { op := i.op, operand := i.operand, ext := i.ext }

/-- R98: a record whose `ext` disagrees with its opcode's family is no instruction. -/
def InstrRecord.toInstr (r : InstrRecord) : Option Instr :=
  if r.ext = r.op.ext then some (r.op.instr r.operand) else none

end Sys2Proof
end

