-- ==== Sys2Proof/WellFormed.lean ====
section
/-!
DEFINITION. Which instructions are valid: those decode can produce (30_encoding R98, D33).
-/

namespace Sys2Proof

/-- Bits of the operand field of a family: 20 basic, 16 extended (R82, R83). -/
def operandBits (ext : Bool) : Nat := if ext then 16 else 20

/-- R98: the operand fits its family's field, `operand < 2^20` (basic) or `operand < 2^16` (extended). The
other two conditions of R98 (a known opcode, `ext` of its family) hold of every `Instr`. -/
def Instr.wf (i : Instr) : Bool := i.operand.toNat < 2 ^ operandBits i.ext

/-- R98 for the source's record: the family bit agrees with the opcode and the operand fits. -/
def InstrRecord.valid (r : InstrRecord) : Bool :=
  r.ext == r.op.ext && decide (r.operand.toNat < 2 ^ operandBits r.ext)

end Sys2Proof
end

