-- ==== Sys2Proof/Config.lean ====
section
/-!
DEFINITION. The parameters of 00_scope R6 as plain data, the default OPCODE_MAP of 30_encoding R91, and the free
words that devices supply (00_scope R13).
-/

namespace Sys2Proof

/-- OPCODE_MAP (R91, R92): the 4-bit basic opcode of each of the 11 basic instructions and the 4-bit extended
opcode of each of the 4 extended ones. -/
structure OpcodeMap where
  ldc : BitVec 4
  ldv : BitVec 4
  stv : BitVec 4
  add : BitVec 4
  and : BitVec 4
  or : BitVec 4
  xor : BitVec 4
  eql : BitVec 4
  jmp : BitVec 4
  jmn : BitVec 4
  ldiv : BitVec 4
  hlt : BitVec 4
  not : BitVec 4
  rar : BitVec 4
  rrn : BitVec 4
deriving DecidableEq, Repr

/-- The code the map gives an opcode: `basicCode` and `extCode` of R96. -/
def OpcodeMap.code (m : OpcodeMap) : Opcode → BitVec 4
  | .ldc => m.ldc
  | .ldv => m.ldv
  | .stv => m.stv
  | .add => m.add
  | .and => m.and
  | .or => m.or
  | .xor => m.xor
  | .eql => m.eql
  | .jmp => m.jmp
  | .jmn => m.jmn
  | .ldiv => m.ldiv
  | .hlt => m.hlt
  | .not => m.not
  | .rar => m.rar
  | .rrn => m.rrn

/-- The 11 basic opcodes (R2). -/
def basicOpcodes : List Opcode := [.ldc, .ldv, .stv, .add, .and, .or, .xor, .eql, .jmp, .jmn, .ldiv]

/-- The 4 extended opcodes (R2). -/
def extOpcodes : List Opcode := [.hlt, .not, .rar, .rrn]

/-- R92's conditions on a map: distinct basic codes other than 0xF, distinct extended codes. -/
def OpcodeMap.valid (m : OpcodeMap) : Bool :=
  decide ((basicOpcodes.map m.code).Nodup) && !((basicOpcodes.map m.code).contains 0xF)
    && decide ((extOpcodes.map m.code).Nodup)

/-- R91's default table. The basic values 0x0 to 0xA and the extended 0x0 to 0x2 are the classic MIMA's, RRN 0x3 is
the spec's own choice. PRESUMED by the spec, unsafe for claims about concrete words: log 4. -/
def OpcodeMap.default : OpcodeMap where
  ldc := 0x0
  ldv := 0x1
  stv := 0x2
  add := 0x3
  and := 0x4
  or := 0x5
  xor := 0x6
  eql := 0x7
  jmp := 0x8
  jmn := 0x9
  ldiv := 0xA
  hlt := 0x0
  not := 0x1
  rar := 0x2
  rrn := 0x3

/-- The host's configuration of a machine (R6; 10_state R36: the CORE only reads it). It stands in State, so a
statement about every state is a statement about every configuration. DESIGN CHOICE, safe: log 2. -/
structure Config where
  /-- MEM_SIZE: legal addresses are 0 .. memSize - 1 (R6, 20_memory R51). -/
  memSize : Nat
  /-- OPCODE_MAP (R6, 30_encoding R92). -/
  opcodeMap : OpcodeMap
  /-- MEM_INIT: the words that are not 0, by rising address (R6). -/
  memInit : List Cell
  /-- READ_DEV: addresses with a registered read callback (R6). -/
  readDev : List Word
  /-- WRITE_DEV: addresses with a registered write callback (R6). -/
  writeDev : List Word
  /-- IO_READ_ON_FETCH (R6, conflict C3). -/
  ioReadOnFetch : Bool
  /-- BP: the external table of breakpoint addresses (R6, 60_exceptions R245). -/
  breakpoints : List Word
deriving DecidableEq, Repr

/-- The configuration of `State.reset`: the spec's defaults for OPCODE_MAP, MEM_INIT and IO_READ_ON_FETCH, empty
device tables (70_reset R260), no breakpoint, and MEM_SIZE = 2^32. DESIGN CHOICE, unsafe: the spec leaves MEM_SIZE and
BP open, log 2 and log 3. -/
def Config.default : Config where
  memSize := 2 ^ 32
  opcodeMap := OpcodeMap.default
  memInit := []
  readDev := []
  writeDev := []
  ioReadOnFetch := true
  breakpoints := []

/-- `any` (R13): the word the n-th device callback leaves in SIR. A free value: it has no body, and no proof can see
it. DESIGN CHOICE, safe for claims about one run: log 7. -/
opaque Config.freeWord : Nat → Word

end Sys2Proof
end

