-- ==== Sys2Proof/Decode.lean ====
section
/-!
DEFINITION. The instruction codec: decode, total on every word and rejecting by name, and encode
(30_encoding R80 to R99).
-/

namespace Sys2Proof

/-- R93, R95: decode fails with the whole offending word. -/
inductive DecodeError
  /-- `InvalidOpcode(w)`: an unassigned opcode or a set reserved bit. -/
  | invalidOpcode (w : Word)
deriving DecidableEq, Repr

/-- Why encode refuses (R96, R98). -/
inductive EncodeError
  /-- `OperandOverflow`: the operand does not fit its field (R96). -/
  | operandOverflow
  /-- The record's `ext` disagrees with its opcode's family (R98). -/
  | familyMismatch
deriving DecidableEq, Repr

/-- `w[hi:lo]` of R8 as the `len` bits from bit `lo` up. -/
def bits (w : Word) (lo len : Nat) : BitVec len := w.extractLsb' lo len

/-- `zext_32` of a field (R9). -/
def zext32 {n : Nat} (v : BitVec n) : Word := v.setWidth 32

/-- The reserved extended-marker pattern, all ones (R80). -/
def extMarker : BitVec 4 := 0xF

/-- The opcode of the list whose code the map says is `c`, if there is one (`OPCODE_MAP.basic`, `OPCODE_MAP.ext` of R95). -/
def OpcodeMap.find (m : OpcodeMap) (ops : List Opcode) (c : BitVec 4) : Option Opcode :=
  match ops with
  | [] => none
  | op :: rest => if m.code op = c then some op else m.find rest c

/-- `decode(w)` of R95 under an opcode map. -/
def decodeWith (m : OpcodeMap) (w : Word) : Except DecodeError Instr :=
  if bits w 28 4 = extMarker then
    if bits w 16 8 ≠ 0 then .error (.invalidOpcode w)
    else match m.find extOpcodes (bits w 24 4) with
      | none => .error (.invalidOpcode w)
      | some op => .ok (op.instr (zext32 (bits w 0 16)))
  else
    if bits w 20 8 ≠ 0 then .error (.invalidOpcode w)
    else match m.find basicOpcodes (bits w 28 4) with
      | none => .error (.invalidOpcode w)
      | some op => .ok (op.instr (zext32 (bits w 0 20)))

/-- decode under the default OPCODE_MAP of R91. -/
def decode (w : Word) : Except DecodeError Instr := decodeWith OpcodeMap.default w

/-- `encode(i)` of R96 under an opcode map: `{op4 : 4, 0 : 8, operand : 20}` or `{0b1111 : 4, xop4 : 4, 0 : 8,
operand : 16}`. -/
def encodeWith (m : OpcodeMap) (i : Instr) : Except EncodeError Word :=
  if 2 ^ operandBits i.ext ≤ i.operand.toNat then .error .operandOverflow
  else if i.ext then .ok (extMarker ++ m.code i.op ++ (0 : BitVec 8) ++ bits i.operand 0 16)
  else .ok (m.code i.op ++ (0 : BitVec 8) ++ bits i.operand 0 20)

/-- encode under the default OPCODE_MAP of R91. -/
def encode (i : Instr) : Except EncodeError Word := encodeWith OpcodeMap.default i

/-- encode on the source's record: a record whose family bit disagrees with its opcode is refused (R98). -/
def encodeRecord (m : OpcodeMap) (r : InstrRecord) : Except EncodeError Word :=
  match r.toInstr with
  | none => .error .familyMismatch
  | some i => encodeWith m i

/-- The word of an instruction whose first `nbits` bits are `w`, the bits above them 0. Every instruction is one
32-bit word (R80). -/
def tableWord (nbits w : Nat) : Word := BitVec.ofNat 32 (w % 2 ^ nbits)

/-- The instruction the decoder reads from a row of the opcode table, under the table's (default) map. -/
def decodeTableWord (nbits w : Nat) : Option Instr :=
  match decode (tableWord nbits w) with
  | .ok i => some i
  | .error _ => none

end Sys2Proof
end

