-- ==== Sys2Proof/Machine/State.lean ====
section
/-!
DEFINITION. The machine's state as plain data, the reasons a step can stop, and the state after reset
(10_state R20 to R43; 70_reset R260).
-/

namespace Sys2Proof.Machine

/-- The micro-cycle counter UC (R30): positions 0 to 4, in this order. -/
inductive MicroPos
  | fetchAddr | fetchData | decode | operand | execute
deriving DecidableEq, Repr

/-- The numeric value of a position (R30). -/
def MicroPos.code : MicroPos → Nat
  | .fetchAddr => 0
  | .fetchData => 1
  | .decode => 2
  | .operand => 3
  | .execute => 4

/-- ALUOP, "the currently active ALU operation" (R31). -/
inductive AluSel
  | none | add | and | or | xor | eql | not | rar | rrn
deriving DecidableEq, Repr

/-- FAULT, the recorded machine fault (R35). -/
inductive FaultCode
  | none | illegalInstruction | outOfBounds
deriving DecidableEq, Repr

/-- The numeric code of a fault (R35): NONE 0, ILLEGAL_INSTRUCTION 1, OUT_OF_BOUNDS 2. -/
def FaultCode.code : FaultCode → Nat
  | .none => 0
  | .illegalInstruction => 1
  | .outOfBounds => 2

/-- One transaction at the device port (00_scope R14): a callback that supplied a word, or one that consumed a word. -/
inductive DevEvent
  | read (a : Word) (v : Word)
  | write (a : Word) (v : Word)
deriving DecidableEq, Repr

/-- The state of the CORE (R20), the host's configuration it reads (R36), and three fields of the model's own.
ONE has no field: it is hard-wired (R24) and read through `State.one` (log 13). -/
structure State where
  /-- ACC, the accumulator (R21). -/
  acc : Word
  /-- X, scratch register (R22). -/
  x : Word
  /-- Y, scratch register (R22). -/
  y : Word
  /-- Z, the ALU result latch (R23). -/
  z : Word
  /-- ALUOP (R31). -/
  aluop : AluSel
  /-- IAR, the program counter (R25). -/
  iar : Word
  /-- IR, the latched instruction word (R26). -/
  ir : Word
  /-- CI, the currently active instruction, or NONE (R27; log 23). -/
  ci : Option Instr
  /-- RUN, the run flag (R28). -/
  run : Bool
  /-- TRA, the transfer flag (R29). -/
  tra : Bool
  /-- UC, the micro-cycle counter (R30). -/
  uc : MicroPos
  /-- SAR, the memory address register (R32). -/
  sar : Word
  /-- SIR, the memory data register (R33). -/
  sir : Word
  /-- MEM (R34): the listed cells, by strictly rising address, none equal to what an unlisted address reads as. -/
  mem : List Cell
  /-- FAULT (R35). -/
  fault : FaultCode
  /-- FAULT_INFO (R35). -/
  faultInfo : Word
  /-- The host's configuration (R36, 00_scope R6). -/
  cfg : Config
  /-- The model's own: how many device callbacks have answered. The next free word is `Config.freeWord draws`. DESIGN
  CHOICE: log 7. -/
  draws : Nat
  /-- The model's own: the device-port transactions so far, oldest first. DESIGN CHOICE: log 8. -/
  devLog : List DevEvent
  /-- The model's own: the number, as `draws` counts, of the device callback that never returns; none when every callback
  returns. An input from outside: no micro-step writes it. DESIGN CHOICE: log 28. -/
  stallsAt : Option Nat
deriving DecidableEq, Repr

/-- Why a micro-step of the model stops. These are NOT the machine's runtime faults: IllegalInstruction and
OutOfBounds are recorded in FAULT and the micro-step answers a next state (60_exceptions R233; log 11). -/
inductive Fault
  /-- Raised by the OPERAND and EXECUTE micro-steps when CI is NONE: "No rule reads CI while it is NONE" (R27). No run
  reaches such a state. Safe: the model stops. -/
  | noActiveInstruction
  /-- Raised by the ALU when ALUOP is not one of ADD, AND, OR, XOR, EQL: "The ALU is called only with ALUOP in" those
  five (41_arith_logic R150). No run reaches such a state. Safe: the model stops. -/
  | aluNotSelected
  /-- Raised by every access to a registered address whose callback does not return: "a callback that never returns hangs the
  machine inside the micro-step", with no timeout (20_memory R64, 70_reset R272; `stuck` in 93_implementation_defined). The
  machine makes no progress from there on. Safe: the model stops where the machine does (log 28). -/
  | callbackNeverReturns
deriving DecidableEq, Repr

/-- Why a meaning refuses an instruction. -/
inductive Refusal
  /-- Raised by an arm of exec for an instruction that has no meaning yet; no arm does now. Safe: the model stops. -/
  | notModelled (mnemonic : String)
deriving DecidableEq, Repr

/-- The machine right after initialisation under a configuration (70_reset R260; 10_state R43). The words of MEM_INIT
outside 0 .. MEM_SIZE - 1 name no cell. -/
def State.init (cfg : Config) : State where
  acc := 0
  x := 0
  y := 0
  z := 0
  aluop := .none
  iar := 0
  ir := 0
  ci := none
  run := false
  tra := false
  uc := .fetchAddr
  sar := 0
  sir := 0
  mem := cfg.memInit.filter (fun c => c.1 < cfg.memSize)
  fault := .none
  faultInfo := 0
  cfg := { cfg with readDev := [], writeDev := [] }
  draws := 0
  devLog := []
  stallsAt := none

/-- The machine right after reset, under the default configuration. RUN is false (R43): the machine is idle until the
host loads a program and sets RUN (70_reset R261, R266; log 14). -/
def State.reset : State := State.init Config.default

end Sys2Proof.Machine
end

