-- ==== Sys2Proof/Machine/Ops.lean ====
section
/-!
DEFINITION. The named operations over memory and registers: the memory array, one micro-step's transfers and how they
end, the raise of a fault and the initialisation that is its only way out, the device port, MemRead and MemWrite
(00_scope R9 to R13; 20_memory R50 to R73; 60_exceptions R230 to R240).
-/

namespace Sys2Proof.Machine

/-! ### The memory array (10_state R34, 20_memory R51) -/

/-- What an address reads as when no cell lists it: 0, MEM_INIT's default (00_scope R6, D12; log 5). -/
def Memory.unlisted : Word := 0

/-- The word at address `a`. -/
def Memory.read (m : List Cell) (a : Nat) : Word :=
  match m with
  | [] => Memory.unlisted
  | c :: rest => if c.1 = a then c.2 else Memory.read rest a

/-- The cell for `a` holding `v` in front of `rest`, or no cell when an unlisted address reads as `v` anyway. -/
def Memory.consCell (a : Nat) (v : Word) (rest : List Cell) : List Cell :=
  if v = Memory.unlisted then rest else (a, v) :: rest

/-- `MEM[a] <- v`, keeping the canonical form. -/
def Memory.write (m : List Cell) (a : Nat) (v : Word) : List Cell :=
  match m with
  | [] => Memory.consCell a v []
  | c :: rest =>
    if c.1 < a then c :: Memory.write rest a v
    else if c.1 = a then Memory.consCell a v rest
    else Memory.consCell a v (c :: rest)

/-- The canonical form: addresses strictly rising, no cell equal to what an unlisted address reads as. -/
abbrev Memory.wf (m : List Cell) : Prop :=
  m.Pairwise (fun c d => c.1 < d.1) ∧ ∀ c ∈ m, c.2 ≠ Memory.unlisted

/-- Every listed cell lies in 0 .. n - 1 (R51). -/
abbrev Memory.within (m : List Cell) (n : Nat) : Prop := ∀ c ∈ m, c.1 < n

/-! ### Words -/

/-- The constant register ONE: "always holds 0x00000001, is read-only" (10_state R24; log 13). -/
def State.one (_s : State) : Word := 1

/-- `ONES` (00_scope R9). -/
def onesWord : Word := 0xFFFFFFFF

/-- `ror32(v, n)` of 00_scope R9, for n <= 31: `(v >> n) | (v << (32 - n))`. -/
def ror32 (v : Word) (n : Nat) : Word := (v >>> n) ||| (v <<< (32 - n))

/-- 20_memory R52: an address is legal when it is below MEM_SIZE. -/
def State.legal (s : State) (a : Word) : Bool := a.toNat < s.cfg.memSize

/-- 40_microcycle R120: a micro-step changes nothing when FAULT != NONE or RUN is false. -/
def State.idle (s : State) : Bool := s.fault ≠ .none || !s.run

/-! ### How the transfers of one micro-step end (00_scope R10, R12) -/

/-- The transfers of a micro-step, done in their listed order: all done, or ended by a raise with the state it left, or
stopped by the model: for ever inside a callback, or in a state no run reaches (`Fault`). -/
inductive Micro
  | done (s : State)
  | raised (s : State)
  | stuck (f : Fault)
deriving DecidableEq, Repr

/-- Later transfers happen only when the earlier ones raised nothing (R12). -/
def Micro.andThen (m : Micro) (f : State → Micro) : Micro :=
  match m with
  | .done s => f s
  | .raised s => .raised s
  | .stuck e => .stuck e

/-- The end of a micro-step: UC moves to its next position when nothing was raised, and keeps its position otherwise
(R12; 10_state R30). -/
def Micro.finish (m : Micro) (next : MicroPos) : Host.Outcome State Fault Refusal :=
  match m with
  | .done s => .next { s with uc := next }
  | .raised s => .next s
  | .stuck e => .fault e

/-! ### Taking a fault, and the way out (60_exceptions R233, R240) -/

/-- `raise F(info)`: the whole of trap entry (R233). FAULT, FAULT_INFO and RUN are written and nothing else. -/
def raise (f : FaultCode) (info : Word) (s : State) : State :=
  { s with fault := f, faultInfo := info, run := false }

/-- `init(MEM_SIZE)` (70_reset R260): the only way out of a faulted state (60_exceptions R240). Every element takes its
reset value and the device tables are emptied. The host's OPCODE_MAP, MEM_INIT, IO_READ_ON_FETCH and breakpoints stay, and so does
the model's view of the outside world (draws, devLog, stallsAt): DESIGN CHOICE, log 19. -/
def initialise (memSize : Nat) (s : State) : State :=
  { State.init { s.cfg with memSize := memSize } with
    draws := s.draws, devLog := s.devLog, stallsAt := s.stallsAt }

/-! ### The device port (20_memory R60 to R64) -/

/-- The word the next device callback leaves in SIR: `any` (00_scope R13), a free value (log 7). -/
def State.nextDraw (s : State) : Word := Config.freeWord s.draws

/-- What a read callback for address `a` does when it returns: it produces the word that SIR then holds, and MEM is neither read nor written (R62). -/
def deviceRead (a : Word) (s : State) : State :=
  { s with sir := s.nextDraw, draws := s.draws + 1, devLog := s.devLog ++ [.read a s.nextDraw] }

/-- What a write callback for address `a` does when it returns: it consumes SIR, MEM is not written, and SIR then holds `any` (R63). -/
def deviceWrite (a : Word) (s : State) : State :=
  { s with sir := s.nextDraw, draws := s.draws + 1, devLog := s.devLog ++ [.write a s.sir] }

/-- Whether the next device callback returns (R64; log 28). -/
def State.callbackReturns (s : State) : Bool := s.stallsAt ≠ some s.draws

/-- A callback "runs synchronously on the engine's thread of control": its effect when it returns, and a machine that hangs
inside the micro-step for ever when it does not (R64; 70_reset R272). -/
def callDevice (effect : State → State) (s : State) : Micro :=
  if s.callbackReturns then .done (effect s) else .stuck .callbackNeverReturns

/-- Whether a read of `a` goes to a device: `a in READ_DEV and (not fetch or IO_READ_ON_FETCH)` (R56). -/
def State.readsDevice (s : State) (fetch : Bool) (a : Word) : Bool :=
  s.cfg.readDev.contains a && (!fetch || s.cfg.ioReadOnFetch)

/-- Whether a write of `a` goes to a device (R57). -/
def State.writesDevice (s : State) (a : Word) : Bool := s.cfg.writeDev.contains a

/-! ### The memory unit (20_memory R56, R57) -/

/-- `MemRead(SAR, 1)` (R56): bounds check, then device check, then `SIR <- MEM[SAR]`. -/
def memRead (fetch : Bool) (s : State) : Micro :=
  if s.legal s.sar then
    if s.readsDevice fetch s.sar then callDevice (deviceRead s.sar) s
    else .done { s with sir := Memory.read s.mem s.sar.toNat }
  else .raised (raise .outOfBounds s.sar s)

/-- `MemWrite(SAR, 1, SIR)` (R57): bounds check, then device check, then `MEM[SAR] <- SIR`. -/
def memWrite (s : State) : Micro :=
  if s.legal s.sar then
    if s.writesDevice s.sar then callDevice (deviceWrite s.sar) s
    else .done { s with mem := Memory.write s.mem s.sar.toNat s.sir }
  else .raised (raise .outOfBounds s.sar s)

end Sys2Proof.Machine
end

