-- ==== Sys2Proof/Machine/Flags.lean ====
section
/-!
DEFINITION. The flag computations: TRA and ALUOP as DECODE writes them, and the sign bit JMN tests. The CORE has no
condition codes (10_state R29, R31, R37; 40_microcycle R124).
-/

namespace Sys2Proof.Machine

/-- `TRA <- (i.op == LDIV) or i.ext` (R124; conflict C6). -/
def traOf (i : Instr) : Bool := i.op = .ldiv || i.ext

/-- `ALUOP <- i.op if i.op in {ADD, AND, OR, XOR, EQL, NOT, RAR, RRN} else NONE` (R124). -/
def aluSelOf (i : Instr) : AluSel :=
  match i.op with
  | .add => .add
  | .and => .and
  | .or => .or
  | .xor => .xor
  | .eql => .eql
  | .not => .not
  | .rar => .rar
  | .rrn => .rrn
  | .ldc | .ldv | .stv | .jmp | .jmn | .ldiv | .hlt => .none

/-- `ACC[31]`, the only condition any instruction reads (R37; 43_control R194). -/
def State.negative (s : State) : Bool := s.acc.msb

/-- What a successful DECODE latches: CI, TRA and ALUOP, and UC moves on to OPERAND (R124). -/
def latch (i : Instr) (s : State) : State :=
  { s with ci := some i, tra := traOf i, aluop := aluSelOf i, uc := .operand }

/-- The meaning of an instruction from its OPERAND and EXECUTE transfers: DECODE's latch, then the two micro-steps in
order. A raise ends the instruction where it happens and UC keeps that position (40_microcycle R124 to R126, R130; log
22). -/
def runPhases (i : Instr) (operand execute : State → Micro) (s : State) : Host.Outcome State Fault Refusal :=
  match operand (latch i s) with
  | .done t => (execute { t with uc := .execute }).finish .fetchAddr
  | .raised t => .next t
  | .stuck e => .fault e

end Sys2Proof.Machine
end

