-- ==== Sys2Proof/Machine/Operands.lean ====
section
/-!
DEFINITION. Operand resolution: the OPERAND transfers of every addressing mode
(40_microcycle R125; 42_load_store R170; 30_encoding R86).
-/

namespace Sys2Proof.Machine

/-- No OPERAND transfer: the immediate of LDC, and HLT, NOT, RAR, RRN (R125). -/
def operandNone (s : State) : Micro := .done s

/-- `SAR <- CI.operand`, staged without a read: STV, JMP, JMN (R178, R192, R194). -/
def operandStage (a : Word) (s : State) : Micro := .done { s with sar := a }

/-- Direct: `SAR <- CI.operand; MemRead(SAR, 1)` (R152 to R156, R174). -/
def operandDirect (a : Word) (s : State) : Micro := memRead false { s with sar := a }

/-- Memory-indirect: the direct read, then `SAR <- SIR; MemRead(SAR, 1)` (R176). -/
def operandIndirect (p : Word) (s : State) : Micro :=
  (operandDirect p s).andThen fun t => memRead false { t with sar := t.sir }

/-- RRN's rotate count, `zext_32(n16) mod 32` (R86, R216). -/
def rotateCount (n : Word) : Nat := n.toNat % 32

end Sys2Proof.Machine
end

