-- ==== Sys2Proof/Machine/AccumulatorOps.lean ====
section
/-!
DEFINITION. NOT, RAR, RRN (44_accumulator_ops R210 to R216). They bypass X, Y, Z and the ALU (R210).
-/

namespace Sys2Proof.Machine

/-- OPERAND of NOT: none (R212). -/
def operandNot (_n : Word) (s : State) : Micro := operandNone s
/-- EXECUTE of NOT: `ACC <- ~ACC` (R212). -/
def executeNot (_n : Word) (s : State) : Micro := .done { s with acc := ~~~s.acc }
/-- NOT: complement ACC. The operand is ignored (R212). -/
def execNot (n : Word) (s : State) : Host.Outcome State Fault Refusal :=
  runPhases (.not n) (operandNot n) (executeNot n) s

/-- OPERAND of RAR: none (R214). -/
def operandRar (_n : Word) (s : State) : Micro := operandNone s
/-- EXECUTE of RAR: `ACC <- ror32(ACC, 1)` (R214). -/
def executeRar (_n : Word) (s : State) : Micro := .done { s with acc := ror32 s.acc 1 }
/-- RAR: rotate ACC right by one. The operand is ignored (R214). -/
def execRar (n : Word) (s : State) : Host.Outcome State Fault Refusal :=
  runPhases (.rar n) (operandRar n) (executeRar n) s

/-- OPERAND of RRN: none (R216). -/
def operandRrn (_n : Word) (s : State) : Micro := operandNone s
/-- EXECUTE of RRN: `ACC <- ror32(ACC, CI.operand mod 32)` (R216). -/
def executeRrn (n : Word) (s : State) : Micro := .done { s with acc := ror32 s.acc (rotateCount n) }
/-- RRN: rotate ACC right by N, every count legal (R216). -/
def execRrn (n : Word) (s : State) : Host.Outcome State Fault Refusal :=
  runPhases (.rrn n) (operandRrn n) (executeRrn n) s

end Sys2Proof.Machine
end

