-- ==== Sys2Proof/Machine/ArithLogic.lean ====
section
/-!
DEFINITION. The ALU, and ADD, AND, OR, XOR, EQL (41_arith_logic R150 to R157).
-/

namespace Sys2Proof.Machine

/-- The ALU: a pure function of ALUOP, X and Y (R150). Outside the five operations it is never called. -/
def alu (op : AluSel) (x y : Word) : Option Word :=
  match op with
  | .add => some (x + y)
  | .and => some (x &&& y)
  | .or => some (x ||| y)
  | .xor => some (x ^^^ y)
  | .eql => some (if x = y then onesWord else 0)
  | .none | .not | .rar | .rrn => none

/-- `X <- ACC; Y <- SIR; Z <- ALU(ALUOP, X, Y); ACC <- Z` (40_microcycle R127; 10_state R22, R23; log 12). -/
def executeAlu (s : State) : Micro :=
  match alu s.aluop s.acc s.sir with
  | some v => .done { s with x := s.acc, y := s.sir, z := v, acc := v }
  | none => .stuck .aluNotSelected

/-- OPERAND of ADD (R152). -/
def operandAdd (a : Word) (s : State) : Micro := operandDirect a s
/-- EXECUTE of ADD (R152). -/
def executeAdd (_a : Word) (s : State) : Micro := executeAlu s
/-- ADD: `ACC <- ACC + MEM[a]` modulo 2^32 (R152). -/
def execAdd (a : Word) (s : State) : Host.Outcome State Fault Refusal :=
  runPhases (.add a) (operandAdd a) (executeAdd a) s

/-- OPERAND of AND (R153). -/
def operandAnd (a : Word) (s : State) : Micro := operandDirect a s
/-- EXECUTE of AND (R153). -/
def executeAnd (_a : Word) (s : State) : Micro := executeAlu s
/-- AND: `ACC <- ACC & MEM[a]` (R153). -/
def execAnd (a : Word) (s : State) : Host.Outcome State Fault Refusal :=
  runPhases (.and a) (operandAnd a) (executeAnd a) s

/-- OPERAND of OR (R154). -/
def operandOr (a : Word) (s : State) : Micro := operandDirect a s
/-- EXECUTE of OR (R154). -/
def executeOr (_a : Word) (s : State) : Micro := executeAlu s
/-- OR: `ACC <- ACC | MEM[a]` (R154). -/
def execOr (a : Word) (s : State) : Host.Outcome State Fault Refusal :=
  runPhases (.or a) (operandOr a) (executeOr a) s

/-- OPERAND of XOR (R155). -/
def operandXor (a : Word) (s : State) : Micro := operandDirect a s
/-- EXECUTE of XOR (R155). -/
def executeXor (_a : Word) (s : State) : Micro := executeAlu s
/-- XOR: `ACC <- ACC ^ MEM[a]` (R155). -/
def execXor (a : Word) (s : State) : Host.Outcome State Fault Refusal :=
  runPhases (.xor a) (operandXor a) (executeXor a) s

/-- OPERAND of EQL (R156). -/
def operandEql (a : Word) (s : State) : Micro := operandDirect a s
/-- EXECUTE of EQL (R156). -/
def executeEql (_a : Word) (s : State) : Micro := executeAlu s
/-- EQL: `ACC <- ONES` when ACC equals MEM[a], else 0 (R156). -/
def execEql (a : Word) (s : State) : Host.Outcome State Fault Refusal :=
  runPhases (.eql a) (operandEql a) (executeEql a) s

end Sys2Proof.Machine
end

