-- ==== Sys2Proof/Machine/Control.lean ====
section
/-!
DEFINITION. JMP, JMN, HLT (43_control R190 to R197).
-/

namespace Sys2Proof.Machine

/-- `IAR <- target`, the control transfer (00_scope R10). A target at or above MEM_SIZE is not checked here: the next
fetch faults (R190). -/
def jumpTo (t : Word) (s : State) : State := { s with iar := t }

/-- OPERAND of JMP: the target is staged in SAR, nothing is read (R192). -/
def operandJmp (t : Word) (s : State) : Micro := operandStage t s
/-- EXECUTE of JMP: `IAR <- CI.operand` (R192). -/
def executeJmp (t : Word) (s : State) : Micro := .done (jumpTo t s)
/-- JMP: jump unconditionally (R192). -/
def execJmp (t : Word) (s : State) : Host.Outcome State Fault Refusal :=
  runPhases (.jmp t) (operandJmp t) (executeJmp t) s

/-- OPERAND of JMN: the target is staged whether or not the jump is taken (R194). -/
def operandJmn (t : Word) (s : State) : Micro := operandStage t s
/-- EXECUTE of JMN: `if ACC[31] == 1: IAR <- CI.operand` (R194). -/
def executeJmn (t : Word) (s : State) : Micro := .done (if s.negative then jumpTo t s else s)
/-- JMN: jump if negative (R194). -/
def execJmn (t : Word) (s : State) : Host.Outcome State Fault Refusal :=
  runPhases (.jmn t) (operandJmn t) (executeJmn t) s

/-- OPERAND of HLT: none (R197). -/
def operandHlt (_n : Word) (s : State) : Micro := operandNone s
/-- EXECUTE of HLT: `RUN <- false`, and the wrap still happens (R197). -/
def executeHlt (_n : Word) (s : State) : Micro := .done { s with run := false }
/-- HLT: halt. The operand is ignored (R197). -/
def execHlt (n : Word) (s : State) : Host.Outcome State Fault Refusal :=
  runPhases (.hlt n) (operandHlt n) (executeHlt n) s

end Sys2Proof.Machine
end

