-- ==== Sys2Proof/Machine/LoadStore.lean ====
section
/-!
DEFINITION. LDC, LDV, LDIV, STV (42_load_store R170 to R178).
-/

namespace Sys2Proof.Machine

/-- `ACC <- SIR`, the EXECUTE transfer both loads share (R174, R176). -/
def executeLoad (s : State) : Micro := .done { s with acc := s.sir }

/-- OPERAND of LDC: none (R172). -/
def operandLdc (_c : Word) (s : State) : Micro := operandNone s
/-- EXECUTE of LDC: `ACC <- CI.operand` (R172). -/
def executeLdc (c : Word) (s : State) : Micro := .done { s with acc := c }
/-- LDC: load a constant, zero-extended (R172). -/
def execLdc (c : Word) (s : State) : Host.Outcome State Fault Refusal :=
  runPhases (.ldc c) (operandLdc c) (executeLdc c) s

/-- OPERAND of LDV (R174). -/
def operandLdv (a : Word) (s : State) : Micro := operandDirect a s
/-- EXECUTE of LDV (R174). -/
def executeLdv (_a : Word) (s : State) : Micro := executeLoad s
/-- LDV: `ACC <- MEM[a]` (R174). -/
def execLdv (a : Word) (s : State) : Host.Outcome State Fault Refusal :=
  runPhases (.ldv a) (operandLdv a) (executeLdv a) s

/-- OPERAND of LDIV: two reads (R176). -/
def operandLdiv (p : Word) (s : State) : Micro := operandIndirect p s
/-- EXECUTE of LDIV (R176). -/
def executeLdiv (_p : Word) (s : State) : Micro := executeLoad s
/-- LDIV: `ACC <- MEM[MEM[p]]` (R176). -/
def execLdiv (p : Word) (s : State) : Host.Outcome State Fault Refusal :=
  runPhases (.ldiv p) (operandLdiv p) (executeLdiv p) s

/-- OPERAND of STV: the address is staged, nothing is read (R178). -/
def operandStv (a : Word) (s : State) : Micro := operandStage a s
/-- EXECUTE of STV: `SIR <- ACC; MemWrite(SAR, 1, SIR)` (R178). -/
def executeStv (_a : Word) (s : State) : Micro := memWrite { s with sir := s.acc }
/-- STV: `MEM[a] <- ACC` (R178). -/
def execStv (a : Word) (s : State) : Host.Outcome State Fault Refusal :=
  runPhases (.stv a) (operandStv a) (executeStv a) s

end Sys2Proof.Machine
end

