-- ==== Sys2Proof/Machine/Dispatch.lean ====
section
/-!
DEFINITION. exec: one arm per instruction (00_scope R2; 40_microcycle R127).
-/

namespace Sys2Proof.Machine

def exec (i : Instr) (s : State) : Host.Outcome State Fault Refusal :=
  match i with
  | .ldc c => Sys2Proof.Machine.execLdc c s
  | .ldv a => Sys2Proof.Machine.execLdv a s
  | .stv a => Sys2Proof.Machine.execStv a s
  | .add a => Sys2Proof.Machine.execAdd a s
  | .and a => Sys2Proof.Machine.execAnd a s
  | .or a => Sys2Proof.Machine.execOr a s
  | .xor a => Sys2Proof.Machine.execXor a s
  | .eql a => Sys2Proof.Machine.execEql a s
  | .jmp t => Sys2Proof.Machine.execJmp t s
  | .jmn t => Sys2Proof.Machine.execJmn t s
  | .ldiv p => Sys2Proof.Machine.execLdiv p s
  | .hlt n => Sys2Proof.Machine.execHlt n s
  | .not n => Sys2Proof.Machine.execNot n s
  | .rar n => Sys2Proof.Machine.execRar n s
  | .rrn n => Sys2Proof.Machine.execRrn n s

end Sys2Proof.Machine
end

