-- ==== Sys2Proof/Machine/MicroCycle.lean ====
section
/-!
DEFINITION. The micro-step, the CORE's only state transition, and the coarser operations the source builds from it
(40_microcycle R120 to R134).
-/

namespace Sys2Proof.Machine

/-- FETCH_ADDR: `SAR <- IAR; UC <- 1` (R121). -/
def fetchAddr (s : State) : State := { s with sar := s.iar, uc := .fetchData }

/-- The transfers of FETCH_DATA: `MemRead(SAR, 1)` as a fetch, `IR <- SIR`, `IAR <- IAR + ONE` (R122). -/
def fetchData (s : State) : Micro :=
  (memRead true s).andThen fun t => .done { t with ir := t.sir, iar := t.iar + t.one }

/-- The address of the instruction being executed, from DECODE on: `(IAR - 1) mod 2^32` (R123). -/
def State.instructionAddress (s : State) : Word := s.iar - s.one

/-- The OPERAND transfers of an instruction (R125, R127). -/
def operandPhase (i : Instr) (s : State) : Micro :=
  match i with
  | .ldc c => operandLdc c s
  | .ldv a => operandLdv a s
  | .stv a => operandStv a s
  | .add a => operandAdd a s
  | .and a => operandAnd a s
  | .or a => operandOr a s
  | .xor a => operandXor a s
  | .eql a => operandEql a s
  | .jmp t => operandJmp t s
  | .jmn t => operandJmn t s
  | .ldiv p => operandLdiv p s
  | .hlt n => operandHlt n s
  | .not n => operandNot n s
  | .rar n => operandRar n s
  | .rrn n => operandRrn n s

/-- The EXECUTE transfers of an instruction (R126, R127). -/
def executePhase (i : Instr) (s : State) : Micro :=
  match i with
  | .ldc c => executeLdc c s
  | .ldv a => executeLdv a s
  | .stv a => executeStv a s
  | .add a => executeAdd a s
  | .and a => executeAnd a s
  | .or a => executeOr a s
  | .xor a => executeXor a s
  | .eql a => executeEql a s
  | .jmp t => executeJmp t s
  | .jmn t => executeJmn t s
  | .ldiv p => executeLdiv p s
  | .hlt n => executeHlt n s
  | .not n => executeNot n s
  | .rar n => executeRar n s
  | .rrn n => executeRrn n s

/-- DECODE of IR: the latch, or IllegalInstruction with the whole word (R124; 60_exceptions R231). -/
def decodeStep (s : State) : State :=
  match decodeWith s.cfg.opcodeMap s.ir with
  | .ok i => latch i s
  | .error (.invalidOpcode w) => raise .illegalInstruction w s

/-- The OPERAND micro-step: CI's transfers, then UC to EXECUTE (R125). -/
def operandStep (s : State) : Host.Outcome State Fault Refusal :=
  match s.ci with
  | some i => (operandPhase i s).finish .execute
  | none => .fault .noActiveInstruction

/-- The EXECUTE micro-step: CI's transfers, then the wrap, an instruction boundary (R126). -/
def executeStep (s : State) : Host.Outcome State Fault Refusal :=
  match s.ci with
  | some i => (executePhase i s).finish .fetchAddr
  | none => .fault .noActiveInstruction

/-- The complete micro-step (R128), with its guard (R120). -/
def microStep (s : State) : Host.Outcome State Fault Refusal :=
  if s.idle then .next s
  else match s.uc with
    | .fetchAddr => .next (fetchAddr s)
    | .fetchData => (fetchData s).finish .decode
    | .decode => .next (decodeStep s)
    | .operand => operandStep s
    | .execute => executeStep s

/-- `k` repetitions of an operation, ending at the first stop. -/
def repeatStep (f : State → Host.Outcome State Fault Refusal) : Nat → State → Host.Outcome State Fault Refusal
  | 0, s => .next s
  | k + 1, s =>
    match f s with
    | .next t => repeatStep f k t
    | .fault e => .fault e
    | .refused e => .refused e

/-- Step N micro-steps (R133). -/
def stepMicro (k : Nat) (s : State) : Host.Outcome State Fault Refusal := repeatStep microStep k s

/-- The exit test of an instruction step: `UC == 0 or FAULT != NONE or not RUN` (R132). -/
def State.stepEnded (s : State) : Bool := s.uc = .fetchAddr || s.idle

/-- `repeat micro_step() until UC == 0 or FAULT != NONE or not RUN` (R132), at most `k` times. -/
def untilWrap : Nat → State → Host.Outcome State Fault Refusal
  | 0, s => .next s
  | k + 1, s =>
    match microStep s with
    | .next t => if t.stepEnded then .next t else untilWrap k t
    | .fault e => .fault e
    | .refused e => .refused e

/-- The instruction step as R132 writes it, by micro-steps. Five always suffice, since UC has five positions (R129). -/
def instructionStep (s : State) : Host.Outcome State Fault Refusal :=
  if s.idle then .next s else untilWrap 5 s

end Sys2Proof.Machine
end

