-- ==== Sys2Proof/Machine/InstructionCycle.lean ====
section
/-!
DEFINITION. The instruction step through exec: fetch, decode, and exec of what was decoded; or the rest of an
instruction that single micro-steps began (40_microcycle R131, R132, R141).
-/

namespace Sys2Proof.Machine

/-- From DECODE on: exec of the instruction in IR, or IllegalInstruction (R124). -/
def runDecode (s : State) : Host.Outcome State Fault Refusal :=
  match decodeWith s.cfg.opcodeMap s.ir with
  | .ok i => exec i s
  | .error (.invalidOpcode w) => .next (raise .illegalInstruction w s)

/-- From FETCH_DATA on (R122). -/
def runFetchData (s : State) : Host.Outcome State Fault Refusal :=
  match fetchData s with
  | .done t => runDecode { t with uc := .decode }
  | .raised t => .next t
  | .stuck e => .fault e

/-- From OPERAND on, for a machine paused there: CI is already latched (R125, R126). -/
def resumeOperand (s : State) : Host.Outcome State Fault Refusal :=
  match s.ci with
  | none => .fault .noActiveInstruction
  | some i =>
    match operandPhase i s with
    | .done t => executeStep { t with uc := .execute }
    | .raised t => .next t
    | .stuck e => .fault e

/-- One instruction step from any position of the micro-cycle (R132): nothing when idle, else the whole instruction from
FETCH_ADDR, or what is left of it. -/
def runInstruction (s : State) : Host.Outcome State Fault Refusal :=
  if s.idle then .next s
  else match s.uc with
    | .fetchAddr => runFetchData (fetchAddr s)
    | .fetchData => runFetchData s
    | .decode => runDecode s
    | .operand => resumeOperand s
    | .execute => executeStep s

/-- A machine ready to fetch the word `w` of the default OPCODE_MAP at its IAR: the word stored there, that address
legal and plain memory, the machine running at an instruction boundary (log 14). -/
def readyToFetch (s : State) (w : Word) : State :=
  { s with
    mem := Memory.write s.mem s.iar.toNat w
    run := true
    fault := .none
    uc := .fetchAddr
    cfg := { s.cfg with
      memSize := max s.cfg.memSize (s.iar.toNat + 1)
      opcodeMap := OpcodeMap.default
      readDev := s.cfg.readDev.filter (fun a => a ≠ s.iar) } }

end Sys2Proof.Machine
end

