-- ==== Sys2Proof/Machine/Step.lean ====
section
/-!
DEFINITION. step: one instruction step (40_microcycle R132; log 1), and the placing of an instruction where step fetches
next.
-/

namespace Sys2Proof.Machine

/-- One step of the machine: R132's instruction step. The micro-steps it consists of are `microStep` (R128). -/
def step (s : State) : Host.Outcome State Fault Refusal := runInstruction s

/-- `s` with the instruction whose first `nbits` bits are `w` placed where step fetches next, and the machine set
running at an instruction boundary (log 14). -/
def State.withFetchWord (s : State) (nbits w : Nat) : State := readyToFetch s (tableWord nbits w)

end Sys2Proof.Machine
end

