-- ==== Sys2Proof/Machine/Assembler.lean ====
section
/-!
DEFINITION. The assembler, the toolchain contract beside the CORE: line grammar, the two passes, the program image and
the canonical listing (30_encoding R100 to R113). No rule of the CORE depends on it (00_scope R5).
-/

namespace Sys2Proof.Machine

/-- The compile-time errors (R110), each with its line counted from 1 and its token where it has one. -/
inductive AsmError
  | syntaxError (line : Nat)
  | unknownOpcode (line : Nat) (token : Text)
  | duplicateLabel (line : Nat) (label : Text)
  | undefinedLabel (line : Nat) (label : Text)
  | operandOverflow (line : Nat) (value : Nat)
deriving DecidableEq, Repr

/-- An operand as written: a literal's unsigned value, or a label (R101, R105). -/
inductive AsmOperand
  | lit (value : Nat)
  | label (name : Text)
deriving DecidableEq, Repr

/-- The shape of one line (R101): nothing, or an optional label, a word in mnemonic position and an optional operand. -/
inductive RawLine
  | blank
  | stmt (label : Option Text) (word : Text) (operand : Option AsmOperand)
deriving DecidableEq, Repr

/-- An instruction after pass 1: its line, opcode and operand. Its place in the list is its address (R106, R108). -/
structure AsmStmt where
  line : Nat
  op : Opcode
  operand : Option AsmOperand
deriving DecidableEq, Repr

/-- A symbol table: label and address (R106). -/
abbrev Symbols := List (Text × Nat)

/-- A program image: "an ordered sequence of (address, word) writes plus a resolved entry point" (70_reset R265). -/
structure ProgramImage where
  writes : List (Nat × Word)
  entry : Nat
deriving DecidableEq, Repr

/-! ### Characters (R101) -/

/-- White space inside a line: `ws ::= [ \t]*`. -/
def isWs (c : Char) : Bool := c = ' ' || c = '\t'

/-- `[A-Za-z_]`. -/
def isNameStart (c : Char) : Bool := c.isAlpha || c = '_'

/-- `[A-Za-z0-9_]`. -/
def isWordChar (c : Char) : Bool := c.isAlphanum || c = '_'

/-- `[0-9A-Fa-f]`. -/
def isHexDigit (c : Char) : Bool := c.isDigit || ('a' ≤ c && c ≤ 'f') || ('A' ≤ c && c ≤ 'F')

/-- The value of a hexadecimal (so also of a decimal) digit. -/
def digitValue (c : Char) : Nat :=
  if c.isDigit then c.toNat - '0'.toNat
  else if 'a' ≤ c then c.toNat - 'a'.toNat + 10
  else c.toNat - 'A'.toNat + 10

/-- The number digits spell in a base, most significant first. -/
def digitsValue (base : Nat) (ds : Text) : Nat := ds.foldl (fun n c => n * base + digitValue c) 0

/-- `label ::= [A-Za-z_][A-Za-z0-9_]*`, for a run of word characters. -/
def isName : Text → Bool
  | [] => false
  | c :: _ => isNameStart c

/-! ### Lines (R101) -/

/-- Lines end at LF, and a CR before an LF is dropped. `acc` is the current line, reversed. -/
def splitLinesFrom (acc : Text) : Text → List Text
  | [] => [acc.reverse]
  | c :: cs =>
    if c = '\n' then (if acc.head? = some '\r' then acc.tail else acc).reverse :: splitLinesFrom [] cs
    else splitLinesFrom (c :: acc) cs

/-- The lines of a source text. -/
def splitLines (t : Text) : List Text := splitLinesFrom [] t

/-- A digit string's literal value when every character is one of the base's digits and there is one. -/
def literal (base : Nat) (isDig : Char → Bool) (ds : Text) : Option AsmOperand :=
  if ds ≠ [] ∧ ds.all isDig then some (.lit (digitsValue base ds)) else none

/-- `operand ::= decimal | hex | label`, for a run of word characters. -/
def parseOperand (tok : Text) : Option AsmOperand :=
  if isName tok then some (.label tok)
  else match tok with
    | '0' :: 'x' :: ds => literal 16 isHexDigit ds
    | '0' :: 'X' :: ds => literal 16 isHexDigit ds
    | ds => literal 10 Char.isDigit ds

/-- What follows the mnemonic, `[ ws1 operand ] ws`: `none` when the grammar does not match. -/
def parseRest (t : Text) : Option (Option AsmOperand) :=
  match t with
  | [] => some none
  | c :: cs =>
    if isWs c then
      match cs.dropWhile isWs with
      | [] => some none
      | t' =>
        if (t'.dropWhile isWordChar).all isWs then (parseOperand (t'.takeWhile isWordChar)).map some else none
    else none

/-- `mnemonic [ ws1 operand ] ws` with any name in mnemonic position. A word there that is no name, such as one that begins with
a digit, is a SyntaxError, and a name that is no mnemonic an UnknownOpcode (R102). DESIGN CHOICE, log 29: R102 speaks of a
word in mnemonic position and does not say which words those are. -/
def parseStatement (label : Option Text) (t : Text) : Option RawLine :=
  if isName (t.takeWhile isWordChar) then
    (parseRest (t.dropWhile isWordChar)).map (RawLine.stmt label (t.takeWhile isWordChar))
  else none

/-- One line without its comment and leading white space: `none` is a SyntaxError. A label with no mnemonic is one. -/
def parseBody (t : Text) : Option RawLine :=
  match t with
  | [] => some .blank
  | _ =>
    match t.dropWhile isWordChar with
    | ':' :: rest =>
      if isName (t.takeWhile isWordChar) then parseStatement (some (t.takeWhile isWordChar)) (rest.dropWhile isWs)
      else none
    | _ => parseStatement none t

/-- One line (R101). The comment runs from the first `;`. -/
def parseLine (t : Text) : Option RawLine := parseBody ((t.takeWhile (fun c => c ≠ ';')).dropWhile isWs)

/-! ### Mnemonics (R102, R104) -/

/-- The canonical spelling of a mnemonic (R102). -/
def Mnemonic.text : Opcode → Text
  | .ldc => ['L', 'D', 'C']
  | .ldv => ['L', 'D', 'V']
  | .stv => ['S', 'T', 'V']
  | .add => ['A', 'D', 'D']
  | .and => ['A', 'N', 'D']
  | .or => ['O', 'R']
  | .xor => ['X', 'O', 'R']
  | .eql => ['E', 'Q', 'L']
  | .jmp => ['J', 'M', 'P']
  | .jmn => ['J', 'M', 'N']
  | .ldiv => ['L', 'D', 'I', 'V']
  | .hlt => ['H', 'L', 'T']
  | .not => ['N', 'O', 'T']
  | .rar => ['R', 'A', 'R']
  | .rrn => ['R', 'R', 'N']

/-- The opcode a word names, letter case ignored (R102). -/
def Mnemonic.find (word : Text) : Option Opcode :=
  (basicOpcodes ++ extOpcodes).find? (fun op => Mnemonic.text op = word.map Char.toUpper)

/-- R104: HLT, NOT and RAR take an optional operand, every other instruction requires one. -/
def Mnemonic.needsOperand : Opcode → Bool
  | .hlt | .not | .rar => false
  | .ldc | .ldv | .stv | .add | .and | .or | .xor | .eql | .jmp | .jmn | .ldiv | .rrn => true

/-! ### The two passes (R106 to R109) -/

/-- The address a label is defined at. -/
def Symbols.find (syms : Symbols) (l : Text) : Option Nat :=
  (syms.find? (fun e => e.1 = l)).map Prod.snd

/-- Record a line's label, if it has one, at its instruction's address (R103, R106). -/
def defineLabel (line addr : Nat) (label : Option Text) (syms : Symbols) : Except AsmError Symbols :=
  match label with
  | none => .ok syms
  | some l => if (syms.find? (fun e => e.1 = l)).isSome then .error (.duplicateLabel line l) else .ok ((l, addr) :: syms)

/-- One line of pass 1: its parse, its mnemonic, its operand's presence, its label, in this order (R106; log 20). A blank
line gives no statement. -/
def pass1Line (line addr : Nat) (syms : Symbols) (t : Text) : Except AsmError (Symbols × Option AsmStmt) :=
  match parseLine t with
  | none => .error (.syntaxError line)
  | some .blank => .ok (syms, none)
  | some (.stmt label word operand) =>
    match Mnemonic.find word with
    | none => .error (.unknownOpcode line word)
    | some op =>
      if operand.isNone && Mnemonic.needsOperand op then .error (.syntaxError line)
      else match defineLabel line addr label syms with
        | .error e => .error e
        | .ok syms' => .ok (syms', some { line := line, op := op, operand := operand })

/-- Pass 1 walks the lines in order and gives the next address to each instruction (R106). -/
def pass1 (line addr : Nat) (syms : Symbols) : List Text → Except AsmError (Symbols × List AsmStmt)
  | [] => .ok (syms, [])
  | t :: ts =>
    match pass1Line line addr syms t with
    | .error e => .error e
    | .ok (syms', none) => pass1 (line + 1) addr syms' ts
    | .ok (syms', some st) =>
      match pass1 (line + 1) (addr + 1) syms' ts with
      | .error e => .error e
      | .ok (syms'', sts) => .ok (syms'', st :: sts)

/-- The value of an operand: absent is 0, a literal its value, a label its address (R104, R105). -/
def operandValue (syms : Symbols) (line : Nat) (operand : Option AsmOperand) : Except AsmError Nat :=
  match operand with
  | none => .ok 0
  | some (.lit n) => .ok n
  | some (.label l) =>
    match Symbols.find syms l with
    | some a => .ok a
    | none => .error (.undefinedLabel line l)

/-- Pass 2 for one instruction: resolve, check the field, encode (R105, R107). -/
def encodeStmt (m : OpcodeMap) (syms : Symbols) (st : AsmStmt) : Except AsmError Word :=
  match operandValue syms st.line st.operand with
  | .error e => .error e
  | .ok v =>
    if 2 ^ operandBits st.op.ext ≤ v then .error (.operandOverflow st.line v)
    else match encodeWith m (st.op.instr (BitVec.ofNat 32 v)) with
      | .ok w => .ok w
      | .error _ => .error (.operandOverflow st.line v)

/-- Pass 2 in order, the first error reported (R107, R109). -/
def pass2 (m : OpcodeMap) (syms : Symbols) : List AsmStmt → Except AsmError (List Word)
  | [] => .ok []
  | st :: sts =>
    match encodeStmt m syms st with
    | .error e => .error e
    | .ok w =>
      match pass2 m syms sts with
      | .error e => .error e
      | .ok ws => .ok (w :: ws)

/-- The words of a source text, the n-th instruction's word n-th: pass 1 completes before pass 2 starts (R109). -/
def assemble (m : OpcodeMap) (t : Text) : Except AsmError (List Word) :=
  match pass1 1 0 [] (splitLines t) with
  | .error e => .error e
  | .ok (syms, sts) => pass2 m syms sts

/-- The n-th word at address n, the entry point at 0 (R108). -/
def imageOf (ws : List Word) : ProgramImage :=
  { writes := (List.range ws.length).zip ws, entry := 0 }

/-- compile-from-text (R100). -/
def compileText (m : OpcodeMap) (t : Text) : Except AsmError ProgramImage :=
  match assemble m t with
  | .error e => .error e
  | .ok ws => .ok (imageOf ws)

/-- compile-from-file: it reads the whole file, then compiles its text (R100). -/
def compileFile (m : OpcodeMap) (content : Text) : Except AsmError ProgramImage := compileText m content

/-! ### Serialised images (20_memory R54), outside the CORE -/

/-- IMAGE_BYTE_ORDER (00_scope R6, D22), an argument of the two operations on serialised images. -/
inductive ByteOrder
  | little | big
deriving DecidableEq, Repr

/-- The four bytes of a word, in file order. -/
def wordBytes (order : ByteOrder) (w : Word) : List (BitVec 8) :=
  match order with
  | .little => [bits w 0 8, bits w 8 8, bits w 16 8, bits w 24 8]
  | .big => [bits w 24 8, bits w 16 8, bits w 8 8, bits w 0 8]

/-- The word four bytes in file order stand for. -/
def bytesWord (order : ByteOrder) (b0 b1 b2 b3 : BitVec 8) : Word :=
  match order with
  | .little => b3 ++ b2 ++ b1 ++ b0
  | .big => b0 ++ b1 ++ b2 ++ b3

/-- A program's words as the bytes of a file: word after word, nothing else. DESIGN CHOICE: log 27. -/
def serialise (order : ByteOrder) (ws : List Word) : List (BitVec 8) := ws.flatMap (wordBytes order)

/-- The words of a serialised program, or none when the bytes are not whole words. -/
def deserialise (order : ByteOrder) : List (BitVec 8) → Option (List Word)
  | [] => some []
  | b0 :: b1 :: b2 :: b3 :: rest => (deserialise order rest).map (bytesWord order b0 b1 b2 b3 :: ·)
  | _ => none

/-! ### Canonical listing (R113) -/

/-- `MNEMONIC operand` with the operand in decimal. HLT, NOT and RAR print it only when it is not zero. -/
def listing (i : Instr) : Text :=
  if i.operand = 0 ∧ Mnemonic.needsOperand i.op = false then Mnemonic.text i.op
  else Mnemonic.text i.op ++ ' ' :: Nat.toDigits 10 i.operand.toNat

/-- The listing of a word: a word that fails decode has none. -/
def listWord (m : OpcodeMap) (w : Word) : Option Text :=
  match decodeWith m w with
  | .ok i => some (listing i)
  | .error _ => none

end Sys2Proof.Machine
end

