-- ==== Sys2Proof/Machine/HostPort.lean ====
section
/-!
DEFINITION. The host control port: every operation of 40_microcycle R137 but the interactive run (00_scope R4), with the
breakpoint query, free-run and its stop reasons (40_microcycle R131 to R142; 60_exceptions R237 to R252; 70_reset R260 to
R266). `hostCall` holds the operations on a machine that stays there, and `portCall` adds teardown (70_reset R263).
-/

namespace Sys2Proof.Machine

/-- Why free-run returned (R135). It is not CORE state. -/
inductive StopReason
  | faulted | halted | breakpoint | stopped
  /-- The model's own: the bound on instruction steps ran out and the machine is still running (log 18). -/
  | stillRunning
deriving DecidableEq, Repr

/-- What a host operation reports (R142). -/
inductive HostReply
  /-- Done. -/
  | ok
  /-- Refused, with no effect (60_exceptions R252). -/
  | refused
  /-- A duplicate registration (60_exceptions R251). -/
  | alreadyRegistered
  /-- The compilation failed and nothing was written (30_encoding R111). -/
  | compileFailed (e : AsmError)
  /-- The program has more than MEM_SIZE instructions: `OutOfBounds` for that address (30_encoding R108). -/
  | outOfBounds (a : Nat)
  /-- After stepping: the fault record (R142, 60_exceptions R235). -/
  | stepped (f : FaultCode) (info : Word)
  /-- After free-run: the stop reason, and the fault record. -/
  | returned (r : StopReason) (f : FaultCode) (info : Word)
  /-- The breakpoint query's answer (60_exceptions R246). -/
  | hit (b : Bool)
  /-- Inspection: every element (10_state R40). -/
  | snapshot (s : State)
deriving DecidableEq, Repr

/-- The operations the host has on a machine that stays there afterwards. Teardown is `PortCall.teardown`. Stop requests are given as the answers to `stop_requested()` at successive
instruction boundaries (60_exceptions R238; log 18). -/
inductive HostCall
  | initialise (memSize : Nat)
  | compileFromText (t : Text)
  | compileFromFile (content : Text)
  | loadImage (im : ProgramImage)
  | registerRead (a : Word)
  | registerWrite (a : Word)
  | setBreakpoints (as : List Word)
  | setRun (v : Bool)
  | microStep
  | instructionStep
  | stepMicro (k : Nat)
  | stepInstructions (k : Nat)
  | freeRun (fuel : Nat) (stops : List Bool)
  | run (fuel : Nat) (stops : List Bool)
  | queryBreakpoint
  | inspect
  /-- The model's own, and not an operation of R137: the outside world settles which device callback never returns, or that
  every one does (20_memory R64; log 28). -/
  | callbackStalls (n : Option Nat)
deriving DecidableEq, Repr

/-- No micro-step has advanced the machine since it was initialised. UC has its start value and CI is still NONE: a micro-step
from the start value moves UC, every instruction sets CI at DECODE, and only initialisation clears it (10_state R27, R30). -/
def State.fresh (s : State) : Bool := s.uc = .fetchAddr && s.ci.isNone && s.fault = .none

/-- "Before running", on "a freshly initialised machine, before the first micro-step" (60_exceptions R252; 10_state R34, R40).
DESIGN CHOICE, log 26: "running" is read as RUN true. -/
def State.beforeExecution (s : State) : Bool := s.fresh && !s.run

/-- A call the host makes only before execution. R252 assumes that it is made at no other time, so the model has no such move:
there it is refused and changes nothing. DESIGN CHOICE, log 26. -/
def beforeExecutionOnly (call : State → State × HostReply) (s : State) : State × HostReply :=
  if s.beforeExecution then call s else (s, .refused)

/-- `BP(IAR)` (60_exceptions R245). -/
def State.atBreakpoint (s : State) : Bool := s.cfg.breakpoints.contains s.iar

/-- `set_run(v)` is refused on a faulted machine and writes RUN otherwise (R141). -/
def setRun (v : Bool) (s : State) : State := if s.fault = .none then { s with run := v } else s

/-- Step N instruction steps (R134). -/
def stepInstructions (k : Nat) (s : State) : Host.Outcome State Fault Refusal := repeatStep step k s

/-- Free-run (R135), at most `fuel` instruction steps. `stops` are the stop requests seen at successive boundaries, no
request after they end. At one boundary the order is fault, halt, breakpoint, stop request (60_exceptions R237). -/
def freeRun (fuel : Nat) (stops : List Bool) (s : State) : Host.Outcome (State × StopReason) Fault Refusal :=
  if s.fault ≠ .none then .next (s, .faulted)
  else if !s.run then .next (s, .halted)
  else match fuel with
    | 0 => .next (s, .stillRunning)
    | fuel + 1 =>
      match step s with
      | .fault e => .fault e
      | .refused e => .refused e
      | .next t =>
        if t.fault ≠ .none then .next (t, .faulted)
        else if !t.run then .next (t, .halted)
        else if t.atBreakpoint then .next (t, .breakpoint)
        else if stops.headD false then .next (t, .stopped)
        else freeRun fuel stops.tail t

/-- Run: set_run(true), then free-run (R139). -/
def runFree (fuel : Nat) (stops : List Bool) (s : State) : Host.Outcome (State × StopReason) Fault Refusal :=
  freeRun fuel stops (setRun true s)

/-- R265: every address is below MEM_SIZE and the entry point is 0. -/
def ProgramImage.fits (im : ProgramImage) (s : State) : Bool :=
  im.writes.all (fun w => w.1 < s.cfg.memSize) && im.entry == 0

/-- The writes of an image, applied in order (R265). -/
def writeImage (im : ProgramImage) (s : State) : State :=
  { s with mem := im.writes.foldl (fun m w => Memory.write m w.1 w.2) s.mem }

/-- An image written, or refused as a whole when it does not fit (R265). -/
def placeImage (im : ProgramImage) (s : State) : State × HostReply :=
  if im.fits s then (writeImage im s, .ok) else (s, .refused)

/-- Load a raw image, before execution (R265, R266; 60_exceptions R252). -/
def loadImage (im : ProgramImage) (s : State) : State × HostReply := beforeExecutionOnly (placeImage im) s

/-- What a compilation gave, written from address 0 on: a failed compilation and a program of more than MEM_SIZE instructions
write nothing (R264; 30_encoding R108, R111). -/
def placeCompiled (r : Except AsmError ProgramImage) (s : State) : State × HostReply :=
  match r with
  | .error e => (s, .compileFailed e)
  | .ok im => if s.cfg.memSize < im.writes.length then (s, .outOfBounds s.cfg.memSize) else placeImage im s

/-- Load what a compilation gave, before execution (R264, R266; 60_exceptions R252). -/
def loadCompiled (r : Except AsmError ProgramImage) (s : State) : State × HostReply :=
  beforeExecutionOnly (placeCompiled r) s

/-- A read binding added, or a duplicate reported and the first binding kept (60_exceptions R251). -/
def bindRead (a : Word) (s : State) : State × HostReply :=
  if s.cfg.readDev.contains a then (s, .alreadyRegistered)
  else ({ s with cfg := { s.cfg with readDev := a :: s.cfg.readDev } }, .ok)

/-- A write binding added, independently of the read table (60_exceptions R251). -/
def bindWrite (a : Word) (s : State) : State × HostReply :=
  if s.cfg.writeDev.contains a then (s, .alreadyRegistered)
  else ({ s with cfg := { s.cfg with writeDev := a :: s.cfg.writeDev } }, .ok)

/-- Bind a read callback, before running (60_exceptions R251, R252). -/
def registerRead (a : Word) (s : State) : State × HostReply := beforeExecutionOnly (bindRead a) s

/-- Bind a write callback, before running (60_exceptions R251, R252). -/
def registerWrite (a : Word) (s : State) : State × HostReply := beforeExecutionOnly (bindWrite a) s

/-- The report of a stepping operation. -/
def reportStep (o : Host.Outcome State Fault Refusal) : Host.Outcome (State × HostReply) Fault Refusal :=
  match o with
  | .next s => .next (s, .stepped s.fault s.faultInfo)
  | .fault e => .fault e
  | .refused e => .refused e

/-- The report of free-run. -/
def reportRun (o : Host.Outcome (State × StopReason) Fault Refusal) : Host.Outcome (State × HostReply) Fault Refusal :=
  match o with
  | .next (s, r) => .next (s, .returned r s.fault s.faultInfo)
  | .fault e => .fault e
  | .refused e => .refused e

/-- One call at the host control port (R137). Calls are synchronous and do not overlap (R138). Initialisation with a MEM_SIZE
outside 1 .. 2^32 is refused and changes nothing. DESIGN CHOICE, safe, log 19: 00_scope R6 bounds the parameter, and no rule
says what a call outside the bounds does. -/
def hostCall (c : HostCall) (s : State) : Host.Outcome (State × HostReply) Fault Refusal :=
  match c with
  | .initialise n => if 1 ≤ n ∧ n ≤ 2 ^ 32 then .next (initialise n s, .ok) else .next (s, .refused)
  | .compileFromText t => .next (loadCompiled (compileText s.cfg.opcodeMap t) s)
  | .compileFromFile t => .next (loadCompiled (compileFile s.cfg.opcodeMap t) s)
  | .loadImage im => .next (loadImage im s)
  | .registerRead a => .next (registerRead a s)
  | .registerWrite a => .next (registerWrite a s)
  | .setBreakpoints as => .next ({ s with cfg := { s.cfg with breakpoints := as } }, .ok)
  | .setRun v => .next (setRun v s, if s.fault = .none then .ok else .refused)
  | .microStep => reportStep (microStep s)
  | .instructionStep => reportStep (step s)
  | .stepMicro k => reportStep (stepMicro k s)
  | .stepInstructions k => reportStep (stepInstructions k s)
  | .freeRun fuel stops => reportRun (freeRun fuel stops s)
  | .run fuel stops => reportRun (runFree fuel stops s)
  | .queryBreakpoint => .next (s, .hit s.atBreakpoint)
  | .inspect => .next (s, .snapshot s)
  | .callbackStalls n => .next ({ s with stallsAt := n }, .ok)

/-! ### The machine's lifecycle -/

/-- The machine as its host holds it. "After teardown the machine has no state" (70_reset R263). -/
inductive Hosted
  /-- Initialised and not torn down. -/
  | live (s : State)
  /-- Torn down: registers, memory and configuration are gone. -/
  | released
deriving DecidableEq, Repr

/-- The lifecycle operations of R137. -/
inductive PortCall
  | call (c : HostCall)
  /-- "destroyed via `delete` which releases the memory array" (70_reset R263). -/
  | teardown
deriving DecidableEq, Repr

/-- The answer of a call that leaves the machine live. -/
def keepLive (o : Host.Outcome (State × HostReply) Fault Refusal) : Host.Outcome (Hosted × HostReply) Fault Refusal :=
  match o with
  | .next (t, r) => .next (.live t, r)
  | .fault e => .fault e
  | .refused e => .refused e

/-- One lifecycle operation (R137). Teardown releases a live machine, in any state (60_exceptions R252). On a released machine
every operation is refused and has no effect: no operation on it is defined (70_reset R263; `refuse` in
93_implementation_defined). That initialise is one of them is a DESIGN CHOICE, log 30. -/
def portCall (c : PortCall) (m : Hosted) : Host.Outcome (Hosted × HostReply) Fault Refusal :=
  match m with
  | .released => .next (.released, .refused)
  | .live s =>
    match c with
    | .call c => keepLive (hostCall c s)
    | .teardown => .next (.released, .ok)

end Sys2Proof.Machine
end

