-- ==== Sys2Proof/Safety.lean ====
section
/-!
DEFINITION. What counts as a legal configuration and a legal state, and the relations between states that claims use.
-/

namespace Sys2Proof.Machine

/-- A configuration the spec admits: MEM_SIZE in 1 .. 2^32 (00_scope R6), an opcode map with R92's three properties,
MEM_INIT in canonical form, and device tables with at most one binding an address (60_exceptions R251). -/
structure ConfigOk (c : Config) : Prop where
  size_pos : 1 ≤ c.memSize
  size_le : c.memSize ≤ 2 ^ 32
  map_valid : c.opcodeMap.valid = true
  init_wf : Memory.wf c.memInit
  read_nodup : c.readDev.Nodup
  write_nodup : c.writeDev.Nodup

/-- OPERAND and EXECUTE are the positions after a successful DECODE (10_state R30). -/
def MicroPos.afterDecode (u : MicroPos) : Bool := u = .operand || u = .execute

/-- The legal states: what holds of every state that initialisation, host calls and micro-steps reach.
`active`: past DECODE, CI is what decode gives for IR, and TRA and ALUOP agree with it (10_state R27, R29, R31).
`staged`: in FETCH_DATA, SAR holds the fetch address (40_microcycle R121, R123).
`addressed`: in EXECUTE, SAR still holds the operand that OPERAND put there (40_microcycle R125; LDIV's second address apart).
`latched`: in DECODE, IR and SIR hold the fetched word (40_microcycle R122).
`halted`: a fault clears RUN (60_exceptions R233).
`illegal` and `bounds`: where a fault can have been raised and what it recorded (60_exceptions R231, R232, R234). -/
structure LegalState (s : State) : Prop where
  cfg_ok : ConfigOk s.cfg
  mem_wf : Memory.wf s.mem
  mem_within : Memory.within s.mem s.cfg.memSize
  ci_wf : ∀ i, s.ci = some i → i.wf = true
  active : s.uc.afterDecode = true →
    ∃ i, s.ci = some i ∧ decodeWith s.cfg.opcodeMap s.ir = .ok i ∧ s.tra = traOf i ∧ s.aluop = aluSelOf i
  addressed : s.uc = .execute → ∀ i, s.ci = some i →
    i.op ∈ [.stv, .jmp, .jmn, .add, .and, .or, .xor, .eql, .ldv] → s.sar = i.operand
  staged : s.uc = .fetchData → s.sar = s.iar
  latched : s.uc = .decode → s.sir = s.ir
  halted : s.fault ≠ .none → s.run = false
  illegal : s.fault = .illegalInstruction →
    s.uc = .decode ∧ s.faultInfo = s.ir ∧ decodeWith s.cfg.opcodeMap s.ir = .error (.invalidOpcode s.ir)
  bounds : s.fault = .outOfBounds →
    (s.uc = .fetchData ∨ s.uc = .operand ∨ s.uc = .execute) ∧ s.faultInfo = s.sar ∧ s.legal s.sar = false

/-- A machine about to run a whole instruction: RUN true, no fault, at an instruction boundary. -/
structure Ready (s : State) : Prop where
  running : s.run = true
  noFault : s.fault = .none
  boundary : s.uc = .fetchAddr

/-- The outcome is a next state: the model neither faults nor refuses. -/
def Proceeds (o : Host.Outcome State Fault Refusal) : Prop := ∃ t, o = .next t

/-- Every element at its reset value but memory (10_state R43): the source's IAR, IR, RUN and ONE, and the spec's decisions D11
and D14 for the rest (log 6). -/
structure ResetRegisters (t : State) : Prop where
  source : t.iar = 0 ∧ t.ir = 0 ∧ t.run = false ∧ t.one = 1
  control : t.tra = false ∧ t.uc = .fetchAddr ∧ t.ci = none ∧ t.aluop = .none
  data : t.acc = 0 ∧ t.x = 0 ∧ t.y = 0 ∧ t.z = 0 ∧ t.sar = 0 ∧ t.sir = 0
  faultRecord : t.fault = .none ∧ t.faultInfo = 0

/-- Two states a program cannot tell apart: equal in all but X, Y, Z, TRA (10_state R41). -/
def SameButScratch (s t : State) : Prop :=
  t = { s with x := t.x, y := t.y, z := t.z, tra := t.tra }

/-- Two states equal in ACC, IAR, RUN, memory, the fault record, the micro-cycle position, the configuration and the device
port, whatever X, Y, Z, SAR, SIR, IR, CI, TRA and ALUOP hold (70_reset R267). -/
structure SameProgramView (s t : State) : Prop where
  acc : s.acc = t.acc
  iar : s.iar = t.iar
  run : s.run = t.run
  mem : s.mem = t.mem
  fault : s.fault = t.fault
  faultInfo : s.faultInfo = t.faultInfo
  uc : s.uc = t.uc
  cfg : s.cfg = t.cfg
  draws : s.draws = t.draws
  devLog : s.devLog = t.devLog
  stallsAt : s.stallsAt = t.stallsAt

/-- A word table row: under the default map every word `w` with `w & mask = pattern` decodes to the row's instruction, the
operand being the bits outside the mask, and no other word decodes to it (30_encoding R91). -/
def DecodesRow (pattern mask : Word) (mk : Word → Instr) : Prop :=
  (∀ w : Word, w &&& mask = pattern → decode w = .ok (mk (w &&& ~~~mask))) ∧
  (∀ w a : Word, decode w = .ok (mk a) → w &&& mask = pattern)

/-- What a data read of the legal address `a` answers, and the device port after it: the device's word when the address is in
READ_DEV, else the memory's (20_memory R56, R62). -/
def dataRead (s : State) (a : Word) : Word × Nat × List DevEvent :=
  if a ∈ s.cfg.readDev then
    (Config.freeWord s.draws, s.draws + 1, s.devLog ++ [.read a (Config.freeWord s.draws)])
  else (Memory.read s.mem a.toNat, s.draws, s.devLog)

/-- A data read of `a` answers: no callback is bound there, or its callback returns (20_memory R64; log 28). -/
abbrev ReadAnswers (s : State) (a : Word) : Prop := a ∈ s.cfg.readDev → s.stallsAt ≠ some s.draws

/-- Every callback still to come returns: the host's duty (60_exceptions R252; log 28). -/
def CallbacksReturn (s : State) : Prop := ∀ n, s.draws ≤ n → s.stallsAt ≠ some n

/-- The state after a data read of the legal address `a`: SAR, SIR and the device port (20_memory R56). -/
def afterDataRead (s : State) (a : Word) : State :=
  { s with sar := a, sir := (dataRead s a).1, draws := (dataRead s a).2.1, devLog := (dataRead s a).2.2 }

/-- The state after an access of the illegal address in SAR: the fault recorded, RUN clear (60_exceptions R232, R233). -/
def afterBoundsFault (s : State) : State :=
  { s with fault := .outOfBounds, faultInfo := s.sar, run := false }

end Sys2Proof.Machine
end

