-- ==== Sys2Proof/Certificates/Slice0/Obligations.lean ====
section
/-!
DEFINITION. The statements for the provers. Each docstring says which rule of spec/ it formalises. A statement that rests on a
decision the spec marks as its own (D<n> of 92_eei_decisions) says so.
-/

section
open Sys2Proof Sys2Proof.Machine

/-! ### Encoding (30_encoding) -/

/-- Sample words, one or more of each family, written out from the encodings of 30_encoding under the default map
(95_test_vectors E1 to E5, E11, L6, C2). A sanity statement. -/
def Obligations.SpecWordsDecode : Prop :=
  decode 0x00000005 = .ok (.ldc 5) ∧ decode 0x300FFFFF = .ok (.add 0xFFFFF) ∧ decode 0xA0000096 = .ok (.ldiv 150) ∧
  decode 0x20000064 = .ok (.stv 100) ∧ decode 0x90000005 = .ok (.jmn 5) ∧ decode 0xF3001234 = .ok (.rrn 0x1234) ∧
  decode 0xF000FFFF = .ok (.hlt 0xFFFF) ∧ encode (.hlt 0xFFFF) = .ok 0xF000FFFF ∧ encode (.jmp 0xFFFFF) = .ok 0x800FFFFF

/-- The two round-trip laws, for every valid opcode map, and which words decode. The laws are the source's; the last clause
is the spec's inference (30_encoding section 4, D3, D4, D33). -/
def Obligations.DecodeEncodeRoundTrip : Prop :=
  ∀ m : OpcodeMap, m.valid = true →
    (∀ i : Instr, i.wf = true → ∃ w, encodeWith m i = .ok w ∧ decodeWith m w = .ok i) ∧
    (∀ (w : Word) (i : Instr), decodeWith m w = .ok i → encodeWith m i = .ok w) ∧
    (∀ w : Word, (∃ i, decodeWith m w = .ok i) ↔
      if w.extractLsb' 28 4 = 0xF then
        w.extractLsb' 16 8 = 0 ∧ ∃ op ∈ extOpcodes, m.code op = w.extractLsb' 24 4
      else w.extractLsb' 20 8 = 0 ∧ ∃ op ∈ basicOpcodes, m.code op = w.extractLsb' 28 4)

/-- R93: exactly which words fail to decode under the default map, with the whole word as the error's payload, and what the
DECODE micro-step makes of it. -/
def Obligations.IllegalEncodings : Prop :=
  (∀ w : Word, decode w = .error (.invalidOpcode w) ↔
    (w.extractLsb' 28 4 = 0xB ∨ w.extractLsb' 28 4 = 0xC ∨ w.extractLsb' 28 4 = 0xD ∨ w.extractLsb' 28 4 = 0xE) ∨
    (w.extractLsb' 28 4 = 0xF ∧ 4 ≤ (w.extractLsb' 24 4).toNat) ∨
    (if w.extractLsb' 28 4 = 0xF then w.extractLsb' 16 8 ≠ 0 else w.extractLsb' 20 8 ≠ 0)) ∧
  (∀ (m : OpcodeMap) (w : Word) (e : DecodeError), decodeWith m w = .error e → e = .invalidOpcode w) ∧
  (∀ s : State, s.run = true → s.fault = .none → s.uc = .decode → (∃ e, decodeWith s.cfg.opcodeMap s.ir = .error e) →
    microStep s = .next { s with fault := .illegalInstruction, faultInfo := s.ir, run := false })

/-- Operand assembly: the decoded operand is its field zero-extended, so it fits the field (30_encoding section 2; the choice of
zero-extension is the spec's D4). -/
def Obligations.OperandsZeroExtend : Prop :=
  ∀ (m : OpcodeMap) (w : Word) (i : Instr), decodeWith m w = .ok i →
    (i.ext = true ↔ w.extractLsb' 28 4 = 0xF) ∧
    i.operand.toNat = (if i.ext then w.toNat % 2 ^ 16 else w.toNat % 2 ^ 20) ∧ i.wf = true

/-- The valid instructions are those decode can produce, and encode refuses a record whose family bit disagrees with its
opcode (30_encoding section 4; the domain of encode is the spec's D33). -/
def Obligations.ValidInstructionsAreDecodable : Prop :=
  ∀ m : OpcodeMap, m.valid = true →
    (∀ i : Instr, i.wf = true ↔ ∃ w, decodeWith m w = .ok i) ∧
    (∀ r : InstrRecord, (∃ w, encodeRecord m r = .ok w) ↔ r.valid = true) ∧
    (∀ r : InstrRecord, r.ext ≠ r.op.ext → encodeRecord m r = .error .familyMismatch)

/-- R96: encode fails with OperandOverflow exactly when the operand does not fit, and otherwise lays out the fields of its
format, the reserved bits zero. -/
def Obligations.EncodeFormats : Prop :=
  ∀ (m : OpcodeMap) (i : Instr),
    (i.ext = false → 2 ^ 20 ≤ i.operand.toNat → encodeWith m i = .error .operandOverflow) ∧
    (i.ext = true → 2 ^ 16 ≤ i.operand.toNat → encodeWith m i = .error .operandOverflow) ∧
    (i.ext = false → i.operand.toNat < 2 ^ 20 → ∃ w : Word, encodeWith m i = .ok w ∧
      w.extractLsb' 28 4 = m.code i.op ∧ w.extractLsb' 20 8 = 0 ∧ w.extractLsb' 0 20 = i.operand.extractLsb' 0 20) ∧
    (i.ext = true → i.operand.toNat < 2 ^ 16 → ∃ w : Word, encodeWith m i = .ok w ∧
      w.extractLsb' 28 4 = 0xF ∧ w.extractLsb' 24 4 = m.code i.op ∧ w.extractLsb' 16 8 = 0 ∧
      w.extractLsb' 0 16 = i.operand.extractLsb' 0 16)

/-! ### The micro-cycle (40_microcycle) -/

/-- A machine that is halted or faulted is idle: a micro-step and an instruction step change nothing (40_microcycle section 1,
the spec's D15; section 2, D20). -/
def Obligations.IdleMachineStays : Prop :=
  ∀ s : State, s.fault ≠ .none ∨ s.run = false → microStep s = .next s ∧ step s = .next s

/-- R121: FETCH_ADDR. -/
def Obligations.FetchAddressMicroStep : Prop :=
  ∀ s : State, s.run = true → s.fault = .none → s.uc = .fetchAddr →
    microStep s = .next { s with sar := s.iar, uc := .fetchData }

/-- FETCH_DATA: plain memory, a device that answers, one that never returns, and out of range. The increment wraps modulo 2^32
and leaves X, Y, Z alone (40_microcycle section 1, 20_memory section 3; the spec's D9, D17, D21). Which callback never returns
is an input of the model (log 28). -/
def Obligations.FetchDataMicroStep : Prop :=
  ∀ s : State, s.run = true → s.fault = .none → s.uc = .fetchData →
    (s.sar.toNat < s.cfg.memSize → ¬(s.sar ∈ s.cfg.readDev ∧ s.cfg.ioReadOnFetch = true) →
      microStep s = .next { s with
        sir := Memory.read s.mem s.sar.toNat, ir := Memory.read s.mem s.sar.toNat, iar := s.iar + 1, uc := .decode }) ∧
    (s.sar.toNat < s.cfg.memSize → s.sar ∈ s.cfg.readDev ∧ s.cfg.ioReadOnFetch = true → s.stallsAt ≠ some s.draws →
      microStep s = .next { s with
        sir := Config.freeWord s.draws, ir := Config.freeWord s.draws, iar := s.iar + 1, uc := .decode,
        draws := s.draws + 1, devLog := s.devLog ++ [.read s.sar (Config.freeWord s.draws)] }) ∧
    (s.sar.toNat < s.cfg.memSize → s.sar ∈ s.cfg.readDev ∧ s.cfg.ioReadOnFetch = true → s.stallsAt = some s.draws →
      microStep s = .fault .callbackNeverReturns) ∧
    (s.cfg.memSize ≤ s.sar.toNat → microStep s = .next (afterBoundsFault s))

/-- DECODE: the latch on success, the fault on failure (40_microcycle section 1; the spec's D8, D10). -/
def Obligations.DecodeMicroStep : Prop :=
  ∀ s : State, s.run = true → s.fault = .none → s.uc = .decode →
    (∀ i, decodeWith s.cfg.opcodeMap s.ir = .ok i →
      microStep s = .next { s with
        ci := some i
        tra := decide (i.op = .ldiv ∨ i.ext = true)
        aluop := match i.op with
          | .add => .add
          | .and => .and
          | .or => .or
          | .xor => .xor
          | .eql => .eql
          | .not => .not
          | .rar => .rar
          | .rrn => .rrn
          | .ldc | .ldv | .stv | .jmp | .jmn | .ldiv | .hlt => .none
        uc := .operand }) ∧
    (∀ e, decodeWith s.cfg.opcodeMap s.ir = .error e →
      microStep s = .next { s with fault := .illegalInstruction, faultInfo := s.ir, run := false })

/-- OPERAND, for every instruction: nothing, a staged address, a direct read, or LDIV's two reads; a read whose callback never
returns hangs the machine there (40_microcycle sections 1 and 2 and its dispatch table, 20_memory section 3; the spec's D6;
log 28). -/
def Obligations.OperandMicroStep : Prop :=
  ∀ s : State, s.run = true → s.fault = .none → s.uc = .operand → ∀ i, s.ci = some i →
    (i.op ∈ [.ldc, .hlt, .not, .rar, .rrn] → microStep s = .next { s with uc := .execute }) ∧
    (i.op ∈ [.stv, .jmp, .jmn] → microStep s = .next { s with sar := i.operand, uc := .execute }) ∧
    (i.op ∈ [.add, .and, .or, .xor, .eql, .ldv] →
      microStep s =
        if i.operand.toNat < s.cfg.memSize then
          if ReadAnswers s i.operand then .next { afterDataRead s i.operand with uc := .execute }
          else .fault .callbackNeverReturns
        else .next (afterBoundsFault { s with sar := i.operand })) ∧
    (i.op = .ldiv →
      microStep s =
        if i.operand.toNat < s.cfg.memSize then
          if ReadAnswers s i.operand then
            if (dataRead s i.operand).1.toNat < s.cfg.memSize then
              if ReadAnswers (afterDataRead s i.operand) (dataRead s i.operand).1 then
                .next { afterDataRead (afterDataRead s i.operand) (dataRead s i.operand).1 with uc := .execute }
              else .fault .callbackNeverReturns
            else .next (afterBoundsFault { afterDataRead s i.operand with sar := (dataRead s i.operand).1 })
          else .fault .callbackNeverReturns
        else .next (afterBoundsFault { s with sar := i.operand }))

/-- EXECUTE, for every instruction: the transfers of the dispatch table, then the wrap; STV's bounds fault keeps UC, and a write
callback that never returns hangs the machine there (40_microcycle section 1 and its dispatch table, 20_memory section 3; the
spec's D6, D9; log 28). -/
def Obligations.ExecuteMicroStep : Prop :=
  ∀ s : State, s.run = true → s.fault = .none → s.uc = .execute → ∀ i, s.ci = some i →
    (i.op = .ldc → microStep s = .next { s with acc := i.operand, uc := .fetchAddr }) ∧
    (i.op = .ldv ∨ i.op = .ldiv → microStep s = .next { s with acc := s.sir, uc := .fetchAddr }) ∧
    (i.op ∈ [.add, .and, .or, .xor, .eql] →
      ∀ v, (s.aluop = .add ∧ v = s.acc + s.sir) ∨ (s.aluop = .and ∧ v = s.acc &&& s.sir) ∨
          (s.aluop = .or ∧ v = s.acc ||| s.sir) ∨ (s.aluop = .xor ∧ v = s.acc ^^^ s.sir) ∨
          (s.aluop = .eql ∧ v = if s.acc = s.sir then 0xFFFFFFFF else 0) →
        microStep s = .next { s with x := s.acc, y := s.sir, z := v, acc := v, uc := .fetchAddr }) ∧
    (i.op = .stv → s.sar.toNat < s.cfg.memSize → s.sar ∉ s.cfg.writeDev → microStep s = .next { s with
      sir := s.acc, mem := Memory.write s.mem s.sar.toNat s.acc, uc := .fetchAddr }) ∧
    (i.op = .stv → s.sar.toNat < s.cfg.memSize → s.sar ∈ s.cfg.writeDev → s.stallsAt ≠ some s.draws →
      microStep s = .next { s with
        sir := Config.freeWord s.draws, draws := s.draws + 1, devLog := s.devLog ++ [.write s.sar s.acc],
        uc := .fetchAddr }) ∧
    (i.op = .stv → s.sar.toNat < s.cfg.memSize → s.sar ∈ s.cfg.writeDev → s.stallsAt = some s.draws →
      microStep s = .fault .callbackNeverReturns) ∧
    (i.op = .stv → s.cfg.memSize ≤ s.sar.toNat → microStep s = .next (afterBoundsFault { s with sir := s.acc })) ∧
    (i.op = .jmp → microStep s = .next { s with iar := i.operand, uc := .fetchAddr }) ∧
    (i.op = .jmn → microStep s = .next { s with
      iar := if s.acc.getLsbD 31 then i.operand else s.iar, uc := .fetchAddr }) ∧
    (i.op = .hlt → microStep s = .next { s with run := false, uc := .fetchAddr }) ∧
    (i.op = .not → microStep s = .next { s with acc := ~~~s.acc, uc := .fetchAddr }) ∧
    (i.op = .rar → microStep s = .next { s with acc := s.acc.rotateRight 1, uc := .fetchAddr }) ∧
    (i.op = .rrn → microStep s = .next { s with acc := s.acc.rotateRight (i.operand.toNat % 32), uc := .fetchAddr })

/-- UC: a micro-step that raises nothing advances UC by one position, EXECUTE wrapping to 0; one that raises leaves UC where it
was. The positions' values and the start value (10_state section 3; the spec's D6, D7, D11). -/
def Obligations.MicroPositionAdvances : Prop :=
  (MicroPos.fetchAddr.code = 0 ∧ MicroPos.fetchData.code = 1 ∧ MicroPos.decode.code = 2 ∧ MicroPos.operand.code = 3 ∧
    MicroPos.execute.code = 4) ∧
  State.reset.uc = .fetchAddr ∧
  ∀ s t : State, s.run = true → s.fault = .none → microStep s = .next t →
    (t.fault = .none → t.uc.code = (s.uc.code + 1) % 5) ∧ (t.fault ≠ .none → t.uc = s.uc)

/-- An instruction started at an instruction boundary that raises no fault takes exactly five micro-steps: UC is back at its
start value after the fifth and at no earlier one (40_microcycle section 1, the spec's inference and D6), when the callbacks it
calls return (60_exceptions section 5). -/
def Obligations.FiveMicroStepsAnInstruction : Prop :=
  ∀ s : State, Ready s → CallbacksReturn s →
    (∃ t, stepMicro 5 s = .next t ∧ (t.fault = .none → t.uc = .fetchAddr)) ∧
    ∀ k, 0 < k → k < 5 → ∃ t, stepMicro k s = .next t ∧ t.uc ≠ .fetchAddr

/-- From DECODE until EXECUTE ends, and in every fault recorded there, `(IAR - 1) mod 2^32` is the address the instruction was
fetched from (40_microcycle section 1, the spec's inference). -/
def Obligations.InstructionAddressIsKept : Prop :=
  ∀ s : State, Ready s → ∀ (k : Nat) (t : State), k ≤ 5 → stepMicro k s = .next t →
    (t.uc = .decode ∨ t.uc = .operand ∨ t.uc = .execute) → t.instructionAddress = s.iar

/-- R131: the instruction step, defined through exec, is observationally identical to repeated single-stepping: it equals R132's
loop of micro-steps in every state, it is some number of micro-steps, at most five, and it ends where that loop's exit test
holds; and step N and free-run end where some number of micro-steps ends. -/
def Obligations.StepIsRepeatedMicroSteps : Prop :=
  (∀ s : State, step s = instructionStep s) ∧
  (∀ s : State, ∃ k, k ≤ 5 ∧ step s = stepMicro k s) ∧
  (∀ s t : State, step s = .next t → t.uc = .fetchAddr ∨ t.fault ≠ .none ∨ t.run = false) ∧
  (∀ (s : State) (k : Nat), s.idle = false → 5 ≤ k → untilWrap k s = untilWrap 5 s) ∧
  (∀ (n : Nat) (s : State), ∃ k, stepInstructions n s = stepMicro k s) ∧
  (∀ (fuel : Nat) (stops : List Bool) (s t : State) (r : StopReason), freeRun fuel stops s = .next (t, r) →
    ∃ k, stepMicro k s = .next t)

/-- A step runs the decoded instruction: at an instruction boundary step is exec of what the word at IAR decodes to, after the
fetch's own writes, whether memory or a device supplied the word; a word that does not decode, and a fetch out of range, are the
faults; a fetch whose callback never returns hangs (40_microcycle section 1, 20_memory section 3; log 28). -/
def Obligations.StepRunsDecodedInstruction : Prop :=
  ∀ s : State, Ready s →
    (∀ i, s.iar.toNat < s.cfg.memSize → s.readsDevice true s.iar = false →
      decodeWith s.cfg.opcodeMap (Memory.read s.mem s.iar.toNat) = .ok i →
      step s = exec i { s with
        sar := s.iar, sir := Memory.read s.mem s.iar.toNat, ir := Memory.read s.mem s.iar.toNat, iar := s.iar + 1,
        uc := .decode }) ∧
    (∀ i, s.iar.toNat < s.cfg.memSize → s.readsDevice true s.iar = true → s.stallsAt ≠ some s.draws →
      decodeWith s.cfg.opcodeMap (Config.freeWord s.draws) = .ok i →
      step s = exec i { s with
        sar := s.iar, sir := Config.freeWord s.draws, ir := Config.freeWord s.draws, iar := s.iar + 1, uc := .decode,
        draws := s.draws + 1, devLog := s.devLog ++ [.read s.iar (Config.freeWord s.draws)] }) ∧
    (∀ e, s.iar.toNat < s.cfg.memSize → s.readsDevice true s.iar = false →
      decodeWith s.cfg.opcodeMap (Memory.read s.mem s.iar.toNat) = .error e →
      step s = .next { s with
        sar := s.iar, sir := Memory.read s.mem s.iar.toNat, ir := Memory.read s.mem s.iar.toNat, iar := s.iar + 1,
        uc := .decode, fault := .illegalInstruction, faultInfo := Memory.read s.mem s.iar.toNat, run := false }) ∧
    (∀ e, s.iar.toNat < s.cfg.memSize → s.readsDevice true s.iar = true → s.stallsAt ≠ some s.draws →
      decodeWith s.cfg.opcodeMap (Config.freeWord s.draws) = .error e →
      step s = .next { s with
        sar := s.iar, sir := Config.freeWord s.draws, ir := Config.freeWord s.draws, iar := s.iar + 1, uc := .decode,
        draws := s.draws + 1, devLog := s.devLog ++ [.read s.iar (Config.freeWord s.draws)],
        fault := .illegalInstruction, faultInfo := Config.freeWord s.draws, run := false }) ∧
    (s.iar.toNat < s.cfg.memSize → s.readsDevice true s.iar = true → s.stallsAt = some s.draws →
      step s = .fault .callbackNeverReturns) ∧
    (s.cfg.memSize ≤ s.iar.toNat →
      step s = .next { s with
        sar := s.iar, uc := .fetchData, fault := .outOfBounds, faultInfo := s.iar, run := false })

/-- R133: stepping N micro-steps one call at a time, in any division, gives the same end as one call; idle micro-steps count. -/
def Obligations.StepNMicroStepsSplits : Prop :=
  ∀ (j k : Nat) (s : State),
    (∀ t, stepMicro j s = .next t → stepMicro (j + k) s = stepMicro k t) ∧
    stepMicro 1 s = microStep s ∧
    (s.run = false ∨ s.fault ≠ .none → stepMicro k s = .next s)

/-- Free-run: it is `k` instruction steps, none on an idle machine and at least one on a running one when the bound allows it; at
every boundary before the last the machine runs without a fault, IAR is at no breakpoint and the stop request is answered false; and the last boundary
has the first of fault, halt, breakpoint, stop request that holds, as its reason says (40_microcycle section 2, 60_exceptions
sections 1 and 4; the spec's D19, D20). That the n-th answer of the stop request is the n-th of a list, and the reason
stillRunning, where the bound on steps ran out and none of the four holds, are the model's own (log 18). -/
def Obligations.FreeRunStops : Prop :=
  ∀ (fuel : Nat) (stops : List Bool) (s t : State) (r : StopReason), freeRun fuel stops s = .next (t, r) →
    ∃ k, k ≤ fuel ∧ stepInstructions k s = .next t ∧
      (s.run = false ∨ s.fault ≠ .none → k = 0) ∧ (s.run = true → s.fault = .none → 0 < fuel → 0 < k) ∧
      (∀ j u, 0 < j → j < k → stepInstructions j s = .next u →
        u.fault = .none ∧ u.run = true ∧ u.iar ∉ u.cfg.breakpoints ∧ stops.getD (j - 1) false = false) ∧
      (r = .faulted ↔ t.fault ≠ .none) ∧
      (r = .halted ↔ t.fault = .none ∧ t.run = false) ∧
      (r = .breakpoint ↔ t.fault = .none ∧ t.run = true ∧ 0 < k ∧ t.iar ∈ t.cfg.breakpoints) ∧
      (r = .stopped ↔ t.fault = .none ∧ t.run = true ∧ 0 < k ∧ t.iar ∉ t.cfg.breakpoints ∧
        stops.getD (k - 1) false = true) ∧
      (r = .stillRunning → t.fault = .none ∧ t.run = true ∧ k = fuel ∧
        (0 < k → t.iar ∉ t.cfg.breakpoints ∧ stops.getD (k - 1) false = false))

/-! ### Instructions: arithmetic and logic (41_arith_logic) -/

/-- The shape of R152 to R156: a row of the opcode table, and for every operand address and state: the legal read (of memory or of a
device that answers) completes with X, Y, Z and ACC written, one whose callback never returns hangs (20_memory R64; log 28),
and the illegal one records OutOfBounds at OPERAND with ACC, X, Y, Z unchanged. Everything not named keeps its value. -/
def AluInstruction (pattern : Word) (mk : Word → Instr) (sel : AluSel) (f : Word → Word → Word) : Prop :=
  DecodesRow pattern 0xFFF00000 mk ∧
  ∀ (a : Word) (s : State),
    (a.toNat < s.cfg.memSize → ReadAnswers s a →
      exec (mk a) s = .next { afterDataRead s a with
        ci := some (mk a), tra := false, aluop := sel, uc := .fetchAddr, x := s.acc, y := (dataRead s a).1,
        z := f s.acc (dataRead s a).1, acc := f s.acc (dataRead s a).1 }) ∧
    (a.toNat < s.cfg.memSize → ¬ReadAnswers s a → exec (mk a) s = .fault .callbackNeverReturns) ∧
    (s.cfg.memSize ≤ a.toNat →
      exec (mk a) s = .next (afterBoundsFault { s with
        ci := some (mk a), tra := false, aluop := sel, uc := .operand, sar := a }))

/-- R152: ADD. -/
def Obligations.AddAddsModulo : Prop := AluInstruction 0x30000000 Instr.add .add (fun x y => x + y)

/-- R153: AND. -/
def Obligations.AndIsBitwise : Prop := AluInstruction 0x40000000 Instr.and .and (fun x y => x &&& y)

/-- R154: OR. -/
def Obligations.OrIsBitwise : Prop := AluInstruction 0x50000000 Instr.or .or (fun x y => x ||| y)

/-- R155: XOR. -/
def Obligations.XorIsBitwise : Prop := AluInstruction 0x60000000 Instr.xor .xor (fun x y => x ^^^ y)

/-- R156: EQL, all-ones if equal else all-zero; followed by JMN it branches exactly when the two words were equal. -/
def Obligations.EqlComparesWords : Prop :=
  AluInstruction 0x70000000 Instr.eql .eql (fun x y => if x = y then 0xFFFFFFFF else 0) ∧
  ∀ (a j : Word) (s t u : State), a.toNat < s.cfg.memSize → exec (.eql a) s = .next t → exec (.jmn j) t = .next u →
    u.iar = if s.acc = (dataRead s a).1 then j else s.iar

/-! ### Instructions: load and store (42_load_store) -/

/-- LDC: the constant, zero-extended, into ACC; X, Y, Z, SAR, SIR unchanged (42_load_store section 2; zero-extension is the spec's
D4). -/
def Obligations.LdcLoadsConstant : Prop :=
  DecodesRow 0x00000000 0xFFF00000 Instr.ldc ∧
  ∀ (c : Word) (s : State),
    exec (.ldc c) s = .next { s with ci := some (.ldc c), tra := false, aluop := .none, uc := .fetchAddr, acc := c }

/-- R174: LDV. A read callback that never returns hangs it (20_memory R64; log 28). -/
def Obligations.LdvLoadsMemory : Prop :=
  DecodesRow 0x10000000 0xFFF00000 Instr.ldv ∧
  ∀ (a : Word) (s : State),
    (a.toNat < s.cfg.memSize → ReadAnswers s a →
      exec (.ldv a) s = .next { afterDataRead s a with
        ci := some (.ldv a), tra := false, aluop := .none, uc := .fetchAddr, acc := (dataRead s a).1 }) ∧
    (a.toNat < s.cfg.memSize → ¬ReadAnswers s a → exec (.ldv a) s = .fault .callbackNeverReturns) ∧
    (s.cfg.memSize ≤ a.toNat →
      exec (.ldv a) s = .next (afterBoundsFault { s with
        ci := some (.ldv a), tra := false, aluop := .none, uc := .operand, sar := a }))

/-- R176: LDIV, with its two reads and both out-of-bounds faults. A read callback that never returns hangs it at either read
(20_memory R64; log 28). -/
def Obligations.LdivLoadsIndirect : Prop :=
  DecodesRow 0xA0000000 0xFFF00000 Instr.ldiv ∧
  ∀ (p : Word) (s : State),
    (p.toNat < s.cfg.memSize → ReadAnswers s p → (dataRead s p).1.toNat < s.cfg.memSize →
      ReadAnswers (afterDataRead s p) (dataRead s p).1 →
      exec (.ldiv p) s = .next { afterDataRead (afterDataRead s p) (dataRead s p).1 with
        ci := some (.ldiv p), tra := true, aluop := .none, uc := .fetchAddr,
        acc := (dataRead (afterDataRead s p) (dataRead s p).1).1 }) ∧
    (p.toNat < s.cfg.memSize → ¬ReadAnswers s p → exec (.ldiv p) s = .fault .callbackNeverReturns) ∧
    (p.toNat < s.cfg.memSize → ReadAnswers s p → (dataRead s p).1.toNat < s.cfg.memSize →
      ¬ReadAnswers (afterDataRead s p) (dataRead s p).1 → exec (.ldiv p) s = .fault .callbackNeverReturns) ∧
    (p.toNat < s.cfg.memSize → ReadAnswers s p → s.cfg.memSize ≤ (dataRead s p).1.toNat →
      exec (.ldiv p) s = .next (afterBoundsFault { afterDataRead s p with
        ci := some (.ldiv p), tra := true, aluop := .none, uc := .operand, sar := (dataRead s p).1 })) ∧
    (s.cfg.memSize ≤ p.toNat →
      exec (.ldiv p) s = .next (afterBoundsFault { s with
        ci := some (.ldiv p), tra := true, aluop := .none, uc := .operand, sar := p }))

/-- R178: STV, to memory, to a device that answers, to one that never returns (20_memory R64; log 28), and out of range. The cell
named reads as ACC afterwards and every other reads as before. -/
def Obligations.StvStoresAccumulator : Prop :=
  DecodesRow 0x20000000 0xFFF00000 Instr.stv ∧
  ∀ (a : Word) (s : State),
    (a.toNat < s.cfg.memSize → a ∉ s.cfg.writeDev →
      exec (.stv a) s = .next { s with
        ci := some (.stv a), tra := false, aluop := .none, uc := .fetchAddr, sar := a, sir := s.acc,
        mem := Memory.write s.mem a.toNat s.acc }) ∧
    (a.toNat < s.cfg.memSize → a ∈ s.cfg.writeDev → s.stallsAt ≠ some s.draws →
      exec (.stv a) s = .next { s with
        ci := some (.stv a), tra := false, aluop := .none, uc := .fetchAddr, sar := a,
        sir := Config.freeWord s.draws, draws := s.draws + 1, devLog := s.devLog ++ [.write a s.acc] }) ∧
    (a.toNat < s.cfg.memSize → a ∈ s.cfg.writeDev → s.stallsAt = some s.draws →
      exec (.stv a) s = .fault .callbackNeverReturns) ∧
    (s.cfg.memSize ≤ a.toNat →
      exec (.stv a) s = .next (afterBoundsFault { s with
        ci := some (.stv a), tra := false, aluop := .none, uc := .execute, sar := a, sir := s.acc })) ∧
    (∀ t, exec (.stv a) s = .next t → ∀ b, b ≠ a.toNat → Memory.read t.mem b = Memory.read s.mem b) ∧
    (Memory.wf s.mem → a.toNat < s.cfg.memSize → a ∉ s.cfg.writeDev →
      ∀ t, exec (.stv a) s = .next t → Memory.read t.mem a.toNat = s.acc)

/-! ### Instructions: control (43_control) -/

/-- R192: JMP, and what the next fetch does when the target is out of range. -/
def Obligations.JmpJumps : Prop :=
  DecodesRow 0x80000000 0xFFF00000 Instr.jmp ∧
  ∀ (j : Word) (s : State),
    exec (.jmp j) s = .next { s with
      ci := some (.jmp j), tra := false, aluop := .none, uc := .fetchAddr, sar := j, iar := j } ∧
    (s.run = true → s.fault = .none → s.cfg.memSize ≤ j.toNat → ∀ t, exec (.jmp j) s = .next t →
      step t = .next { t with uc := .fetchData, fault := .outOfBounds, faultInfo := j, run := false })

/-- R194: JMN, taken exactly when bit 31 of ACC is 1; the target is staged either way. -/
def Obligations.JmnJumpsIfNegative : Prop :=
  DecodesRow 0x90000000 0xFFF00000 Instr.jmn ∧
  ∀ (j : Word) (s : State),
    (s.acc.getLsbD 31 = true → exec (.jmn j) s = .next { s with
      ci := some (.jmn j), tra := false, aluop := .none, uc := .fetchAddr, sar := j, iar := j }) ∧
    (s.acc.getLsbD 31 = false → exec (.jmn j) s = .next { s with
      ci := some (.jmn j), tra := false, aluop := .none, uc := .fetchAddr, sar := j }) ∧
    (s.run = true → s.fault = .none → s.acc.getLsbD 31 = true → s.cfg.memSize ≤ j.toNat →
      ∀ t, exec (.jmn j) s = .next t →
        step t = .next { t with uc := .fetchData, fault := .outOfBounds, faultInfo := j, run := false })

/-- R197: HLT clears RUN, whatever its operand, and the wrap still happens; every later micro-step is idle until the host sets
RUN. -/
def Obligations.HltClearsRun : Prop :=
  DecodesRow 0xF0000000 0xFFFF0000 Instr.hlt ∧
  ∀ (n : Word) (s : State),
    exec (.hlt n) s = .next { s with
      ci := some (.hlt n), tra := true, aluop := .none, uc := .fetchAddr, run := false } ∧
    ∀ (t : State) (k : Nat), exec (.hlt n) s = .next t → stepMicro k t = .next t

/-! ### Instructions: accumulator (44_accumulator_ops) -/

/-- R212: NOT, whatever its operand; applied twice it restores ACC. -/
def Obligations.NotComplements : Prop :=
  DecodesRow 0xF1000000 0xFFFF0000 Instr.not ∧
  ∀ (n : Word) (s : State),
    exec (.not n) s = .next { s with
      ci := some (.not n), tra := true, aluop := .not, uc := .fetchAddr, acc := ~~~s.acc } ∧
    ∀ t u, exec (.not n) s = .next t → exec (.not n) t = .next u → u.acc = s.acc

/-- R214: RAR, whatever its operand: `{ACC[0], ACC[31:1]}`. -/
def Obligations.RarRotatesByOne : Prop :=
  DecodesRow 0xF2000000 0xFFFF0000 Instr.rar ∧
  ∀ (n : Word) (s : State),
    exec (.rar n) s = .next { s with
      ci := some (.rar n), tra := true, aluop := .rar, uc := .fetchAddr,
      acc := s.acc.extractLsb' 0 1 ++ s.acc.extractLsb' 1 31 }

/-- R216: RRN, the count taken modulo 32, every count legal. -/
def Obligations.RrnRotatesByCount : Prop :=
  DecodesRow 0xF3000000 0xFFFF0000 Instr.rrn ∧
  ∀ (n : Word) (s : State),
    exec (.rrn n) s = .next { s with
      ci := some (.rrn n), tra := true, aluop := .rrn, uc := .fetchAddr, acc := s.acc.rotateRight (n.toNat % 32) }

/-- R211: rotating right moves bit i to bit i-1 and bit 0 to bit 31; by 0 or 32 it changes nothing; and applying RAR 32 times returns
the original value. -/
def Obligations.RotationWraps : Prop :=
  (∀ (v : Word) (i : Nat), 0 < i → i < 32 → (ror32 v 1).getLsbD (i - 1) = v.getLsbD i) ∧
  (∀ v : Word, (ror32 v 1).getLsbD 31 = v.getLsbD 0) ∧
  (∀ (n : Word) (s t : State), n = 0 ∨ n = 32 → exec (.rrn n) s = .next t → t.acc = s.acc) ∧
  (∀ (n : Word) (s : State), ∃ t, repeatStep (exec (.rar n)) 32 s = .next t ∧ t.acc = s.acc)

/-! ### Reset, invariant and host calls -/

/-- What reset and the host's initialise leave, element by element, for every configuration: IAR, IR, RUN and ONE as the source states
them, the rest the spec's decisions D11, D12, D14 (10_state section 7, 70_reset_and_hazards section 1). The spec states the new
MEM_SIZE and the empty device tables. That the rest of the configuration (OPCODE_MAP, MEM_INIT, IO_READ_ON_FETCH and the
breakpoints) survives initialise, and that the draw counter, the device log and the stalling callback do, is the model's choice
(log 19). -/
def Obligations.ResetLeavesEveryElement : Prop :=
  ResetRegisters State.reset ∧ (∀ a, Memory.read State.reset.mem a = 0) ∧
  ∀ (n : Nat) (s : State),
    ResetRegisters (initialise n s) ∧
    (∀ a, a < n → Memory.read (initialise n s).mem a = Memory.read s.cfg.memInit a) ∧
    (initialise n s).cfg = { s.cfg with memSize := n, readDev := [], writeDev := [] } ∧
    (initialise n s).draws = s.draws ∧ (initialise n s).devLog = s.devLog ∧ (initialise n s).stallsAt = s.stallsAt ∧
    (1 ≤ n → n ≤ 2 ^ 32 → hostCall (.initialise n) s = .next (initialise n s, .ok))

/-- The reset state, and the state after initialisation under any admissible configuration, is legal (10_state sections 1 to
7). -/
def Obligations.ResetIsLegal : Prop :=
  LegalState State.reset ∧ ∀ c : Config, ConfigOk c → LegalState (State.init c)

/-- From every legal state a micro-step and an instruction step leave a legal state: memory keeps its canonical form within MEM_SIZE,
and CI, TRA, ALUOP, the staging registers and the fault record stay consistent. The model stops nowhere but inside a callback
that never returns, and nowhere at all while the callbacks return. A micro-step of a running machine ends its freshness and no
step restores it (10_state sections 1 to 6, 40_microcycle section 1, 60_exceptions sections 1 and 5). How freshness is read off
the state is the model's choice (log 26), and the stalling callback its input (log 28). -/
def Obligations.StepsKeepLegalStates : Prop :=
  ∀ s : State, LegalState s →
    (∀ t, microStep s = .next t →
      LegalState t ∧ (CallbacksReturn s → CallbacksReturn t) ∧ (t.fresh = true ↔ s.fresh = true ∧ s.idle = true)) ∧
    (∀ t, step s = .next t →
      LegalState t ∧ (CallbacksReturn s → CallbacksReturn t) ∧ (t.fresh = true ↔ s.fresh = true ∧ s.idle = true)) ∧
    ((∃ t, microStep s = .next t) ∨ microStep s = .fault .callbackNeverReturns) ∧
    ((∃ t, step s = .next t) ∨ step s = .fault .callbackNeverReturns) ∧
    (CallbacksReturn s → (∃ t, microStep s = .next t) ∧ (∃ t, step s = .next t))

/-- From every legal state every host call leaves a legal state, and completes when the callbacks return; it stops nowhere but inside
a callback that never returns. No call but initialise makes a machine fresh again (60_exceptions section 5, 40_microcycle
sections 2 and 3). Free-run and run are the model's bounded ones: that they always complete rests on the bound on instruction
steps, the model's choice (log 18), while the spec's free-run may never return (40_microcycle section 2, 70_reset_and_hazards
section 2). Freshness is the model's log 26, the stalling callback its log 28. -/
def Obligations.HostCallsKeepLegalStates : Prop :=
  ∀ (s : State) (c : HostCall), LegalState s →
    (∀ t r, hostCall c s = .next (t, r) →
      LegalState t ∧ ((∀ n, c ≠ .initialise n) → t.fresh = true → s.fresh = true)) ∧
    ((∃ t r, hostCall c s = .next (t, r)) ∨ hostCall c s = .fault .callbackNeverReturns) ∧
    (CallbacksReturn s → ∃ t r, hostCall c s = .next (t, r))

/-- What the host calls report: the stepping calls the fault record after them, free-run its stop reason and the fault record, run the
same after set_run(true) and FAULTED at once on a faulted machine, the breakpoint query whether IAR is a breakpoint, inspection
the whole state, the last two changing nothing (40_microcycle sections 2 and 3, 60_exceptions sections 1, 4 and 5, 10_state
section 6; the spec's D20). That a MEM_SIZE out of range is refused is the model's choice (log 19). And the lifecycle around the
calls: on a live machine each is what it is, teardown releases the machine from any state, and a released machine refuses every
operation and stays released (70_reset_and_hazards section 1); that it refuses initialise too is the model's choice (log 30). -/
def Obligations.HostCallsReport : Prop :=
  (∀ s t : State, microStep s = .next t → hostCall .microStep s = .next (t, .stepped t.fault t.faultInfo)) ∧
  (∀ s t : State, step s = .next t → hostCall .instructionStep s = .next (t, .stepped t.fault t.faultInfo)) ∧
  (∀ (k : Nat) (s t : State), stepMicro k s = .next t →
    hostCall (.stepMicro k) s = .next (t, .stepped t.fault t.faultInfo)) ∧
  (∀ (k : Nat) (s t : State), stepInstructions k s = .next t →
    hostCall (.stepInstructions k) s = .next (t, .stepped t.fault t.faultInfo)) ∧
  (∀ (fuel : Nat) (stops : List Bool) (s t : State) (r : StopReason), freeRun fuel stops s = .next (t, r) →
    hostCall (.freeRun fuel stops) s = .next (t, .returned r t.fault t.faultInfo)) ∧
  (∀ (fuel : Nat) (stops : List Bool) (s : State), s.fault = .none →
    hostCall (.run fuel stops) s = hostCall (.freeRun fuel stops) { s with run := true }) ∧
  (∀ (fuel : Nat) (stops : List Bool) (s : State), s.fault ≠ .none →
    hostCall (.run fuel stops) s = .next (s, .returned .faulted s.fault s.faultInfo)) ∧
  (∀ s : State, hostCall .queryBreakpoint s = .next (s, .hit (decide (s.iar ∈ s.cfg.breakpoints)))) ∧
  (∀ s : State, hostCall .inspect s = .next (s, .snapshot s)) ∧
  (∀ (as : List Word) (s : State),
    hostCall (.setBreakpoints as) s = .next ({ s with cfg := { s.cfg with breakpoints := as } }, .ok)) ∧
  (∀ (n : Nat) (s : State), ¬(1 ≤ n ∧ n ≤ 2 ^ 32) → hostCall (.initialise n) s = .next (s, .refused)) ∧
  (∀ (c : HostCall) (s t : State) (r : HostReply), hostCall c s = .next (t, r) →
    portCall (.call c) (.live s) = .next (.live t, r)) ∧
  (∀ (c : HostCall) (s : State) (e : Fault), hostCall c s = .fault e → portCall (.call c) (.live s) = .fault e) ∧
  (∀ s : State, portCall .teardown (.live s) = .next (.released, .ok)) ∧
  (∀ p : PortCall, portCall p .released = .next (.released, .refused))

/-! ### Whole-machine rules -/

/-- R28: while RUN is true and no fault is recorded a micro-step advances the machine, otherwise it changes nothing; HLT and every
fault clear RUN and nothing else in a micro-step does; only the host sets it; a breakpoint never alters it; it is false at
reset. -/
def Obligations.RunFlagDiscipline : Prop :=
  (∀ s t : State, s.run = true → s.fault = .none → microStep s = .next t → t.uc ≠ s.uc ∨ t.fault ≠ .none) ∧
  (∀ s : State, s.run = false ∨ s.fault ≠ .none → microStep s = .next s) ∧
  (∀ s t : State, s.run = true → s.fault = .none → microStep s = .next t →
    (t.run = false ↔ t.fault ≠ .none ∨ (s.uc = .execute ∧ ∃ n, s.ci = some (.hlt n)))) ∧
  (∀ s t : State, s.run = false → (microStep s = .next t ∨ step s = .next t) → t.run = false) ∧
  (∀ (s : State) (v : Bool), s.fault = .none → (setRun v s).run = v) ∧
  (∀ (fuel : Nat) (stops : List Bool) (s t : State), freeRun fuel stops s = .next (t, .breakpoint) → t.run = true) ∧
  State.reset.run = false

/-- R36: the device tables, the breakpoint table and the rest of the host's configuration are not written by any instruction or
micro-step. -/
def Obligations.ConfigurationNeverWritten : Prop :=
  (∀ s t : State, microStep s = .next t → t.cfg = s.cfg) ∧
  (∀ s t : State, step s = .next t → t.cfg = s.cfg) ∧
  (∀ (i : Instr) (s t : State), exec i s = .next t → t.cfg = s.cfg)

/-- R73: an out-of-bounds access writes no memory cell, clears RUN and reports OutOfBounds. -/
def Obligations.OutOfBoundsWritesNoCell : Prop :=
  (∀ s t : State, s.fault = .none → microStep s = .next t → t.fault = .outOfBounds → t.mem = s.mem ∧ t.run = false) ∧
  (∀ s t : State, s.fault = .none → step s = .next t → t.fault = .outOfBounds → t.mem = s.mem ∧ t.run = false)

/-- No instruction writes memory at or above 2^20, and a step that writes memory at all is an STV's, to its operand (20_memory
section 4, the spec's inference). -/
def Obligations.StoresStayBelowTwoToTwenty : Prop :=
  ∀ s t : State, LegalState s → step s = .next t →
    (∀ a, 2 ^ 20 ≤ a → Memory.read t.mem a = Memory.read s.mem a) ∧
    (t.mem ≠ s.mem → ∃ a, t.ci = some (.stv a) ∧ a.toNat < 2 ^ 20 ∧
      ∀ b, b ≠ a.toNat → Memory.read t.mem b = Memory.read s.mem b)

/-- Which elements the micro-step of each position may write: those the access table of 10_state section 6 lists for the position (the
spec's inference from the transfers), UC at every position, FAULT, FAULT_INFO and RUN at the four positions that may raise
(40_microcycle section 1, 60_exceptions section 1), and the model's device port at the three that may call a device (log 7, log
8). Everything not named in a row keeps its value. The rows are per position, not per instruction: the EXECUTE row frees what it
lists, all of memory too, whichever instruction is active. That only STV writes memory there, and only at SAR, is stated by
`Obligations.ExecuteMicroStep`, `Obligations.InstructionFrames` and `Obligations.StoresStayBelowTwoToTwenty`. -/
def Obligations.MicroStepFrames : Prop :=
  ∀ s t : State, microStep s = .next t →
    (s.uc = .fetchAddr → t = { s with sar := t.sar, uc := t.uc }) ∧
    (s.uc = .fetchData → t = { s with
      iar := t.iar, ir := t.ir, sir := t.sir, uc := t.uc, fault := t.fault, faultInfo := t.faultInfo, run := t.run,
      draws := t.draws, devLog := t.devLog }) ∧
    (s.uc = .decode → t = { s with
      ci := t.ci, tra := t.tra, aluop := t.aluop, uc := t.uc, fault := t.fault, faultInfo := t.faultInfo, run := t.run }) ∧
    (s.uc = .operand → t = { s with
      sar := t.sar, sir := t.sir, uc := t.uc, fault := t.fault, faultInfo := t.faultInfo, run := t.run,
      draws := t.draws, devLog := t.devLog }) ∧
    (s.uc = .execute → t = { s with
      acc := t.acc, x := t.x, y := t.y, z := t.z, iar := t.iar, sir := t.sir, mem := t.mem, uc := t.uc, fault := t.fault,
      faultInfo := t.faultInfo, run := t.run, draws := t.draws, devLog := t.devLog })

/-- The frame of every instruction: what exec leaves unchanged when it answers a next state (10_state sections 2 to 4 and 6). For
STV the one address it may write is its operand; every other address, and for every other instruction every address, reads as
before. -/
def Obligations.InstructionFrames : Prop :=
  ∀ (i : Instr) (s t : State), exec i s = .next t →
    (t.ir = s.ir ∧ t.cfg = s.cfg) ∧
    (i.op ∉ [.jmp, .jmn] → t.iar = s.iar) ∧
    (i.op ∉ [.add, .and, .or, .xor, .eql] → t.x = s.x ∧ t.y = s.y ∧ t.z = s.z) ∧
    (i.op ∈ [.stv, .jmp, .jmn, .hlt] → t.acc = s.acc) ∧
    (i.op ∈ [.ldc, .hlt, .not, .rar, .rrn] → t.sar = s.sar) ∧
    (i.op ∈ [.ldc, .jmp, .jmn, .hlt, .not, .rar, .rrn] →
      t.sir = s.sir ∧ t.draws = s.draws ∧ t.devLog = s.devLog ∧ t.fault = s.fault ∧ t.faultInfo = s.faultInfo) ∧
    (i.op ∉ [.hlt] → t.run = s.run ∨ (t.fault = .outOfBounds ∧ t.run = false)) ∧
    (i.op ∉ [.stv] → t.mem = s.mem) ∧
    (∀ b, (∀ a, i = .stv a → b ≠ a.toNat) → Memory.read t.mem b = Memory.read s.mem b)

/-- X, Y, Z and TRA affect no result: two states that differ only in them stay so under a micro-step and under a step (10_state
section 6, the spec's inference). -/
def Obligations.ScratchRegistersAreInert : Prop :=
  ∀ s t : State, SameButScratch s t →
    (∀ s', microStep s = .next s' → ∃ t', microStep t = .next t' ∧ SameButScratch s' t') ∧
    (∀ s', step s = .next s' → ∃ t', step t = .next t' ∧ SameButScratch s' t')

/-- At an instruction boundary the values of X, Y, Z, SAR, SIR, IR, CI, TRA and ALUOP never affect a program: two machines that agree in
everything else agree in it after any number of instruction steps (70_reset_and_hazards section 1, the spec's inference). -/
def Obligations.StaleRegistersNeverMatter : Prop :=
  ∀ (k : Nat) (s t : State), SameProgramView s t → s.uc = .fetchAddr →
    ∀ s', stepInstructions k s = .next s' → ∃ t', stepInstructions k t = .next t' ∧ SameProgramView s' t'

/-- A store is seen by the very next fetch: when STV wrote the address IAR names, the next step runs what ACC decodes to (20_memory
section 5, 70_reset_and_hazards section 2, the spec's inference). -/
def Obligations.StoreSeenByNextFetch : Prop :=
  ∀ (a : Word) (i : Instr) (s t : State), Memory.wf s.mem → s.run = true → s.fault = .none → s.iar = a →
    a.toNat < s.cfg.memSize → a ∉ s.cfg.writeDev → s.readsDevice true a = false →
    exec (.stv a) s = .next t → decodeWith s.cfg.opcodeMap s.acc = .ok i →
    step t = exec i { t with sar := a, sir := s.acc, ir := s.acc, iar := a + 1, uc := .decode }

/-- The state each fault site leaves: what was already done, the fault record, UC in place, and no other element changed
(60_exceptions section 1, the spec's inference; D7, D14, D31). -/
def Obligations.FaultSitesArePrecise : Prop :=
  ∀ s t : State, s.run = true → s.fault = .none → microStep s = .next t → t.fault ≠ .none →
    (s.uc = .fetchData ∧ s.cfg.memSize ≤ s.sar.toNat ∧ t = afterBoundsFault s) ∨
    (s.uc = .decode ∧ t = { s with fault := .illegalInstruction, faultInfo := s.ir, run := false }) ∨
    (s.uc = .operand ∧ ∃ i, s.ci = some i ∧ i.op ∈ [.add, .and, .or, .xor, .eql, .ldv, .ldiv] ∧
      s.cfg.memSize ≤ i.operand.toNat ∧ t = afterBoundsFault { s with sar := i.operand }) ∨
    (s.uc = .operand ∧ ∃ p, s.ci = some (.ldiv p) ∧ t.sar = t.sir ∧ s.cfg.memSize ≤ t.sar.toNat ∧
      t = afterBoundsFault { afterDataRead s p with sar := (dataRead s p).1 }) ∨
    (s.uc = .execute ∧ (∃ a, s.ci = some (.stv a)) ∧ s.cfg.memSize ≤ s.sar.toNat ∧
      t = afterBoundsFault { s with sir := s.acc })

/-- A fault is not resumed: every stepping operation is idle from then on (the spec's D15), set_run is refused and run answers
FAULTED (D14, D20; log 25), and no host call but initialise changes the fault record, RUN or UC. And a raise undoes nothing: what
earlier micro-steps did stays (IAR too), and so do the raising micro-step's own transfers before the raise (40_microcycle
sections 1 to 3, 60_exceptions section 1). -/
def Obligations.FaultsAreNotResumed : Prop :=
  (∀ s : State, s.fault ≠ .none →
    (∀ k, stepMicro k s = .next s ∧ stepInstructions k s = .next s) ∧
    (∀ fuel stops, freeRun fuel stops s = .next (s, .faulted) ∧ runFree fuel stops s = .next (s, .faulted)) ∧
    (∀ v, hostCall (.setRun v) s = .next (s, .refused)) ∧
    (∀ c t r, hostCall c s = .next (t, r) →
      (∃ n, c = .initialise n) ∨ (t.fault = s.fault ∧ t.faultInfo = s.faultInfo ∧ t.run = s.run ∧ t.uc = s.uc))) ∧
  (∀ s t : State, s.fault = .none → microStep s = .next t → t.fault ≠ .none →
    t = { s with
      sar := t.sar, sir := t.sir, draws := t.draws, devLog := t.devLog, fault := t.fault, faultInfo := t.faultInfo,
      run := false } ∧
    (s.uc = .operand → t.sar = t.faultInfo) ∧ (s.uc = .execute → t.sar = s.sar ∧ t.sir = s.acc))

/-- The memory unit's two accesses: the bounds check before the device check, then the array; a callback that never returns leaves
the access without an end (20_memory sections 2 and 3; the spec's D16, D17, D18; log 28). -/
def Obligations.MemoryUnitAccesses : Prop :=
  ∀ s : State,
    (s.cfg.memSize ≤ s.sar.toNat →
      (∀ fetch, memRead fetch s = .raised (afterBoundsFault s)) ∧ memWrite s = .raised (afterBoundsFault s)) ∧
    (s.sar.toNat < s.cfg.memSize →
      (ReadAnswers s s.sar → memRead false s = .done (afterDataRead s s.sar)) ∧
      (¬ReadAnswers s s.sar → memRead false s = .stuck .callbackNeverReturns) ∧
      (s.cfg.ioReadOnFetch = true → memRead true s = memRead false s) ∧
      (s.cfg.ioReadOnFetch = false → memRead true s = .done { s with sir := Memory.read s.mem s.sar.toNat }) ∧
      (s.sar ∉ s.cfg.writeDev → memWrite s = .done { s with mem := Memory.write s.mem s.sar.toNat s.sir }) ∧
      (s.sar ∈ s.cfg.writeDev → s.stallsAt ≠ some s.draws → memWrite s = .done { s with
        sir := Config.freeWord s.draws, draws := s.draws + 1, devLog := s.devLog ++ [.write s.sar s.sir] }) ∧
      (s.sar ∈ s.cfg.writeDev → s.stallsAt = some s.draws → memWrite s = .stuck .callbackNeverReturns))

/-- A device callback that never returns stalls the machine inside the micro-step for ever: exactly at the fetch, the operand reads and
the store that call it, and no number of further micro-steps, no instruction step and no free-run gets past it (20_memory section
3, 70_reset_and_hazards section 2). Which callback that is, if any, is an input of the model (log 28). -/
def Obligations.StallingCallbackHangs : Prop :=
  (∀ s : State, s.run = true → s.fault = .none →
    (microStep s = .fault .callbackNeverReturns ↔
      (s.uc = .fetchData ∧ s.sar.toNat < s.cfg.memSize ∧ s.readsDevice true s.sar = true ∧ s.stallsAt = some s.draws) ∨
      (s.uc = .operand ∧ ∃ i, s.ci = some i ∧ i.op ∈ [.add, .and, .or, .xor, .eql, .ldv, .ldiv] ∧
        i.operand.toNat < s.cfg.memSize ∧ i.operand ∈ s.cfg.readDev ∧ s.stallsAt = some s.draws) ∨
      (s.uc = .operand ∧ ∃ p, s.ci = some (.ldiv p) ∧ p.toNat < s.cfg.memSize ∧ ReadAnswers s p ∧
        (dataRead s p).1.toNat < s.cfg.memSize ∧ (dataRead s p).1 ∈ s.cfg.readDev ∧
        s.stallsAt = some (dataRead s p).2.1) ∨
      (s.uc = .execute ∧ (∃ a, s.ci = some (.stv a)) ∧ s.sar.toNat < s.cfg.memSize ∧ s.sar ∈ s.cfg.writeDev ∧
        s.stallsAt = some s.draws))) ∧
  (∀ s : State, microStep s = .fault .callbackNeverReturns →
    step s = .fault .callbackNeverReturns ∧
    (∀ k, stepMicro (k + 1) s = .fault .callbackNeverReturns ∧ stepInstructions (k + 1) s = .fault .callbackNeverReturns) ∧
    (∀ fuel stops, freeRun (fuel + 1) stops s = .fault .callbackNeverReturns))

/-- set_run: it writes RUN when no fault is recorded and is refused otherwise; clearing and setting it pauses and continues the
machine where it stood, mid-instruction too; after HLT it continues at the next word (40_microcycle section 3; the spec's D14,
D29, D30). -/
def Obligations.SetRunPausesAndContinues : Prop :=
  (∀ (s : State) (v : Bool), s.fault = .none → hostCall (.setRun v) s = .next ({ s with run := v }, .ok)) ∧
  (∀ (s : State) (v : Bool), s.fault ≠ .none → hostCall (.setRun v) s = .next (s, .refused)) ∧
  (∀ (s : State) (k : Nat), s.fault = .none → s.run = true →
    stepMicro k (setRun false s) = .next (setRun false s) ∧ setRun true (setRun false s) = s) ∧
  (∀ (n : Word) (s t : State), s.fault = .none → exec (.hlt n) s = .next t →
    Ready (setRun true t) ∧ (setRun true t).iar = s.iar)

/-- Registration, before running: a first binding is added, a second at the same address is AlreadyRegistered and changes nothing,
and the two tables are independent (60_exceptions sections 4 and 5; the spec's D18). At any other time the call is refused: the
model's choice for a host that does what the spec assumes it does not (log 26). -/
def Obligations.RegistrationKeepsFirst : Prop :=
  (∀ (a : Word) (s : State), s.beforeExecution = false →
    hostCall (.registerRead a) s = .next (s, .refused) ∧ hostCall (.registerWrite a) s = .next (s, .refused)) ∧
  ∀ (a : Word) (s : State), s.beforeExecution = true →
    (a ∉ s.cfg.readDev → ∃ t, hostCall (.registerRead a) s = .next (t, .ok) ∧ (∀ b, b ∈ t.cfg.readDev ↔ b = a ∨ b ∈ s.cfg.readDev) ∧
      t = { s with cfg := { s.cfg with readDev := t.cfg.readDev } } ∧
      hostCall (.registerRead a) t = .next (t, .alreadyRegistered)) ∧
    (a ∈ s.cfg.readDev → hostCall (.registerRead a) s = .next (s, .alreadyRegistered)) ∧
    (a ∉ s.cfg.writeDev → ∃ t, hostCall (.registerWrite a) s = .next (t, .ok) ∧
      (∀ b, b ∈ t.cfg.writeDev ↔ b = a ∨ b ∈ s.cfg.writeDev) ∧
      t = { s with cfg := { s.cfg with writeDev := t.cfg.writeDev } } ∧
      hostCall (.registerWrite a) t = .next (t, .alreadyRegistered)) ∧
    (a ∈ s.cfg.writeDev → hostCall (.registerWrite a) s = .next (s, .alreadyRegistered))

/-- Loading a raw image, before execution: refused as a whole when an address is out of range or the entry is not 0; otherwise the
writes are applied in order, so that an address reads as its last write, and nothing else changes (70_reset_and_hazards section
1, 60_exceptions section 5; the spec's D25). At any other time it is refused (the model's choice, log 26). -/
def Obligations.ImageLoadsInOrder : Prop :=
  (∀ (im : ProgramImage) (s : State), s.beforeExecution = false → hostCall (.loadImage im) s = .next (s, .refused)) ∧
  ∀ (im : ProgramImage) (s : State), Memory.wf s.mem → s.beforeExecution = true →
    ((∃ e ∈ im.writes, s.cfg.memSize ≤ e.1) ∨ im.entry ≠ 0 → hostCall (.loadImage im) s = .next (s, .refused)) ∧
    ((∀ e ∈ im.writes, e.1 < s.cfg.memSize) → im.entry = 0 →
      ∃ t, hostCall (.loadImage im) s = .next (t, .ok) ∧ t = { s with mem := t.mem } ∧
        ∀ a, Memory.read t.mem a =
          match im.writes.reverse.find? (fun e => e.1 = a) with
          | some e => e.2
          | none => Memory.read s.mem a)

/-- Compile and load, before execution: a failed compilation and a too long program write nothing; otherwise the n-th instruction's
word stands at address n, every other address and every register keeps its value (30_encoding section 5, 70_reset_and_hazards
section 1, 60_exceptions section 5; the spec's D25). At any other time it is refused (the model's choice, log 26). -/
def Obligations.ProgramLoadsAtZero : Prop :=
  (∀ (src : Text) (s : State), s.beforeExecution = false → hostCall (.compileFromText src) s = .next (s, .refused)) ∧
  (∀ (src : Text) (s : State), hostCall (.compileFromFile src) s = hostCall (.compileFromText src) s) ∧
  ∀ (src : Text) (s : State), Memory.wf s.mem → s.beforeExecution = true →
    (∀ e, assemble s.cfg.opcodeMap src = .error e → hostCall (.compileFromText src) s = .next (s, .compileFailed e)) ∧
    (∀ ws, assemble s.cfg.opcodeMap src = .ok ws → s.cfg.memSize < ws.length →
      hostCall (.compileFromText src) s = .next (s, .outOfBounds s.cfg.memSize)) ∧
    (∀ ws, assemble s.cfg.opcodeMap src = .ok ws → ws.length ≤ s.cfg.memSize →
      ∃ t, hostCall (.compileFromText src) s = .next (t, .ok) ∧ t = { s with mem := t.mem } ∧
        ∀ a, Memory.read t.mem a = if h : a < ws.length then ws[a] else Memory.read s.mem a)

/-- The canonical listing: assembling the listing of any decodable word gives back the same word, under every valid opcode map, and a
word that fails decode has no listing (30_encoding section 5, the spec's inference). -/
def Obligations.ListingAssemblesBack : Prop :=
  ∀ (m : OpcodeMap) (w : Word), m.valid = true →
    (∀ i, decodeWith m w = .ok i → listWord m w = some (listing i) ∧ assemble m (listing i) = .ok [w]) ∧
    (∀ e, decodeWith m w = .error e → listWord m w = none)

/-- Serialised images: in either byte order the bytes of a program read back as its words, four bytes a word, and the two orders
give each word's bytes reversed (20_memory section 1, the spec's D22; that a file is the words one after another is the model's
choice, log 27). -/
def Obligations.SerialisedImagesReadBack : Prop :=
  (∀ (o : ByteOrder) (ws : List Word),
    deserialise o (serialise o ws) = some ws ∧ (serialise o ws).length = 4 * ws.length) ∧
  (∀ w : Word, wordBytes .big w = (wordBytes .little w).reverse) ∧
  (∀ (o : ByteOrder) (bs : List (BitVec 8)) (ws : List Word), deserialise o bs = some ws → serialise o ws = bs)

/-- The canonical form: two memories in it that read the same everywhere are equal data (the model's own form, log 5 and log
10). -/
def Obligations.EqualMemoriesAreEqualData : Prop :=
  ∀ m m' : List Cell, Memory.wf m → Memory.wf m' → (∀ a, Memory.read m a = Memory.read m' a) → m = m'

end
end

