-- ==== Sys2Proof/Laws/Codec.lean ====
section
/-!
SUPPORT. What the codec's operations say, once each, so that no proof unfolds decode or encode (30_encoding R91 to R98).
-/

namespace Sys2Proof

/-! ### Opcodes and instructions -/

@[simp] theorem Opcode.instr_op (op : Opcode) (w : Word) : (op.instr w).op = op := by cases op <;> rfl
@[simp] theorem Opcode.instr_operand (op : Opcode) (w : Word) : (op.instr w).operand = w := by cases op <;> rfl
theorem Instr.eta (i : Instr) : i.op.instr i.operand = i := by cases i <;> rfl
/-- The two opcode lists are the two families (R98). -/
theorem Opcode.mem_extOpcodes (op : Opcode) : op ∈ extOpcodes ↔ op.ext = true := by cases op <;> decide
theorem Opcode.mem_basicOpcodes (op : Opcode) : op ∈ basicOpcodes ↔ op.ext = false := by cases op <;> decide

/-! ### The opcode map (R91, R92) -/

/-- R92, as propositions. -/
theorem OpcodeMap.valid_iff {m : OpcodeMap} :
    m.valid = true ↔
      (basicOpcodes.map m.code).Nodup ∧ 0xF ∉ basicOpcodes.map m.code ∧ (extOpcodes.map m.code).Nodup := by
  simp [OpcodeMap.valid, and_assoc]

/-- What a lookup finds is in the list and has that code. -/
theorem OpcodeMap.find_sound {m : OpcodeMap} {ops : List Opcode} {c : BitVec 4} {op : Opcode}
    (h : m.find ops c = some op) : op ∈ ops ∧ m.code op = c := by
  induction ops with
  | nil => simp [OpcodeMap.find] at h
  | cons o r ih =>
    rw [OpcodeMap.find] at h
    split at h
    · simp at h; subst h; simp_all
    · exact ⟨by simp [(ih h).1], (ih h).2⟩

/-- Under distinct codes every opcode of the list is found by its code. -/
theorem OpcodeMap.find_complete {m : OpcodeMap} {ops : List Opcode} {op : Opcode} (hn : (ops.map m.code).Nodup)
    (h : op ∈ ops) : m.find ops (m.code op) = some op := by
  induction ops with
  | nil => simp at h
  | cons o r ih =>
    rw [OpcodeMap.find]
    simp only [List.map_cons, List.nodup_cons] at hn
    rcases List.mem_cons.mp h with rfl | h'
    · simp
    · have : m.code o ≠ m.code op := fun e => hn.1 (e ▸ List.mem_map_of_mem h')
      rw [if_neg this]; exact ih hn.2 h'

theorem OpcodeMap.find_eq_none {m : OpcodeMap} {ops : List Opcode} {c : BitVec 4} :
    m.find ops c = none ↔ ∀ op ∈ ops, m.code op ≠ c := by
  induction ops with
  | nil => simp [OpcodeMap.find]
  | cons o r ih => rw [OpcodeMap.find]; split <;> simp_all

/-! ### Bit fields -/

/-- Two concatenations of the same widths are equal exactly when their parts are. -/
theorem append_inj_bits {m n : Nat} {a c : BitVec m} {b d : BitVec n} : a ++ b = c ++ d ↔ a = c ∧ b = d := by
  constructor
  · intro h
    constructor
    · have := congrArg (BitVec.extractLsb' n m) h; simpa [BitVec.extractLsb'_append_eq_left] using this
    · have := congrArg (BitVec.extractLsb' 0 n) h; simpa [BitVec.extractLsb'_append_eq_right] using this
  · rintro ⟨rfl, rfl⟩; rfl

/-- A word is its basic-format fields (R82). -/
theorem basic_fields (w : Word) : bits w 28 4 ++ bits w 20 8 ++ bits w 0 20 = w := by
  apply BitVec.eq_of_getLsbD_eq; intro i hi
  simp only [bits, BitVec.getLsbD_append, BitVec.getLsbD_extractLsb']
  by_cases h1 : i < 20
  · simp [h1]
  · by_cases h2 : i - 20 < 8
    · simp [h1, h2, show 20 + (i - 20) = i by omega]
    · simp [h1, h2, show 28 + (i - 20 - 8) = i by omega, show i - 20 - 8 < 4 by omega]

/-- A word is its extended-format fields (R83). -/
theorem extended_fields (w : Word) : bits w 28 4 ++ bits w 24 4 ++ bits w 16 8 ++ bits w 0 16 = w := by
  apply BitVec.eq_of_getLsbD_eq; intro i hi
  simp only [bits, BitVec.getLsbD_append, BitVec.getLsbD_extractLsb']
  by_cases h1 : i < 16
  · simp [h1]
  · by_cases h2 : i - 16 < 8
    · simp [h1, h2, show 16 + (i - 16) = i by omega]
    · by_cases h3 : i - 16 - 8 < 4
      · simp [h1, h2, h3, show 24 + (i - 16 - 8) = i by omega]
      · simp [h1, h2, h3, show 28 + (i - 16 - 8 - 4) = i by omega, show i - 16 - 8 - 4 < 4 by omega]

/-- Zero-extending a field takes the word modulo a power of two (R85). -/
theorem zext32_bits_toNat (w : Word) (n : Nat) (hn : n ≤ 32) : (zext32 (bits w 0 n)).toNat = w.toNat % 2 ^ n := by
  simp only [zext32, bits, BitVec.toNat_setWidth, BitVec.extractLsb'_toNat, Nat.shiftRight_zero]
  exact Nat.mod_eq_of_lt (lt_of_lt_of_le (Nat.mod_lt _ (by positivity)) (Nat.pow_le_pow_right (by omega) hn))

/-! ### decode and encode (R95, R96) -/

/-- Everything decode can accept. -/
theorem decodeWith_eq_ok {m : OpcodeMap} {w : Word} {i : Instr} :
    decodeWith m w = .ok i ↔
      (bits w 28 4 = 0xF ∧ bits w 16 8 = 0 ∧
        ∃ op, m.find extOpcodes (bits w 24 4) = some op ∧ i = op.instr (zext32 (bits w 0 16))) ∨
      (bits w 28 4 ≠ 0xF ∧ bits w 20 8 = 0 ∧
        ∃ op, m.find basicOpcodes (bits w 28 4) = some op ∧ i = op.instr (zext32 (bits w 0 20))) := by
  unfold decodeWith extMarker
  by_cases h : bits w 28 4 = 0xF
  · simp only [h, ↓reduceIte, true_and, ne_eq, not_true_eq_false, false_and, or_false]
    by_cases h2 : bits w 16 8 = 0
    · simp only [h2, not_true_eq_false, ↓reduceIte, true_and]
      cases m.find extOpcodes (bits w 24 4) <;> simp [eq_comm]
    · have h2' : ¬ (_ = 0#8) := h2
      simp [h2']
  · simp only [h, ↓reduceIte, false_and, ne_eq, not_false_eq_true, true_and, false_or]
    by_cases h2 : bits w 20 8 = 0
    · simp only [h2, not_true_eq_false, ↓reduceIte, true_and]
      cases m.find basicOpcodes (bits w 28 4) <;> simp [eq_comm]
    · have h2' : ¬ (_ = 0#8) := h2
      simp [h2']

/-- Everything decode can reject carries the whole word (R93). -/
theorem decodeWith_eq_error {m : OpcodeMap} {w : Word} {e : DecodeError} (h : decodeWith m w = .error e) :
    e = .invalidOpcode w := by
  unfold decodeWith at h
  split at h <;> split at h <;> first | simpa using h.symm | (split at h <;> simp_all)

/-- Everything encode can answer. -/
theorem encodeWith_eq_ok {m : OpcodeMap} {i : Instr} {w : Word} :
    encodeWith m i = .ok w ↔
      i.wf = true ∧ w = (if i.ext then (extMarker ++ m.code i.op ++ (0 : BitVec 8) ++ bits i.operand 0 16 : Word)
        else m.code i.op ++ (0 : BitVec 8) ++ bits i.operand 0 20) := by
  unfold encodeWith Instr.wf
  by_cases h : 2 ^ operandBits i.ext ≤ i.operand.toNat
  · simp [h]
  · simp only [h, if_false]
    have : i.operand.toNat < 2 ^ operandBits i.ext := by omega
    cases he : i.ext <;> simp [he, eq_comm] at this ⊢ <;> intro _ <;> exact this

end Sys2Proof
end

