-- ==== Sys2Proof/Laws/Memory.lean ====
section
/-!
SUPPORT. The laws of the memory array: a read after a write, other addresses, the canonical form and the bounds kept.
-/

namespace Sys2Proof.Machine

theorem Memory.read_consCell_same (a : Nat) (v : Word) (rest : List Cell) (h : ∀ c ∈ rest, c.1 ≠ a) :
    Memory.read (Memory.consCell a v rest) a = v := by
  have hr : Memory.read rest a = Memory.unlisted := by
    induction rest with
    | nil => rfl
    | cons c rest ih =>
      rw [Memory.read, if_neg (h c (by simp))]
      exact ih fun d hd => h d (by simp [hd])
  unfold Memory.consCell
  split
  · rename_i hv; rw [hr, hv]
  · simp [Memory.read]

theorem Memory.read_consCell_other (a b : Nat) (v : Word) (rest : List Cell) (h : b ≠ a) :
    Memory.read (Memory.consCell a v rest) b = Memory.read rest b := by
  unfold Memory.consCell
  split
  · rfl
  · simp [Memory.read, Ne.symm h]

/-- A write leaves every other address alone. -/
theorem Memory.read_write_other (m : List Cell) (a b : Nat) (v : Word) (h : b ≠ a) :
    Memory.read (Memory.write m a v) b = Memory.read m b := by
  induction m with
  | nil => exact Memory.read_consCell_other a b v [] h
  | cons c rest ih =>
    unfold Memory.write
    split
    · simp only [Memory.read]; split <;> simp_all
    · split
      · rename_i hc
        rw [Memory.read_consCell_other a b v rest h, Memory.read, if_neg (by omega)]
      · exact Memory.read_consCell_other a b v _ h

/-- A read after a write to the same address gives the word written. -/
theorem Memory.read_write_same (m : List Cell) (hm : Memory.wf m) (a : Nat) (v : Word) :
    Memory.read (Memory.write m a v) a = v := by
  induction m with
  | nil => exact Memory.read_consCell_same a v [] (by simp)
  | cons c rest ih =>
    have hp := List.pairwise_cons.mp hm.1
    have hrest : Memory.wf rest := ⟨hp.2, fun d hd => hm.2 d (by simp [hd])⟩
    unfold Memory.write
    split
    · rename_i hc
      rw [Memory.read, if_neg (by omega)]
      exact ih hrest
    · split
      · rename_i hc
        exact Memory.read_consCell_same a v rest fun d hd => by have := hp.1 d hd; omega
      · rename_i h1 h2
        refine Memory.read_consCell_same a v (c :: rest) fun d hd => ?_
        rcases List.mem_cons.mp hd with rfl | hd'
        · exact h2
        · have := hp.1 d hd'; omega

theorem Memory.mem_consCell {a : Nat} {v : Word} {rest : List Cell} {d : Cell}
    (h : d ∈ Memory.consCell a v rest) : (d = (a, v) ∧ v ≠ Memory.unlisted) ∨ d ∈ rest := by
  unfold Memory.consCell at h
  split at h
  · exact .inr h
  · rename_i hv
    rcases List.mem_cons.mp h with h | h
    · exact .inl ⟨h, hv⟩
    · exact .inr h

/-- A cell of the memory after a write is the one written, or was there before at another address. -/
theorem Memory.mem_write {m : List Cell} {a : Nat} {v : Word} {d : Cell} (h : d ∈ Memory.write m a v) :
    (d = (a, v) ∧ v ≠ Memory.unlisted) ∨ d ∈ m := by
  induction m with
  | nil => exact (Memory.mem_consCell h).imp_right (by simp)
  | cons c rest ih =>
    unfold Memory.write at h
    split at h
    · rcases List.mem_cons.mp h with rfl | h
      · exact .inr (by simp)
      · exact (ih h).imp_right (by intro h'; simp [h'])
    · split at h
      · exact (Memory.mem_consCell h).imp_right (by intro h'; simp [h'])
      · exact Memory.mem_consCell h

theorem Memory.consCell_wf {a : Nat} {v : Word} {rest : List Cell} (hr : Memory.wf rest)
    (ha : ∀ d ∈ rest, a < d.1) : Memory.wf (Memory.consCell a v rest) := by
  unfold Memory.consCell
  split
  · exact hr
  · rename_i hv
    exact ⟨List.pairwise_cons.mpr ⟨ha, hr.1⟩, by simpa using ⟨hv, fun b w hb => hr.2 (b, w) hb⟩⟩

/-- A write keeps the canonical form. -/
theorem Memory.write_wf {m : List Cell} (hm : Memory.wf m) (a : Nat) (v : Word) : Memory.wf (Memory.write m a v) := by
  induction m with
  | nil => exact Memory.consCell_wf hm (by simp)
  | cons c rest ih =>
    have hp := List.pairwise_cons.mp hm.1
    have hrest : Memory.wf rest := ⟨hp.2, fun d hd => hm.2 d (by simp [hd])⟩
    unfold Memory.write
    split
    · rename_i hc
      refine ⟨List.pairwise_cons.mpr ⟨fun d hd => ?_, (ih hrest).1⟩, fun d hd => ?_⟩
      · rcases Memory.mem_write hd with ⟨rfl, -⟩ | hd
        · exact hc
        · exact hp.1 d hd
      · rcases List.mem_cons.mp hd with rfl | hd
        · exact hm.2 d (by simp)
        · exact (ih hrest).2 d hd
    · split
      · rename_i hc
        exact Memory.consCell_wf hrest fun d hd => by have := hp.1 d hd; omega
      · rename_i h1 h2
        refine Memory.consCell_wf hm fun d hd => ?_
        rcases List.mem_cons.mp hd with rfl | hd
        · omega
        · have := hp.1 d hd; omega

/-- A write below MEM_SIZE keeps every cell below MEM_SIZE. -/
theorem Memory.write_within {m : List Cell} {n a : Nat} {v : Word} (hm : Memory.within m n) (ha : a < n) :
    Memory.within (Memory.write m a v) n := fun _ hd => by
  rcases Memory.mem_write hd with ⟨rfl, -⟩ | hd
  · exact ha
  · exact hm _ hd

/-- Dropping cells keeps the canonical form (the initial memory of `State.init`). -/
theorem Memory.filter_wf {m : List Cell} (hm : Memory.wf m) (p : Cell → Bool) : Memory.wf (m.filter p) :=
  ⟨hm.1.filter p, fun d hd => hm.2 d (List.mem_filter.mp hd).1⟩

theorem Memory.filter_within (m : List Cell) (n : Nat) : Memory.within (m.filter fun c => c.1 < n) n := fun d hd => by
  simpa using (List.mem_filter.mp hd).2

/-- The memory of the reset state has the canonical form. -/
theorem Memory.reset_wf : Memory.wf State.reset.mem := by decide

end Sys2Proof.Machine
end

