-- ==== Sys2Proof/Laws/State.lean ====
section
/-!
SUPPORT. Each field after each named update of the state, so that no proof unfolds a record update.
-/

namespace Sys2Proof.Machine

/-! ### `raise` (60_exceptions R233) -/

@[simp] theorem raise_acc (f : FaultCode) (v : Word) (s : State) : (raise f v s).acc = s.acc := rfl
@[simp] theorem raise_x (f : FaultCode) (v : Word) (s : State) : (raise f v s).x = s.x := rfl
@[simp] theorem raise_y (f : FaultCode) (v : Word) (s : State) : (raise f v s).y = s.y := rfl
@[simp] theorem raise_z (f : FaultCode) (v : Word) (s : State) : (raise f v s).z = s.z := rfl
@[simp] theorem raise_aluop (f : FaultCode) (v : Word) (s : State) : (raise f v s).aluop = s.aluop := rfl
@[simp] theorem raise_iar (f : FaultCode) (v : Word) (s : State) : (raise f v s).iar = s.iar := rfl
@[simp] theorem raise_ir (f : FaultCode) (v : Word) (s : State) : (raise f v s).ir = s.ir := rfl
@[simp] theorem raise_ci (f : FaultCode) (v : Word) (s : State) : (raise f v s).ci = s.ci := rfl
@[simp] theorem raise_run (f : FaultCode) (v : Word) (s : State) : (raise f v s).run = false := rfl
@[simp] theorem raise_tra (f : FaultCode) (v : Word) (s : State) : (raise f v s).tra = s.tra := rfl
@[simp] theorem raise_uc (f : FaultCode) (v : Word) (s : State) : (raise f v s).uc = s.uc := rfl
@[simp] theorem raise_sar (f : FaultCode) (v : Word) (s : State) : (raise f v s).sar = s.sar := rfl
@[simp] theorem raise_sir (f : FaultCode) (v : Word) (s : State) : (raise f v s).sir = s.sir := rfl
@[simp] theorem raise_mem (f : FaultCode) (v : Word) (s : State) : (raise f v s).mem = s.mem := rfl
@[simp] theorem raise_fault (f : FaultCode) (v : Word) (s : State) : (raise f v s).fault = f := rfl
@[simp] theorem raise_faultInfo (f : FaultCode) (v : Word) (s : State) : (raise f v s).faultInfo = v := rfl
@[simp] theorem raise_cfg (f : FaultCode) (v : Word) (s : State) : (raise f v s).cfg = s.cfg := rfl
@[simp] theorem raise_draws (f : FaultCode) (v : Word) (s : State) : (raise f v s).draws = s.draws := rfl
@[simp] theorem raise_devLog (f : FaultCode) (v : Word) (s : State) : (raise f v s).devLog = s.devLog := rfl
@[simp] theorem raise_stallsAt (f : FaultCode) (v : Word) (s : State) : (raise f v s).stallsAt = s.stallsAt := rfl

/-! ### DECODE's latch (40_microcycle R124) -/

@[simp] theorem latch_acc (i : Instr) (s : State) : (latch i s).acc = s.acc := rfl
@[simp] theorem latch_x (i : Instr) (s : State) : (latch i s).x = s.x := rfl
@[simp] theorem latch_y (i : Instr) (s : State) : (latch i s).y = s.y := rfl
@[simp] theorem latch_z (i : Instr) (s : State) : (latch i s).z = s.z := rfl
@[simp] theorem latch_aluop (i : Instr) (s : State) : (latch i s).aluop = aluSelOf i := rfl
@[simp] theorem latch_iar (i : Instr) (s : State) : (latch i s).iar = s.iar := rfl
@[simp] theorem latch_ir (i : Instr) (s : State) : (latch i s).ir = s.ir := rfl
@[simp] theorem latch_ci (i : Instr) (s : State) : (latch i s).ci = some i := rfl
@[simp] theorem latch_run (i : Instr) (s : State) : (latch i s).run = s.run := rfl
@[simp] theorem latch_tra (i : Instr) (s : State) : (latch i s).tra = traOf i := rfl
@[simp] theorem latch_uc (i : Instr) (s : State) : (latch i s).uc = .operand := rfl
@[simp] theorem latch_sar (i : Instr) (s : State) : (latch i s).sar = s.sar := rfl
@[simp] theorem latch_sir (i : Instr) (s : State) : (latch i s).sir = s.sir := rfl
@[simp] theorem latch_mem (i : Instr) (s : State) : (latch i s).mem = s.mem := rfl
@[simp] theorem latch_fault (i : Instr) (s : State) : (latch i s).fault = s.fault := rfl
@[simp] theorem latch_faultInfo (i : Instr) (s : State) : (latch i s).faultInfo = s.faultInfo := rfl
@[simp] theorem latch_cfg (i : Instr) (s : State) : (latch i s).cfg = s.cfg := rfl
@[simp] theorem latch_draws (i : Instr) (s : State) : (latch i s).draws = s.draws := rfl
@[simp] theorem latch_devLog (i : Instr) (s : State) : (latch i s).devLog = s.devLog := rfl
@[simp] theorem latch_stallsAt (i : Instr) (s : State) : (latch i s).stallsAt = s.stallsAt := rfl

/-! ### FETCH_ADDR (40_microcycle R121) -/

@[simp] theorem fetchAddr_acc (s : State) : (fetchAddr s).acc = s.acc := rfl
@[simp] theorem fetchAddr_x (s : State) : (fetchAddr s).x = s.x := rfl
@[simp] theorem fetchAddr_y (s : State) : (fetchAddr s).y = s.y := rfl
@[simp] theorem fetchAddr_z (s : State) : (fetchAddr s).z = s.z := rfl
@[simp] theorem fetchAddr_aluop (s : State) : (fetchAddr s).aluop = s.aluop := rfl
@[simp] theorem fetchAddr_iar (s : State) : (fetchAddr s).iar = s.iar := rfl
@[simp] theorem fetchAddr_ir (s : State) : (fetchAddr s).ir = s.ir := rfl
@[simp] theorem fetchAddr_ci (s : State) : (fetchAddr s).ci = s.ci := rfl
@[simp] theorem fetchAddr_run (s : State) : (fetchAddr s).run = s.run := rfl
@[simp] theorem fetchAddr_tra (s : State) : (fetchAddr s).tra = s.tra := rfl
@[simp] theorem fetchAddr_uc (s : State) : (fetchAddr s).uc = .fetchData := rfl
@[simp] theorem fetchAddr_sar (s : State) : (fetchAddr s).sar = s.iar := rfl
@[simp] theorem fetchAddr_sir (s : State) : (fetchAddr s).sir = s.sir := rfl
@[simp] theorem fetchAddr_mem (s : State) : (fetchAddr s).mem = s.mem := rfl
@[simp] theorem fetchAddr_fault (s : State) : (fetchAddr s).fault = s.fault := rfl
@[simp] theorem fetchAddr_faultInfo (s : State) : (fetchAddr s).faultInfo = s.faultInfo := rfl
@[simp] theorem fetchAddr_cfg (s : State) : (fetchAddr s).cfg = s.cfg := rfl
@[simp] theorem fetchAddr_draws (s : State) : (fetchAddr s).draws = s.draws := rfl
@[simp] theorem fetchAddr_devLog (s : State) : (fetchAddr s).devLog = s.devLog := rfl
@[simp] theorem fetchAddr_stallsAt (s : State) : (fetchAddr s).stallsAt = s.stallsAt := rfl

/-! ### the control transfer (43_control R190) -/

@[simp] theorem jumpTo_acc (t : Word) (s : State) : (jumpTo t s).acc = s.acc := rfl
@[simp] theorem jumpTo_x (t : Word) (s : State) : (jumpTo t s).x = s.x := rfl
@[simp] theorem jumpTo_y (t : Word) (s : State) : (jumpTo t s).y = s.y := rfl
@[simp] theorem jumpTo_z (t : Word) (s : State) : (jumpTo t s).z = s.z := rfl
@[simp] theorem jumpTo_aluop (t : Word) (s : State) : (jumpTo t s).aluop = s.aluop := rfl
@[simp] theorem jumpTo_iar (t : Word) (s : State) : (jumpTo t s).iar = t := rfl
@[simp] theorem jumpTo_ir (t : Word) (s : State) : (jumpTo t s).ir = s.ir := rfl
@[simp] theorem jumpTo_ci (t : Word) (s : State) : (jumpTo t s).ci = s.ci := rfl
@[simp] theorem jumpTo_run (t : Word) (s : State) : (jumpTo t s).run = s.run := rfl
@[simp] theorem jumpTo_tra (t : Word) (s : State) : (jumpTo t s).tra = s.tra := rfl
@[simp] theorem jumpTo_uc (t : Word) (s : State) : (jumpTo t s).uc = s.uc := rfl
@[simp] theorem jumpTo_sar (t : Word) (s : State) : (jumpTo t s).sar = s.sar := rfl
@[simp] theorem jumpTo_sir (t : Word) (s : State) : (jumpTo t s).sir = s.sir := rfl
@[simp] theorem jumpTo_mem (t : Word) (s : State) : (jumpTo t s).mem = s.mem := rfl
@[simp] theorem jumpTo_fault (t : Word) (s : State) : (jumpTo t s).fault = s.fault := rfl
@[simp] theorem jumpTo_faultInfo (t : Word) (s : State) : (jumpTo t s).faultInfo = s.faultInfo := rfl
@[simp] theorem jumpTo_cfg (t : Word) (s : State) : (jumpTo t s).cfg = s.cfg := rfl
@[simp] theorem jumpTo_draws (t : Word) (s : State) : (jumpTo t s).draws = s.draws := rfl
@[simp] theorem jumpTo_devLog (t : Word) (s : State) : (jumpTo t s).devLog = s.devLog := rfl
@[simp] theorem jumpTo_stallsAt (t : Word) (s : State) : (jumpTo t s).stallsAt = s.stallsAt := rfl

/-! ### a read callback (20_memory R62) -/

@[simp] theorem deviceRead_acc (a : Word) (s : State) : (deviceRead a s).acc = s.acc := rfl
@[simp] theorem deviceRead_x (a : Word) (s : State) : (deviceRead a s).x = s.x := rfl
@[simp] theorem deviceRead_y (a : Word) (s : State) : (deviceRead a s).y = s.y := rfl
@[simp] theorem deviceRead_z (a : Word) (s : State) : (deviceRead a s).z = s.z := rfl
@[simp] theorem deviceRead_aluop (a : Word) (s : State) : (deviceRead a s).aluop = s.aluop := rfl
@[simp] theorem deviceRead_iar (a : Word) (s : State) : (deviceRead a s).iar = s.iar := rfl
@[simp] theorem deviceRead_ir (a : Word) (s : State) : (deviceRead a s).ir = s.ir := rfl
@[simp] theorem deviceRead_ci (a : Word) (s : State) : (deviceRead a s).ci = s.ci := rfl
@[simp] theorem deviceRead_run (a : Word) (s : State) : (deviceRead a s).run = s.run := rfl
@[simp] theorem deviceRead_tra (a : Word) (s : State) : (deviceRead a s).tra = s.tra := rfl
@[simp] theorem deviceRead_uc (a : Word) (s : State) : (deviceRead a s).uc = s.uc := rfl
@[simp] theorem deviceRead_sar (a : Word) (s : State) : (deviceRead a s).sar = s.sar := rfl
@[simp] theorem deviceRead_sir (a : Word) (s : State) : (deviceRead a s).sir = s.nextDraw := rfl
@[simp] theorem deviceRead_mem (a : Word) (s : State) : (deviceRead a s).mem = s.mem := rfl
@[simp] theorem deviceRead_fault (a : Word) (s : State) : (deviceRead a s).fault = s.fault := rfl
@[simp] theorem deviceRead_faultInfo (a : Word) (s : State) : (deviceRead a s).faultInfo = s.faultInfo := rfl
@[simp] theorem deviceRead_cfg (a : Word) (s : State) : (deviceRead a s).cfg = s.cfg := rfl
@[simp] theorem deviceRead_draws (a : Word) (s : State) : (deviceRead a s).draws = s.draws + 1 := rfl
@[simp] theorem deviceRead_devLog (a : Word) (s : State) : (deviceRead a s).devLog = s.devLog ++ [.read a s.nextDraw] := rfl
@[simp] theorem deviceRead_stallsAt (a : Word) (s : State) : (deviceRead a s).stallsAt = s.stallsAt := rfl

/-! ### a write callback (20_memory R63) -/

@[simp] theorem deviceWrite_acc (a : Word) (s : State) : (deviceWrite a s).acc = s.acc := rfl
@[simp] theorem deviceWrite_x (a : Word) (s : State) : (deviceWrite a s).x = s.x := rfl
@[simp] theorem deviceWrite_y (a : Word) (s : State) : (deviceWrite a s).y = s.y := rfl
@[simp] theorem deviceWrite_z (a : Word) (s : State) : (deviceWrite a s).z = s.z := rfl
@[simp] theorem deviceWrite_aluop (a : Word) (s : State) : (deviceWrite a s).aluop = s.aluop := rfl
@[simp] theorem deviceWrite_iar (a : Word) (s : State) : (deviceWrite a s).iar = s.iar := rfl
@[simp] theorem deviceWrite_ir (a : Word) (s : State) : (deviceWrite a s).ir = s.ir := rfl
@[simp] theorem deviceWrite_ci (a : Word) (s : State) : (deviceWrite a s).ci = s.ci := rfl
@[simp] theorem deviceWrite_run (a : Word) (s : State) : (deviceWrite a s).run = s.run := rfl
@[simp] theorem deviceWrite_tra (a : Word) (s : State) : (deviceWrite a s).tra = s.tra := rfl
@[simp] theorem deviceWrite_uc (a : Word) (s : State) : (deviceWrite a s).uc = s.uc := rfl
@[simp] theorem deviceWrite_sar (a : Word) (s : State) : (deviceWrite a s).sar = s.sar := rfl
@[simp] theorem deviceWrite_sir (a : Word) (s : State) : (deviceWrite a s).sir = s.nextDraw := rfl
@[simp] theorem deviceWrite_mem (a : Word) (s : State) : (deviceWrite a s).mem = s.mem := rfl
@[simp] theorem deviceWrite_fault (a : Word) (s : State) : (deviceWrite a s).fault = s.fault := rfl
@[simp] theorem deviceWrite_faultInfo (a : Word) (s : State) : (deviceWrite a s).faultInfo = s.faultInfo := rfl
@[simp] theorem deviceWrite_cfg (a : Word) (s : State) : (deviceWrite a s).cfg = s.cfg := rfl
@[simp] theorem deviceWrite_draws (a : Word) (s : State) : (deviceWrite a s).draws = s.draws + 1 := rfl
@[simp] theorem deviceWrite_devLog (a : Word) (s : State) : (deviceWrite a s).devLog = s.devLog ++ [.write a s.sir] := rfl
@[simp] theorem deviceWrite_stallsAt (a : Word) (s : State) : (deviceWrite a s).stallsAt = s.stallsAt := rfl

/-! ### Facts read off a state -/

@[simp] theorem one_eq (s : State) : s.one = 1 := rfl
@[simp] theorem raise_idle (f : FaultCode) (v : Word) (s : State) : (raise f v s).idle = true := by
  simp [State.idle]

theorem idle_eq_false_iff (s : State) : s.idle = false ↔ s.fault = .none ∧ s.run = true := by
  simp [State.idle]

theorem legal_iff (s : State) (a : Word) : s.legal a = true ↔ a.toNat < s.cfg.memSize := by
  simp [State.legal]

theorem readsDevice_data (s : State) (a : Word) : s.readsDevice false a = s.cfg.readDev.contains a := by
  simp [State.readsDevice]

/-- Legality, device tables and the draw depend only on the configuration and the counter. -/
theorem legal_congr {s t : State} (h : s.cfg = t.cfg) (a : Word) : s.legal a = t.legal a := by
  simp [State.legal, h]

theorem readsDevice_congr {s t : State} (h : s.cfg = t.cfg) (b : Bool) (a : Word) :
    s.readsDevice b a = t.readsDevice b a := by
  simp [State.readsDevice, h]

theorem writesDevice_congr {s t : State} (h : s.cfg = t.cfg) (a : Word) : s.writesDevice a = t.writesDevice a := by
  simp [State.writesDevice, h]

end Sys2Proof.Machine
end

