-- ==== Sys2Proof/Laws/Ops.lean ====
section
/-!
SUPPORT. For each shared operation, what it does in each case and everything it can do, so that no proof unfolds it.
-/

namespace Sys2Proof.Machine

/-! ### A callback (20_memory R64) -/

theorem callDevice_returns {s : State} (hc : s.callbackReturns = true) (f : State → State) : callDevice f s = .done (f s) := by
  simp [callDevice, hc]

theorem callDevice_stalls {s : State} (hc : s.callbackReturns = false) (f : State → State) :
    callDevice f s = .stuck .callbackNeverReturns := by
  simp [callDevice, hc]

/-! ### MemRead (20_memory R56) -/

theorem memRead_plain {b : Bool} {s : State} (hl : s.legal s.sar = true) (hd : s.readsDevice b s.sar = false) :
    memRead b s = .done { s with sir := Memory.read s.mem s.sar.toNat } := by
  simp [memRead, hl, hd]

theorem memRead_device {b : Bool} {s : State} (hl : s.legal s.sar = true) (hd : s.readsDevice b s.sar = true)
    (hc : s.callbackReturns = true) : memRead b s = .done (deviceRead s.sar s) := by
  simp [memRead, hl, hd, callDevice_returns hc]

theorem memRead_stalls {b : Bool} {s : State} (hl : s.legal s.sar = true) (hd : s.readsDevice b s.sar = true)
    (hc : s.callbackReturns = false) : memRead b s = .stuck .callbackNeverReturns := by
  simp [memRead, hl, hd, callDevice_stalls hc]

theorem memRead_outOfBounds {b : Bool} {s : State} (hl : s.legal s.sar = false) :
    memRead b s = .raised (raise .outOfBounds s.sar s) := by
  simp [memRead, hl]

/-- Everything MemRead can do. -/
theorem memRead_cases (b : Bool) (s : State) :
    (s.legal s.sar = true ∧ s.readsDevice b s.sar = false ∧
      memRead b s = .done { s with sir := Memory.read s.mem s.sar.toNat }) ∨
    (s.legal s.sar = true ∧ s.readsDevice b s.sar = true ∧ s.callbackReturns = true ∧
      memRead b s = .done (deviceRead s.sar s)) ∨
    (s.legal s.sar = true ∧ s.readsDevice b s.sar = true ∧ s.callbackReturns = false ∧
      memRead b s = .stuck .callbackNeverReturns) ∨
    (s.legal s.sar = false ∧ memRead b s = .raised (raise .outOfBounds s.sar s)) := by
  rcases Bool.eq_false_or_eq_true (s.legal s.sar) with hl | hl
  · rcases Bool.eq_false_or_eq_true (s.readsDevice b s.sar) with hd | hd
    · rcases Bool.eq_false_or_eq_true s.callbackReturns with hc | hc
      · exact .inr (.inl ⟨hl, hd, hc, memRead_device hl hd hc⟩)
      · exact .inr (.inr (.inl ⟨hl, hd, hc, memRead_stalls hl hd hc⟩))
    · exact .inl ⟨hl, hd, memRead_plain hl hd⟩
  · exact .inr (.inr (.inr ⟨hl, memRead_outOfBounds hl⟩))

/-! ### MemWrite (20_memory R57) -/

theorem memWrite_plain {s : State} (hl : s.legal s.sar = true) (hd : s.writesDevice s.sar = false) :
    memWrite s = .done { s with mem := Memory.write s.mem s.sar.toNat s.sir } := by
  simp [memWrite, hl, hd]

theorem memWrite_device {s : State} (hl : s.legal s.sar = true) (hd : s.writesDevice s.sar = true)
    (hc : s.callbackReturns = true) : memWrite s = .done (deviceWrite s.sar s) := by
  simp [memWrite, hl, hd, callDevice_returns hc]

theorem memWrite_stalls {s : State} (hl : s.legal s.sar = true) (hd : s.writesDevice s.sar = true)
    (hc : s.callbackReturns = false) : memWrite s = .stuck .callbackNeverReturns := by
  simp [memWrite, hl, hd, callDevice_stalls hc]

theorem memWrite_outOfBounds {s : State} (hl : s.legal s.sar = false) :
    memWrite s = .raised (raise .outOfBounds s.sar s) := by
  simp [memWrite, hl]

/-- Everything MemWrite can do. -/
theorem memWrite_cases (s : State) :
    (s.legal s.sar = true ∧ s.writesDevice s.sar = false ∧
      memWrite s = .done { s with mem := Memory.write s.mem s.sar.toNat s.sir }) ∨
    (s.legal s.sar = true ∧ s.writesDevice s.sar = true ∧ s.callbackReturns = true ∧
      memWrite s = .done (deviceWrite s.sar s)) ∨
    (s.legal s.sar = true ∧ s.writesDevice s.sar = true ∧ s.callbackReturns = false ∧
      memWrite s = .stuck .callbackNeverReturns) ∨
    (s.legal s.sar = false ∧ memWrite s = .raised (raise .outOfBounds s.sar s)) := by
  rcases Bool.eq_false_or_eq_true (s.legal s.sar) with hl | hl
  · rcases Bool.eq_false_or_eq_true (s.writesDevice s.sar) with hd | hd
    · rcases Bool.eq_false_or_eq_true s.callbackReturns with hc | hc
      · exact .inr (.inl ⟨hl, hd, hc, memWrite_device hl hd hc⟩)
      · exact .inr (.inr (.inl ⟨hl, hd, hc, memWrite_stalls hl hd hc⟩))
    · exact .inl ⟨hl, hd, memWrite_plain hl hd⟩
  · exact .inr (.inr (.inr ⟨hl, memWrite_outOfBounds hl⟩))

/-! ### The ends of a micro-step (00_scope R12) -/

@[simp] theorem andThen_done (s : State) (f : State → Micro) : (Micro.done s).andThen f = f s := rfl
@[simp] theorem andThen_raised (s : State) (f : State → Micro) : (Micro.raised s).andThen f = .raised s := rfl
@[simp] theorem andThen_stuck (e : Fault) (f : State → Micro) : (Micro.stuck e).andThen f = .stuck e := rfl
@[simp] theorem finish_done (s : State) (u : MicroPos) : (Micro.done s).finish u = .next { s with uc := u } := rfl
@[simp] theorem finish_raised (s : State) (u : MicroPos) : (Micro.raised s).finish u = .next s := rfl
@[simp] theorem finish_stuck (e : Fault) (u : MicroPos) : (Micro.stuck e).finish u = .fault e := rfl

/-! ### Operand resolution (40_microcycle R125) -/

/-- A direct operand of a plain legal address: SAR is the address and SIR the word there. -/
theorem operandDirect_plain {a : Word} {s : State} (hl : s.legal a = true) (hd : s.readsDevice false a = false) :
    operandDirect a s = .done { s with sar := a, sir := Memory.read s.mem a.toNat } :=
  memRead_plain (s := { s with sar := a }) hl hd

/-- A direct operand that a device supplies. -/
theorem operandDirect_device {a : Word} {s : State} (hl : s.legal a = true) (hd : s.readsDevice false a = true)
    (hc : s.callbackReturns = true) : operandDirect a s = .done (deviceRead a { s with sar := a }) :=
  memRead_device (s := { s with sar := a }) hl hd hc

/-- A direct operand whose device never returns. -/
theorem operandDirect_stalls {a : Word} {s : State} (hl : s.legal a = true) (hd : s.readsDevice false a = true)
    (hc : s.callbackReturns = false) : operandDirect a s = .stuck .callbackNeverReturns :=
  memRead_stalls (s := { s with sar := a }) hl hd hc

/-- A direct operand out of range: SAR is staged, SIR is not written. -/
theorem operandDirect_outOfBounds {a : Word} {s : State} (hl : s.legal a = false) :
    operandDirect a s = .raised (raise .outOfBounds a { s with sar := a }) :=
  memRead_outOfBounds (s := { s with sar := a }) hl

/-! ### Frames of the OPERAND and EXECUTE transfers (10_state R39) -/

/-- What a micro-step that did not stop left behind. -/
def Micro.state? : Micro → Option State
  | .done s => some s
  | .raised s => some s
  | .stuck _ => none

/-- MemRead changes SIR, the draw counter and the device log, and on a raise the fault record and RUN. -/
theorem memRead_frame {b : Bool} {s t : State} (h : (memRead b s).state? = some t) :
    t = { s with sir := t.sir, draws := t.draws, devLog := t.devLog, fault := t.fault, faultInfo := t.faultInfo,
                 run := t.run } := by
  rcases memRead_cases b s with ⟨-, -, e⟩ | ⟨-, -, -, e⟩ | ⟨-, -, -, e⟩ | ⟨-, e⟩ <;> rw [e] at h <;>
    (simp only [Micro.state?, Option.some.injEq, reduceCtorEq] at h) <;> (subst h; rfl)

/-- The OPERAND transfers change SAR, SIR, the draw counter and the device log, and on a raise the fault record and RUN. -/
theorem operandPhase_frame {i : Instr} {s t : State} (h : (operandPhase i s).state? = some t) :
    t = { s with sar := t.sar, sir := t.sir, draws := t.draws, devLog := t.devLog, fault := t.fault,
                 faultInfo := t.faultInfo, run := t.run } := by
  have direct : ∀ {a : Word} {s t : State}, (operandDirect a s).state? = some t →
      t = { s with sar := t.sar, sir := t.sir, draws := t.draws, devLog := t.devLog, fault := t.fault,
                   faultInfo := t.faultInfo, run := t.run } := by
    intro a s t h
    have := memRead_frame h
    rw [this]
  cases i <;>
    simp only [operandPhase, operandLdc, operandHlt, operandNot, operandRar, operandRrn, operandNone, operandStv,
      operandJmp, operandJmn, operandStage, operandAdd, operandAnd, operandOr, operandXor, operandEql, operandLdv,
      operandLdiv, Micro.state?, Option.some.injEq] at h <;>
    first
      | (subst h; rfl)
      | exact direct h
      | skip
  unfold operandIndirect at h
  match hd : operandDirect ‹Word› s with
  | .done u =>
    rw [hd] at h
    have h1 := direct (a := ‹Word›) (s := s) (t := u) (by rw [hd]; rfl)
    have h2 := memRead_frame h
    rw [h2, h1]
  | .raised u =>
    rw [hd] at h
    simp only [andThen_raised, Option.some.injEq] at h
    subst h
    exact direct (a := ‹Word›) (by rw [hd]; rfl)
  | .stuck e => rw [hd] at h; simp at h

theorem memRead_stuck {b : Bool} {s : State} {e : Fault} (h : memRead b s = .stuck e) : e = .callbackNeverReturns := by
  rcases memRead_cases b s with ⟨-, -, h'⟩ | ⟨-, -, -, h'⟩ | ⟨-, -, -, h'⟩ | ⟨-, h'⟩ <;> simp_all

theorem operandIndirect_stuck {p : Word} {s : State} {e : Fault} (h : operandIndirect p s = .stuck e) :
    e = .callbackNeverReturns := by
  unfold operandIndirect at h
  match hd : operandDirect p s with
  | .done u => rw [hd] at h; exact memRead_stuck h
  | .raised u => rw [hd] at h; cases h
  | .stuck e' => rw [hd] at h; cases h; exact memRead_stuck hd

/-- The OPERAND transfers stop only inside a callback. -/
theorem operandPhase_stuck {i : Instr} {s : State} {e : Fault} (h : operandPhase i s = .stuck e) :
    e = .callbackNeverReturns := by
  cases i <;> first | exact memRead_stuck h | exact operandIndirect_stuck h | cases h

/-- The EXECUTE transfers leave IR, CI, TRA, ALUOP, UC, SAR and the configuration alone. -/
theorem executePhase_frame {i : Instr} {s t : State} (h : (executePhase i s).state? = some t) :
    t.ir = s.ir ∧ t.ci = s.ci ∧ t.tra = s.tra ∧ t.aluop = s.aluop ∧ t.uc = s.uc ∧ t.sar = s.sar ∧ t.cfg = s.cfg := by
  have alu' : ∀ {s t : State}, (executeAlu s).state? = some t →
      t.ir = s.ir ∧ t.ci = s.ci ∧ t.tra = s.tra ∧ t.aluop = s.aluop ∧ t.uc = s.uc ∧ t.sar = s.sar ∧ t.cfg = s.cfg := by
    intro s t h
    unfold executeAlu at h
    split at h
    · simp only [Micro.state?, Option.some.injEq] at h; subst h; simp
    · simp [Micro.state?] at h
  cases i <;>
    simp only [executePhase, executeLdc, executeHlt, executeNot, executeRar, executeRrn, executeStv, executeJmp,
      executeJmn, executeAdd, executeAnd, executeOr, executeXor, executeEql, executeLdv, executeLdiv, executeLoad,
      Micro.state?, Option.some.injEq] at h <;>
    first
      | (subst h; simp)
      | exact alu' h
      | skip
  · rcases memWrite_cases { s with sir := s.acc } with ⟨-, -, e⟩ | ⟨-, -, -, e⟩ | ⟨-, -, -, e⟩ | ⟨-, e⟩ <;>
      (rw [e] at h; simp only [Option.some.injEq, reduceCtorEq] at h) <;> (subst h; simp)
  · subst h; split <;> simp

/-! ### exec -/

/-- Every instruction's meaning is its two phases after DECODE's latch. -/
theorem exec_eq_runPhases (i : Instr) (s : State) : exec i s = runPhases i (operandPhase i) (executePhase i) s := by
  cases i <;> rfl

/-- When nothing raises in OPERAND, exec is the EXECUTE micro-step. -/
theorem runPhases_done {i : Instr} {op ex : State → Micro} {s t : State} (h : op (latch i s) = .done t) :
    runPhases i op ex s = (ex { t with uc := .execute }).finish .fetchAddr := by
  simp [runPhases, h]

/-- A stop in OPERAND stops the instruction. -/
theorem runPhases_stuck {i : Instr} {op ex : State → Micro} {s : State} {e : Fault} (h : op (latch i s) = .stuck e) :
    runPhases i op ex s = .fault e := by
  simp [runPhases, h]

/-- A raise in OPERAND ends the instruction. -/
theorem runPhases_raised {i : Instr} {op ex : State → Micro} {s t : State} (h : op (latch i s) = .raised t) :
    runPhases i op ex s = .next t := by
  simp [runPhases, h]

/-! ### FETCH_DATA (40_microcycle R122) -/

theorem fetchData_plain {s : State} (hl : s.legal s.sar = true) (hd : s.readsDevice true s.sar = false) :
    fetchData s = .done { s with sir := Memory.read s.mem s.sar.toNat, ir := Memory.read s.mem s.sar.toNat,
                                 iar := s.iar + 1 } := by
  simp [fetchData, memRead_plain hl hd]

theorem fetchData_outOfBounds {s : State} (hl : s.legal s.sar = false) :
    fetchData s = .raised (raise .outOfBounds s.sar s) := by
  simp [fetchData, memRead_outOfBounds hl]

theorem fetchData_device {s : State} (hl : s.legal s.sar = true) (hd : s.readsDevice true s.sar = true)
    (hc : s.callbackReturns = true) :
    fetchData s = .done { deviceRead s.sar s with ir := s.nextDraw, iar := s.iar + 1 } := by
  simp [fetchData, memRead_device hl hd hc]

theorem fetchData_stalls {s : State} (hl : s.legal s.sar = true) (hd : s.readsDevice true s.sar = true)
    (hc : s.callbackReturns = false) : fetchData s = .stuck .callbackNeverReturns := by
  simp [fetchData, memRead_stalls hl hd hc]

end Sys2Proof.Machine
end

