-- ==== Sys2Proof/Laws/Cycle.lean ====
section
/-!
SUPPORT. The micro-step by position, and everything its phases can do, in the terms of Safety (40_microcycle R120 to R130).
-/

namespace Sys2Proof.Machine

/-! ### The guard (R120) -/

theorem idle_eq_false {s : State} (hr : s.run = true) (hf : s.fault = .none) : s.idle = false := by
  simp [State.idle, hr, hf]

theorem idle_or_running (s : State) : s.idle = true ∨ (s.run = true ∧ s.fault = .none) := by
  cases h : s.idle
  · right; simpa [State.idle, and_comm] using h
  · left; rfl

theorem microStep_of_idle {s : State} (h : s.idle = true) : microStep s = .next s := by simp [microStep, h]
theorem step_of_idle {s : State} (h : s.idle = true) : step s = .next s := by simp [step, runInstruction, h]

/-! ### The micro-step of a running machine, by position (R128) -/

theorem microStep_fetchAddr {s : State} (hr : s.run = true) (hf : s.fault = .none) (hu : s.uc = .fetchAddr) :
    microStep s = .next (fetchAddr s) := by
  simp [microStep, idle_eq_false hr hf, hu]

theorem microStep_fetchData {s : State} (hr : s.run = true) (hf : s.fault = .none) (hu : s.uc = .fetchData) :
    microStep s = (fetchData s).finish .decode := by
  simp [microStep, idle_eq_false hr hf, hu]

theorem microStep_decode {s : State} (hr : s.run = true) (hf : s.fault = .none) (hu : s.uc = .decode) :
    microStep s = .next (decodeStep s) := by
  simp [microStep, idle_eq_false hr hf, hu]

theorem microStep_operand {s : State} {i : Instr} (hr : s.run = true) (hf : s.fault = .none) (hu : s.uc = .operand)
    (hi : s.ci = some i) : microStep s = (operandPhase i s).finish .execute := by
  simp only [microStep, idle_eq_false hr hf, hu, operandStep, hi]; rfl

theorem microStep_execute {s : State} {i : Instr} (hr : s.run = true) (hf : s.fault = .none) (hu : s.uc = .execute)
    (hi : s.ci = some i) : microStep s = (executePhase i s).finish .fetchAddr := by
  simp only [microStep, idle_eq_false hr hf, hu, executeStep, hi]; rfl

/-! ### Callbacks (20_memory R64) -/

theorem callbackReturns_iff (s : State) : s.callbackReturns = true ↔ s.stallsAt ≠ some s.draws := by
  simp [State.callbackReturns]

theorem callbackReturns_eq_false (s : State) : s.callbackReturns = false ↔ s.stallsAt = some s.draws := by
  simp [State.callbackReturns]

/-- While no later callback stalls, none that the machine calls after a step does. -/
theorem CallbacksReturn.mono {s t : State} (h : CallbacksReturn s) (hd : s.draws ≤ t.draws) (hs : t.stallsAt = s.stallsAt) :
    CallbacksReturn t := fun n hn => by rw [hs]; exact h n (by omega)

theorem CallbacksReturn.now {s : State} (h : CallbacksReturn s) : s.callbackReturns = true :=
  (callbackReturns_iff s).mpr (h _ (Nat.le_refl _))

theorem CallbacksReturn.readAnswers {s : State} (h : CallbacksReturn s) (a : Word) : ReadAnswers s a :=
  fun _ => h _ (Nat.le_refl _)

theorem draws_le_dataRead (s : State) (a : Word) : s.draws ≤ (dataRead s a).2.1 := by
  unfold dataRead; split <;> simp

/-! ### Reads in the terms of dataRead (20_memory R56) -/

theorem operandDirect_legal {a : Word} {s : State} (h : a.toNat < s.cfg.memSize) (hc : ReadAnswers s a) :
    operandDirect a s = .done (afterDataRead s a) := by
  have hl : s.legal a = true := by simpa [State.legal] using h
  by_cases hd : a ∈ s.cfg.readDev
  · rw [operandDirect_device hl (by simp [State.readsDevice, hd]) ((callbackReturns_iff s).mpr (hc hd))]
    simp [afterDataRead, dataRead, hd, deviceRead, State.nextDraw]
  · rw [operandDirect_plain hl (by simp [State.readsDevice, hd])]
    simp [afterDataRead, dataRead, hd]

theorem operandDirect_hangs {a : Word} {s : State} (h : a.toNat < s.cfg.memSize) (hc : ¬ReadAnswers s a) :
    operandDirect a s = .stuck .callbackNeverReturns := by
  have hc' : a ∈ s.cfg.readDev ∧ s.stallsAt = some s.draws := by simpa [ReadAnswers] using hc
  exact operandDirect_stalls (by simpa [State.legal] using h) (by simp [State.readsDevice, hc'.1])
    ((callbackReturns_eq_false s).mpr hc'.2)

theorem operandDirect_illegal {a : Word} {s : State} (h : s.cfg.memSize ≤ a.toNat) :
    operandDirect a s = .raised (afterBoundsFault { s with sar := a }) := by
  rw [operandDirect_outOfBounds (by simpa [State.legal] using h)]; rfl

theorem operandIndirect_legal {p : Word} {s : State} (h : p.toNat < s.cfg.memSize) (hc : ReadAnswers s p)
    (h2 : (dataRead s p).1.toNat < s.cfg.memSize) (hc2 : ReadAnswers (afterDataRead s p) (dataRead s p).1) :
    operandIndirect p s = .done (afterDataRead (afterDataRead s p) (dataRead s p).1) := by
  unfold operandIndirect
  rw [operandDirect_legal h hc, andThen_done]
  exact operandDirect_legal (a := (dataRead s p).1) (s := afterDataRead s p) h2 hc2

theorem operandIndirect_hangsPointer {p : Word} {s : State} (h : p.toNat < s.cfg.memSize) (hc : ¬ReadAnswers s p) :
    operandIndirect p s = .stuck .callbackNeverReturns := by
  unfold operandIndirect
  rw [operandDirect_hangs h hc, andThen_stuck]

theorem operandIndirect_hangsPointee {p : Word} {s : State} (h : p.toNat < s.cfg.memSize) (hc : ReadAnswers s p)
    (h2 : (dataRead s p).1.toNat < s.cfg.memSize) (hc2 : ¬ReadAnswers (afterDataRead s p) (dataRead s p).1) :
    operandIndirect p s = .stuck .callbackNeverReturns := by
  unfold operandIndirect
  rw [operandDirect_legal h hc, andThen_done]
  exact operandDirect_hangs (a := (dataRead s p).1) (s := afterDataRead s p) h2 hc2

theorem operandIndirect_illegalPointee {p : Word} {s : State} (h : p.toNat < s.cfg.memSize) (hc : ReadAnswers s p)
    (h2 : s.cfg.memSize ≤ (dataRead s p).1.toNat) :
    operandIndirect p s = .raised (afterBoundsFault { afterDataRead s p with sar := (dataRead s p).1 }) := by
  unfold operandIndirect
  rw [operandDirect_legal h hc, andThen_done]
  exact operandDirect_illegal (a := (dataRead s p).1) (s := afterDataRead s p) h2

theorem operandIndirect_illegal {p : Word} {s : State} (h : s.cfg.memSize ≤ p.toNat) :
    operandIndirect p s = .raised (afterBoundsFault { s with sar := p }) := by
  unfold operandIndirect; rw [operandDirect_illegal h]; rfl

/-! ### Everything each phase can do -/

/-- FETCH_DATA (R122). -/
theorem fetchData_cases (s : State) :
    (∃ v d l, s.draws ≤ d ∧
      fetchData s = .done { s with sir := v, ir := v, iar := s.iar + 1, draws := d, devLog := l }) ∨
    (s.stallsAt = some s.draws ∧ s.readsDevice true s.sar = true ∧ s.sar.toNat < s.cfg.memSize ∧
      fetchData s = .stuck .callbackNeverReturns) ∨
    (s.cfg.memSize ≤ s.sar.toNat ∧ fetchData s = .raised (afterBoundsFault s)) := by
  by_cases hl : s.legal s.sar = true
  · by_cases hd : s.readsDevice true s.sar = true
    · rcases Bool.eq_false_or_eq_true s.callbackReturns with hc | hc
      · left; exact ⟨_, _, _, Nat.le_succ _, fetchData_device hl hd hc⟩
      · right; left
        exact ⟨(callbackReturns_eq_false s).mp hc, hd, by simpa [State.legal] using hl, fetchData_stalls hl hd hc⟩
    · left; exact ⟨_, s.draws, s.devLog, Nat.le_refl _, fetchData_plain hl (by simpa using hd)⟩
  · right; right; exact ⟨by simpa [State.legal] using hl, fetchData_outOfBounds (by simpa using hl)⟩

/-- DECODE (R124). -/
theorem decodeStep_cases (s : State) :
    (∃ i, decodeWith s.cfg.opcodeMap s.ir = .ok i ∧ decodeStep s = latch i s) ∨
    (decodeWith s.cfg.opcodeMap s.ir = .error (.invalidOpcode s.ir) ∧
      decodeStep s = raise .illegalInstruction s.ir s) := by
  cases hd : decodeWith s.cfg.opcodeMap s.ir with
  | ok i => left; exact ⟨i, rfl, by simp [decodeStep, hd]⟩
  | error e => have := decodeWith_eq_error hd; subst this; right; exact ⟨rfl, by simp [decodeStep, hd]⟩

/-- OPERAND (R125): SAR, SIR and the device port written, or a callback that never returns, or a bounds fault at the SAR
staged. -/
theorem operandPhase_cases (i : Instr) (s : State) :
    (∃ a v d l, s.draws ≤ d ∧ operandPhase i s = .done { s with sar := a, sir := v, draws := d, devLog := l }) ∨
    ((∃ n, s.draws ≤ n ∧ s.stallsAt = some n) ∧ operandPhase i s = .stuck .callbackNeverReturns) ∨
    (∃ a v d l, s.draws ≤ d ∧ s.cfg.memSize ≤ a.toNat ∧
      operandPhase i s = .raised (afterBoundsFault { s with sar := a, sir := v, draws := d, devLog := l })) := by
  have hang : ∀ {u : State} {a : Word}, ¬ReadAnswers u a → u.stallsAt = some u.draws := fun h => by
    simpa using (Classical.not_imp.mp h).2
  have direct : ∀ a' : Word,
      (∃ a v d l, s.draws ≤ d ∧ operandDirect a' s = .done { s with sar := a, sir := v, draws := d, devLog := l }) ∨
      ((∃ n, s.draws ≤ n ∧ s.stallsAt = some n) ∧ operandDirect a' s = .stuck .callbackNeverReturns) ∨
      (∃ a v d l, s.draws ≤ d ∧ s.cfg.memSize ≤ a.toNat ∧
        operandDirect a' s = .raised (afterBoundsFault { s with sar := a, sir := v, draws := d, devLog := l })) := by
    intro a
    by_cases hl : a.toNat < s.cfg.memSize
    · by_cases hc : ReadAnswers s a
      · left; exact ⟨a, _, _, _, draws_le_dataRead s a, operandDirect_legal hl hc⟩
      · right; left; exact ⟨⟨_, Nat.le_refl _, hang hc⟩, operandDirect_hangs hl hc⟩
    · right; right; exact ⟨a, s.sir, s.draws, s.devLog, Nat.le_refl _, by omega, operandDirect_illegal (by omega)⟩
  cases i with
  | ldiv p =>
    by_cases hl : p.toNat < s.cfg.memSize
    · by_cases hc : ReadAnswers s p
      · by_cases h2 : (dataRead s p).1.toNat < s.cfg.memSize
        · by_cases hc2 : ReadAnswers (afterDataRead s p) (dataRead s p).1
          · left
            exact ⟨_, _, _, _, Nat.le_trans (draws_le_dataRead s p) (draws_le_dataRead (afterDataRead s p) _),
              operandIndirect_legal hl hc h2 hc2⟩
          · right; left; exact ⟨⟨_, draws_le_dataRead s p, hang hc2⟩, operandIndirect_hangsPointee hl hc h2 hc2⟩
        · right; right
          exact ⟨_, _, _, _, draws_le_dataRead s p, by omega, operandIndirect_illegalPointee hl hc (by omega)⟩
      · right; left; exact ⟨⟨_, Nat.le_refl _, hang hc⟩, operandIndirect_hangsPointer hl hc⟩
    · right; right; exact ⟨p, s.sir, s.draws, s.devLog, Nat.le_refl _, by omega, operandIndirect_illegal (by omega)⟩
  | ldv | add | and | or | xor | eql => exact direct _
  | stv | jmp | jmn => left; exact ⟨_, s.sir, s.draws, s.devLog, Nat.le_refl _, rfl⟩
  | ldc | hlt | not | rar | rrn => left; exact ⟨s.sar, s.sir, s.draws, s.devLog, Nat.le_refl _, rfl⟩

/-- EXECUTE (R126, R127): registers only, or STV's store, or STV's callback that never returns, or STV's bounds fault, or the
ALU's stop. -/
theorem executePhase_cases (i : Instr) (s : State) :
    ((∀ b, i ≠ .stv b) ∧ ∃ a x y z iar run,
      executePhase i s = .done { s with acc := a, x := x, y := y, z := z, iar := iar, run := run }) ∨
    (∃ a m v d l, i = .stv a ∧ s.draws ≤ d ∧ s.sar.toNat < s.cfg.memSize ∧
      executePhase i s = .done { s with sir := v, mem := m, draws := d, devLog := l } ∧
      (m = s.mem ∨ m = Memory.write s.mem s.sar.toNat s.acc)) ∨
    (∃ a, i = .stv a ∧ s.sar.toNat < s.cfg.memSize ∧ s.sar ∈ s.cfg.writeDev ∧ s.stallsAt = some s.draws ∧
      executePhase i s = .stuck .callbackNeverReturns) ∨
    (∃ a, i = .stv a ∧ s.cfg.memSize ≤ s.sar.toNat ∧
      executePhase i s = .raised (afterBoundsFault { s with sir := s.acc })) ∨
    (i.op ∈ [.add, .and, .or, .xor, .eql] ∧ alu s.aluop s.acc s.sir = none ∧
      executePhase i s = .stuck .aluNotSelected) := by
  have aluCase : (∀ b, i ≠ .stv b) → i.op ∈ [.add, .and, .or, .xor, .eql] → executePhase i s = executeAlu s →
      ((∀ b, i ≠ .stv b) ∧ ∃ a x y z iar run,
        executePhase i s = .done { s with acc := a, x := x, y := y, z := z, iar := iar, run := run }) ∨
      (i.op ∈ [.add, .and, .or, .xor, .eql] ∧ alu s.aluop s.acc s.sir = none ∧
        executePhase i s = .stuck .aluNotSelected) := fun h1 h2 e => by
    rcases ha : alu s.aluop s.acc s.sir with _ | v
    · right; exact ⟨h2, rfl, e.trans (by unfold executeAlu; rw [ha])⟩
    · left; exact ⟨h1, _, _, _, _, s.iar, s.run, e.trans (by unfold executeAlu; rw [ha])⟩
  cases i with
  | add | and | or | xor | eql =>
    rcases aluCase (by simp) (by simp [Instr.op]) rfl with h | h
    · exact .inl h
    · exact .inr (.inr (.inr (.inr h)))
  | stv a =>
    right
    by_cases hl : s.sar.toNat < s.cfg.memSize
    · by_cases hd : s.sar ∈ s.cfg.writeDev
      · have hw : State.writesDevice { s with sir := s.acc } s.sar = true := by simpa [State.writesDevice] using hd
        rcases Bool.eq_false_or_eq_true s.callbackReturns with hc | hc
        · left
          exact ⟨a, _, _, _, _, rfl, Nat.le_succ _, hl,
            memWrite_device (s := { s with sir := s.acc }) (decide_eq_true hl) hw hc, .inl rfl⟩
        · right; left
          exact ⟨a, rfl, hl, hd, (callbackReturns_eq_false s).mp hc,
            memWrite_stalls (s := { s with sir := s.acc }) (decide_eq_true hl) hw hc⟩
      · left
        exact ⟨a, _, _, s.draws, s.devLog, rfl, Nat.le_refl _, hl,
          memWrite_plain (s := { s with sir := s.acc }) (decide_eq_true hl) (by simpa [State.writesDevice] using hd), .inr rfl⟩
    · right; right; left
      exact ⟨a, rfl, by omega, memWrite_outOfBounds (s := { s with sir := s.acc }) (decide_eq_false hl)⟩
  | jmn t =>
    left; refine ⟨by simp, s.acc, s.x, s.y, s.z, if s.negative then t else s.iar, s.run, ?_⟩
    simp only [executePhase, executeJmn]; split <;> rfl
  | ldc | ldv | jmp | ldiv | hlt | not | rar | rrn => left; exact ⟨by simp, _, s.x, s.y, s.z, _, _, rfl⟩

/-- A micro-step counts its callbacks upwards and never writes which one stalls (R128). -/
theorem microStep_draws {s t : State} (h : microStep s = .next t) : s.draws ≤ t.draws ∧ t.stallsAt = s.stallsAt := by
  rcases idle_or_running s with hid | ⟨hr, hf⟩
  · rw [microStep_of_idle hid] at h; cases h; exact ⟨Nat.le_refl _, rfl⟩
  cases hu : s.uc with
  | fetchAddr => rw [microStep_fetchAddr hr hf hu] at h; cases h; exact ⟨Nat.le_refl _, rfl⟩
  | fetchData =>
    rw [microStep_fetchData hr hf hu] at h
    rcases fetchData_cases s with ⟨_, _, _, hd, e⟩ | ⟨-, -, -, e⟩ | ⟨-, e⟩ <;> rw [e] at h <;> cases h
    · exact ⟨hd, rfl⟩
    · exact ⟨Nat.le_refl _, rfl⟩
  | decode =>
    rw [microStep_decode hr hf hu] at h; cases h
    rcases decodeStep_cases s with ⟨_, -, e⟩ | ⟨-, e⟩ <;> rw [e] <;> exact ⟨Nat.le_refl _, rfl⟩
  | operand =>
    cases hi : s.ci with
    | none => simp [microStep, idle_eq_false hr hf, hu, operandStep, hi] at h
    | some i =>
      rw [microStep_operand hr hf hu hi] at h
      rcases operandPhase_cases i s with ⟨_, _, _, _, hd, e⟩ | ⟨-, e⟩ | ⟨_, _, _, _, hd, -, e⟩ <;> rw [e] at h <;> cases h
      · exact ⟨hd, rfl⟩
      · exact ⟨hd, rfl⟩
  | execute =>
    cases hi : s.ci with
    | none => simp [microStep, idle_eq_false hr hf, hu, executeStep, hi] at h
    | some i =>
      rw [microStep_execute hr hf hu hi] at h
      rcases executePhase_cases i s with ⟨-, _, _, _, _, _, _, e⟩ | ⟨_, _, _, _, _, -, hd, -, e, -⟩ | ⟨_, -, -, -, -, e⟩ |
        ⟨_, -, -, e⟩ | ⟨-, -, e⟩ <;> rw [e] at h <;> cases h
      · exact ⟨Nat.le_refl _, rfl⟩
      · exact ⟨hd, rfl⟩
      · exact ⟨Nat.le_refl _, rfl⟩

/-! ### The rotation (00_scope R9) -/

/-- `ror32` is the rotation of BitVec. -/
theorem ror32_eq_rotateRight (v : Word) {n : Nat} (hn : n < 32) : ror32 v n = v.rotateRight n := by
  simp [ror32, BitVec.rotateRight, BitVec.rotateRightAux, Nat.mod_eq_of_lt hn]

end Sys2Proof.Machine
end

