-- ==== Sys2Proof/Laws/HostPort.lean ====
section
/-!
SUPPORT. The host control port: when a call is admitted, and everything loading, binding, one round of free-run and a lifecycle
operation can do (60_exceptions R251, R252; 70_reset R263 to R266; 40_microcycle R135, R137).
-/

namespace Sys2Proof.Machine

/-! ### Before execution (60_exceptions R252) -/

theorem fresh_iff (s : State) : s.fresh = true ↔ s.uc = .fetchAddr ∧ s.ci = none ∧ s.fault = .none := by
  simp [State.fresh, and_assoc]

theorem beforeExecution_iff (s : State) : s.beforeExecution = true ↔ s.fresh = true ∧ s.run = false := by
  simp [State.beforeExecution]

theorem beforeExecutionOnly_admitted {s : State} (h : s.beforeExecution = true) (call : State → State × HostReply) :
    beforeExecutionOnly call s = call s := by
  simp [beforeExecutionOnly, h]

theorem beforeExecutionOnly_refused {s : State} (h : s.beforeExecution = false) (call : State → State × HostReply) :
    beforeExecutionOnly call s = (s, .refused) := by
  simp [beforeExecutionOnly, h]

/-- Everything a guarded call can do. -/
theorem beforeExecutionOnly_cases (call : State → State × HostReply) (s : State) :
    (s.beforeExecution = true ∧ beforeExecutionOnly call s = call s) ∨
    (s.beforeExecution = false ∧ beforeExecutionOnly call s = (s, .refused)) := by
  rcases Bool.eq_false_or_eq_true s.beforeExecution with h | h
  · exact .inl ⟨h, beforeExecutionOnly_admitted h call⟩
  · exact .inr ⟨h, beforeExecutionOnly_refused h call⟩

/-! ### Loading and binding -/

/-- Everything placing an image can do (70_reset R265). -/
theorem placeImage_cases (im : ProgramImage) (s : State) :
    (im.fits s = true ∧ placeImage im s = (writeImage im s, .ok)) ∨ (im.fits s = false ∧ placeImage im s = (s, .refused)) := by
  cases h : im.fits s
  · exact .inr ⟨rfl, by simp [placeImage, h]⟩
  · exact .inl ⟨rfl, by simp [placeImage, h]⟩

/-- Placing what a compilation gave writes the image, or nothing (70_reset R264). -/
theorem placeCompiled_state (r : Except AsmError ProgramImage) (s : State) :
    (placeCompiled r s).1 = s ∨ ∃ im, im.fits s = true ∧ (placeCompiled r s).1 = writeImage im s := by
  unfold placeCompiled
  split
  · exact .inl rfl
  · split
    · exact .inl rfl
    · rename_i im _
      rcases placeImage_cases im s with ⟨h, e⟩ | ⟨-, e⟩
      · exact .inr ⟨im, h, by rw [e]⟩
      · exact .inl (by rw [e])

/-- Everything binding a read callback can do (60_exceptions R251). -/
theorem bindRead_cases (a : Word) (s : State) :
    (a ∈ s.cfg.readDev ∧ bindRead a s = (s, .alreadyRegistered)) ∨
    (a ∉ s.cfg.readDev ∧ bindRead a s = ({ s with cfg := { s.cfg with readDev := a :: s.cfg.readDev } }, .ok)) := by
  by_cases h : a ∈ s.cfg.readDev <;> simp [bindRead, h]

/-- Everything binding a write callback can do (60_exceptions R251). -/
theorem bindWrite_cases (a : Word) (s : State) :
    (a ∈ s.cfg.writeDev ∧ bindWrite a s = (s, .alreadyRegistered)) ∨
    (a ∉ s.cfg.writeDev ∧ bindWrite a s = ({ s with cfg := { s.cfg with writeDev := a :: s.cfg.writeDev } }, .ok)) := by
  by_cases h : a ∈ s.cfg.writeDev <;> simp [bindWrite, h]

/-! ### Free-run (40_microcycle R135) -/

theorem freeRun_faulted {s : State} (h : s.fault ≠ .none) (fuel : Nat) (stops : List Bool) :
    freeRun fuel stops s = .next (s, .faulted) := by
  unfold freeRun; rw [if_pos h]

theorem freeRun_halted {s : State} (h : s.fault = .none) (hr : s.run = false) (fuel : Nat) (stops : List Bool) :
    freeRun fuel stops s = .next (s, .halted) := by
  unfold freeRun; simp [h, hr]

/-- One round of free-run that passes its boundary. -/
theorem freeRun_passes {s t : State} {fuel : Nat} {stops : List Bool} (h : s.fault = .none) (hr : s.run = true)
    (hs : step s = .next t) (hf : t.fault = .none) (ht : t.run = true) (hb : t.atBreakpoint = false)
    (hq : stops.headD false = false) : freeRun (fuel + 1) stops s = freeRun fuel stops.tail t := by
  rw [freeRun]; simp only [h, hr, hs, hf, ht, hb, hq]; rfl

/-! ### The lifecycle (70_reset R263) -/

@[simp] theorem portCall_released (c : PortCall) : portCall c .released = .next (.released, .refused) := rfl

@[simp] theorem portCall_teardown (s : State) : portCall .teardown (.live s) = .next (.released, .ok) := rfl

/-- An operation on a live machine other than teardown is the host call's. -/
theorem portCall_next {c : HostCall} {s t : State} {r : HostReply} (h : hostCall c s = .next (t, r)) :
    portCall (.call c) (.live s) = .next (.live t, r) := by
  simp [portCall, keepLive, h]

theorem portCall_fault {c : HostCall} {s : State} {e : Fault} (h : hostCall c s = .fault e) :
    portCall (.call c) (.live s) = .fault e := by
  simp [portCall, keepLive, h]

/-- Everything a lifecycle operation that answers can do: refused on a released machine, a host call on a live one, or teardown. -/
theorem portCall_cases {p : PortCall} {m m' : Hosted} {r : HostReply} (h : portCall p m = .next (m', r)) :
    (m = .released ∧ m' = .released ∧ r = .refused) ∨
    (∃ c s t, p = .call c ∧ m = .live s ∧ m' = .live t ∧ hostCall c s = .next (t, r)) ∨
    (∃ s, p = .teardown ∧ m = .live s ∧ m' = .released ∧ r = .ok) := by
  cases m with
  | released => cases h; exact .inl ⟨rfl, rfl, rfl⟩
  | live s =>
    cases p with
    | teardown => cases h; exact .inr (.inr ⟨s, rfl, rfl, rfl, rfl⟩)
    | call c =>
      cases hc : hostCall c s with
      | next q => rw [portCall_next hc] at h; cases h; exact .inr (.inl ⟨c, s, q.1, rfl, rfl, rfl, hc⟩)
      | fault e => rw [portCall_fault hc] at h; cases h
      | refused e => simp [portCall, keepLive, hc] at h

end Sys2Proof.Machine
end

