-- ==== Sys2Proof/Laws/PerInstr.lean ====
section
/-!
SUPPORT. One lemma per instruction: the source's record and the instruction agree (30_encoding R95, R98).
-/

namespace Sys2Proof.Laws.RecordRoundTrip

/-- The record of an instruction stands for it again, is valid exactly when the instruction is, and its family bit says which
of the two opcode tables holds its opcode. -/
def Statement (i : Instr) : Prop :=
  i.toRecord.toInstr = some i ∧ i.op.instr i.operand = i ∧ i.toRecord.valid = i.wf ∧
    (i.toRecord.ext = true ↔ i.op ∈ extOpcodes) ∧ (i.toRecord.ext = false ↔ i.op ∈ basicOpcodes)

/-- The two opcode tables partition the opcodes by family (00_scope R2, 30_encoding R98). -/
theorem opcode_tables (op : Opcode) :
    (op.ext = true ↔ op ∈ extOpcodes) ∧ (op.ext = false ↔ op ∈ basicOpcodes) := by
  cases op <;> decide

/-- An instruction's record is valid exactly when the instruction is (30_encoding R98). -/
theorem record_valid (i : Instr) : i.toRecord.valid = i.wf := by
  cases i <;> rfl

theorem ldc (c : Word) : Statement (.ldc c) := ⟨rfl, rfl, record_valid _, opcode_tables .ldc⟩
theorem ldv (a : Word) : Statement (.ldv a) := ⟨rfl, rfl, record_valid _, opcode_tables .ldv⟩
theorem stv (a : Word) : Statement (.stv a) := ⟨rfl, rfl, record_valid _, opcode_tables .stv⟩
theorem add (a : Word) : Statement (.add a) := ⟨rfl, rfl, record_valid _, opcode_tables .add⟩
theorem and (a : Word) : Statement (.and a) := ⟨rfl, rfl, record_valid _, opcode_tables .and⟩
theorem or (a : Word) : Statement (.or a) := ⟨rfl, rfl, record_valid _, opcode_tables .or⟩
theorem xor (a : Word) : Statement (.xor a) := ⟨rfl, rfl, record_valid _, opcode_tables .xor⟩
theorem eql (a : Word) : Statement (.eql a) := ⟨rfl, rfl, record_valid _, opcode_tables .eql⟩
theorem jmp (t : Word) : Statement (.jmp t) := ⟨rfl, rfl, record_valid _, opcode_tables .jmp⟩
theorem jmn (t : Word) : Statement (.jmn t) := ⟨rfl, rfl, record_valid _, opcode_tables .jmn⟩
theorem ldiv (p : Word) : Statement (.ldiv p) := ⟨rfl, rfl, record_valid _, opcode_tables .ldiv⟩
theorem hlt (n : Word) : Statement (.hlt n) := ⟨rfl, rfl, record_valid _, opcode_tables .hlt⟩
theorem not (n : Word) : Statement (.not n) := ⟨rfl, rfl, record_valid _, opcode_tables .not⟩
theorem rar (n : Word) : Statement (.rar n) := ⟨rfl, rfl, record_valid _, opcode_tables .rar⟩
theorem rrn (n : Word) : Statement (.rrn n) := ⟨rfl, rfl, record_valid _, opcode_tables .rrn⟩

end Sys2Proof.Laws.RecordRoundTrip
end

