-- ==== Sys2Proof/Tests/Slice0.lean ====
section
/-!
SUPPORT. The model's own tests. Expected results come from 95_test_vectors, whose row each test names, or are computed by hand
from the rule named. Then one witness theorem for each obligation that has hypotheses.
-/

namespace Sys2Proof.Tests

open Sys2Proof Sys2Proof.Machine

/-! ### Helpers -/

/-- The next state of an outcome, if it is one. -/
def next? (o : Host.Outcome State Fault Refusal) : Option State :=
  match o with
  | .next s => some s
  | .fault _ => none
  | .refused _ => none

/-- Whether an outcome is a next state with a property. -/
def reachesB (o : Host.Outcome State Fault Refusal) (p : State → Bool) : Bool := (next? o).any p

theorem reaches {o : Host.Outcome State Fault Refusal} (p : State → Bool) (h : reachesB o p = true) :
    ∃ t, o = .next t ∧ p t = true := by
  cases o with
  | next t => exact ⟨t, rfl, h⟩
  | fault e => exact absurd h (by simp [reachesB, next?])
  | refused e => exact absurd h (by simp [reachesB, next?])

/-- A running machine at reset otherwise, with MEM_SIZE = 1024, the default of 95_test_vectors. -/
def machine (cells : List Cell) : State :=
  { State.reset with run := true, mem := cells, cfg := { Config.default with memSize := 1024 } }

/-- One step with a word at address 0, a value of ACC and further cells. -/
def stepWord (w acc : Word) (cells : List Cell) : Option State :=
  next? (step { machine (Memory.write cells 0 w) with acc := acc })

/-- The reason free-run gives. -/
def reason? (o : Host.Outcome (State × StopReason) Fault Refusal) : Option StopReason :=
  match o with
  | .next p => some p.2
  | .fault _ => none
  | .refused _ => none

/-- The reply of a host call. -/
def reply? (o : Host.Outcome (State × HostReply) Fault Refusal) : Option HostReply :=
  match o with
  | .next p => some p.2
  | .fault _ => none
  | .refused _ => none

/-- The reply of a lifecycle operation. -/
def portReply? (o : Host.Outcome (Hosted × HostReply) Fault Refusal) : Option HostReply :=
  match o with
  | .next p => some p.2
  | .fault _ => none
  | .refused _ => none

/-- The model's reason to stop, if an outcome is a stop. -/
def stop? (o : Host.Outcome State Fault Refusal) : Option Fault :=
  match o with
  | .next _ => none
  | .fault e => some e
  | .refused _ => none

/-! ### WellFormed refuses ill-formed terms (30_encoding R92, R98; E12, E13) -/

theorem test_wf_basic_operand : (Instr.ldc 0x100000).wf = false ∧ (Instr.ldc 0xFFFFF).wf = true := by decide
theorem test_wf_extended_operand : (Instr.rrn 0x10000).wf = false ∧ (Instr.rrn 0xFFFF).wf = true := by decide
theorem test_wf_record_family : (InstrRecord.mk .hlt 0 false).valid = false ∧ (InstrRecord.mk .hlt 0 true).valid = true := by
  decide
theorem test_wf_record_operand : (InstrRecord.mk .ldc 0x100000 false).valid = false := by decide
theorem test_wf_map_duplicate_basic : ({ OpcodeMap.default with ldv := 0x0 } : OpcodeMap).valid = false := by decide
theorem test_wf_map_marker : ({ OpcodeMap.default with ldiv := 0xF } : OpcodeMap).valid = false := by decide
theorem test_wf_map_duplicate_extended : ({ OpcodeMap.default with rrn := 0x0 } : OpcodeMap).valid = false := by decide

/-! ### Decoding: every constructor's word, written out from R82, R83 and the default table of R91 -/

/-- `{op4 : 4, 0 : 8, a20 : 20}` (R82). -/
theorem test_decode_basic_words :
    decode 0b0000_0000_0000_00000000000000000101 = .ok (.ldc 5) ∧
    decode 0b0001_0000_0000_00000000000001100100 = .ok (.ldv 100) ∧
    decode 0b0010_0000_0000_00000000000001100100 = .ok (.stv 100) ∧
    decode 0b0011_0000_0000_11111111111111111111 = .ok (.add 0xFFFFF) ∧
    decode 0b0100_0000_0000_00000000000000000111 = .ok (.and 7) ∧
    decode 0b0101_0000_0000_00000000000000000111 = .ok (.or 7) := by decide
theorem test_decode_more_basic_words :
    decode 0b0110_0000_0000_00000000000000000111 = .ok (.xor 7) ∧
    decode 0b0111_0000_0000_00000000000000000111 = .ok (.eql 7) ∧
    decode 0b1000_0000_0000_00000000000000000111 = .ok (.jmp 7) ∧
    decode 0b1001_0000_0000_00000000000000000101 = .ok (.jmn 5) ∧
    decode 0b1010_0000_0000_00000000000010010110 = .ok (.ldiv 150) := by decide
/-- `{0b1111 : 4, xop4 : 4, 0 : 8, n16 : 16}` (R83). -/
theorem test_decode_extended_words :
    decode 0b1111_0000_0000_0000_1111111111111111 = .ok (.hlt 0xFFFF) ∧
    decode 0b1111_0001_0000_0000_0000000000000000 = .ok (.not 0) ∧
    decode 0b1111_0010_0000_0000_0000000000000001 = .ok (.rar 1) ∧
    decode 0b1111_0011_0000_0000_0001001000110100 = .ok (.rrn 0x1234) := by decide
/-- E6, E7. -/
theorem test_decode_unassigned :
    decode 0xB0000000 = .error (.invalidOpcode 0xB0000000) ∧ decode 0xE0000000 = .error (.invalidOpcode 0xE0000000) ∧
    decode 0xF4000000 = .error (.invalidOpcode 0xF4000000) ∧ decode 0xFF000000 = .error (.invalidOpcode 0xFF000000) := by
  decide
/-- E8, E9, E10, E14. -/
theorem test_decode_reserved :
    decode 0x00100000 = .error (.invalidOpcode 0x00100000) ∧ decode 0x0FFFFFFF = .error (.invalidOpcode 0x0FFFFFFF) ∧
    decode 0xF0010000 = .error (.invalidOpcode 0xF0010000) ∧ decode 0xFFFFFFFF = .error (.invalidOpcode 0xFFFFFFFF) := by
  decide
/-- E11, E12, E13, and E5's encode. -/
theorem test_encode :
    encode (.jmp 0xFFFFF) = .ok 0x800FFFFF ∧ encode (.hlt 0xFFFF) = .ok 0xF000FFFF ∧
    encode (.ldc 0x100000) = .error .operandOverflow ∧ encode (.rrn 0x10000) = .error .operandOverflow ∧
    encodeRecord OpcodeMap.default (InstrRecord.mk .hlt 0 false) = .error .familyMismatch := by decide
theorem test_decode_table_word :
    decodeTableWord 32 0xF3001234 = some (.rrn 0x1234) ∧ decodeTableWord 32 0xB0000000 = none := by decide

/-! ### Arithmetic and logic -/

/-- A2. -/
theorem test_add_wraps : (stepWord 0x30000007 0xFFFFFFFF [(7, 1)]).map State.acc = some 0 := by decide
/-- A1, with its X, Y, Z. -/
theorem test_add_latches :
    (stepWord 0x30000007 5 [(7, 3)]).map (fun s => (s.x, s.y, s.z, s.acc)) = some (5, 3, 8, 8) := by decide
/-- A5. -/
theorem test_and : (stepWord 0x40000007 0xF0F0F0F0 [(7, 0xFF00FF00)]).map State.acc = some 0xF000F000 := by decide
/-- A6. -/
theorem test_or : (stepWord 0x50000007 0xF0F0F0F0 [(7, 0xFF00FF00)]).map State.acc = some 0xFFF0FFF0 := by decide
/-- A7. -/
theorem test_xor : (stepWord 0x60000007 0xF0F0F0F0 [(7, 0xFF00FF00)]).map State.acc = some 0x0FF00FF0 := by decide
/-- A8. -/
theorem test_eql_equal : (stepWord 0x70000007 0 []).map State.acc = some 0xFFFFFFFF := by decide
/-- A9. -/
theorem test_eql_unequal : (stepWord 0x70000007 0x80000000 []).map State.acc = some 0 := by decide

/-! ### Load and store -/

/-- L2. -/
theorem test_ldc_zero_extends : (stepWord 0x000FFFFF 0 []).map State.acc = some 0x000FFFFF := by decide
/-- L3. -/
theorem test_ldv :
    (stepWord 0x10000064 0 [(100, 5)]).map (fun s => (s.acc, s.sar, s.sir)) = some (5, 100, 5) := by decide
/-- L4. -/
theorem test_ldiv :
    (stepWord 0xA0000096 0 [(150, 200), (200, 42)]).map (fun s => (s.acc, s.sar, s.sir)) = some (42, 200, 42) := by decide
/-- D3: the pointer is out of range, and the bounds check comes before the device. -/
theorem test_ldiv_out_of_range :
    (next? (step { machine [(0, 0xA000003C), (60, 2000)] with
      cfg := { Config.default with memSize := 1024, readDev := [2000] } })).map
        (fun s => (s.fault, s.faultInfo, s.draws, s.uc)) = some (.outOfBounds, 2000, 0, .operand) := by decide
/-- L6. -/
theorem test_stv :
    (stepWord 0x20000064 5 []).map (fun s => (Memory.read s.mem 100, s.sar, s.sir, s.acc)) = some (5, 100, 5, 5) := by decide
/-- F3: no memory cell written, UC in EXECUTE, SIR already ACC. -/
theorem test_stv_out_of_range :
    (stepWord 0x20000400 9 []).map (fun s => (s.fault, s.faultInfo, s.sir, s.uc)) = some (.outOfBounds, 1024, 9, .execute) ∧
    (stepWord 0x20000400 9 []).map State.mem = some [(0, 0x20000400)] := by decide

/-! ### Control -/

/-- C1. -/
theorem test_jmp : (stepWord 0x80000007 0 []).map (fun s => (s.iar, s.sar)) = some (7, 7) := by decide
/-- C3. -/
theorem test_jmn_taken : (stepWord 0x90000005 0x80000000 []).map State.iar = some 5 := by decide
/-- C4: not taken, the target staged all the same. -/
theorem test_jmn_not_taken : (stepWord 0x90000005 0x7FFFFFFF []).map (fun s => (s.iar, s.sar)) = some (1, 5) := by decide
/-- C7. -/
theorem test_hlt :
    (stepWord 0xF000FFFF 3 []).map (fun s => (s.run, s.iar, s.uc, s.fault, s.acc)) = some (false, 1, .fetchAddr, .none, 3) := by
  decide

/-! ### Accumulator -/

/-- R1 of 95_test_vectors, with X, Y, Z unchanged and SAR, SIR the instruction's own. -/
theorem test_not :
    (stepWord 0xF1000000 0x12345678 []).map (fun s => (s.acc, s.z, s.sir, s.sar)) = some (0xEDCBA987, 0, 0xF1000000, 0) := by
  decide
/-- R4. -/
theorem test_rar : (stepWord 0xF2000000 0x12345678 []).map State.acc = some 0x091A2B3C := by decide
/-- R5. -/
theorem test_rar_wraps : (stepWord 0xF2000000 1 []).map State.acc = some 0x80000000 := by decide
/-- R9: 36 mod 32 = 4. -/
theorem test_rrn : (stepWord 0xF3000024 0x12345678 []).map State.acc = some 0x81234567 := by decide
/-- R11 and R12: by 31, by 0. -/
theorem test_rrn_ends :
    (stepWord 0xF300FFFF 0x12345678 []).map State.acc = some 0x2468ACF0 ∧
    (stepWord 0xF3000000 0x12345678 []).map State.acc = some 0x12345678 := by decide

/-! ### The micro-cycle, faults, devices, the host -/

/-- M5. -/
theorem test_decode_latches :
    (next? (microStep { machine [] with uc := .decode, ir := 0xA0000096 })).map (fun s => (s.ci, s.tra, s.aluop, s.uc)) =
      some (some (.ldiv 150), true, .none, .operand) := by decide
/-- M9. -/
theorem test_fetch_wraps :
    (next? (stepMicro 2 { State.reset with run := true, iar := 0xFFFFFFFF })).map (fun s => (s.iar, s.ir, s.uc)) =
      some (0, 0, .decode) := by decide
/-- F1's last instruction: an unassigned opcode. -/
theorem test_illegal_instruction :
    (stepWord 0xB0000000 0 []).map (fun s => (s.fault, s.faultInfo, s.ir, s.iar, s.uc)) =
      some (.illegalInstruction, 0xB0000000, 0xB0000000, 1, .decode) := by decide
/-- F2's end: a fetch out of range. -/
theorem test_fetch_out_of_range :
    (next? (step { machine [] with iar := 1024 })).map (fun s => (s.fault, s.faultInfo, s.sar, s.iar, s.uc)) =
      some (.outOfBounds, 1024, 1024, 1024, .fetchData) := by decide
/-- D1: the device supplies ACC and SIR, MEM is unchanged. -/
theorem test_device_read :
    (next? (step { machine [(0, 0x100001F4), (500, 0x11111111)] with
      cfg := { Config.default with memSize := 1024, readDev := [500] } })).map
        (fun s => (s.acc, Memory.read s.mem 500)) = some (Config.freeWord 0, 0x11111111) := rfl
/-- D2: the device receives ACC, MEM is unchanged. -/
theorem test_device_write :
    (next? (step { machine [(0, 0x200001F5)] with
      acc := 65, cfg := { Config.default with memSize := 1024, writeDev := [501] } })).map
        (fun s => (s.devLog, s.mem)) = some ([.write 501 65], [(0, 0x200001F5)]) := by decide
/-- D5: the fetch reads memory when IO_READ_ON_FETCH is false. -/
theorem test_fetch_not_device :
    (next? (step { machine [(0, 0x00000005)] with
      cfg := { Config.default with memSize := 1024, readDev := [0], ioReadOnFetch := false } })).map State.acc =
        some 5 := by decide
/-- D6: the duplicate registration, before running. -/
theorem test_register_twice :
    reply? (hostCall (.registerRead 500) { State.reset with cfg := { Config.default with readDev := [500] } }) =
      some .alreadyRegistered := by decide
/-- 60_exceptions R252: no registration while RUN is true, no load after the first micro-step even when paused, and a load after
initialisation. -/
theorem test_load_before_execution :
    reply? (hostCall (.registerRead 500) (machine [])) = some .refused ∧
    ((next? (microStep (machine []))).map fun s =>
      reply? (hostCall (.loadImage { writes := [(0, 5)], entry := 0 }) { s with run := false })) = some (some .refused) ∧
    ((next? (microStep (machine []))).map fun s =>
      reply? (hostCall (.loadImage { writes := [(0, 5)], entry := 0 }) (initialise 1024 s))) = some (some .ok) := by decide
/-- 70_reset R272: `LDV 500` hangs in OPERAND when the callback of 500 does not return, and is not hung by a later one. -/
theorem test_callback_stalls :
    stop? (step { machine [(0, 0x100001F4)] with
      cfg := { Config.default with memSize := 1024, readDev := [500] }, stallsAt := some 0 }) =
        some .callbackNeverReturns ∧
    ((next? (step { machine [(0, 0x100001F4)] with
      cfg := { Config.default with memSize := 1024, readDev := [500] }, stallsAt := some 1 })).map State.draws) = some 1 := by
  decide
/-- 00_scope R6: MEM_SIZE in 1 .. 2^32; outside it the call is refused (log 19). -/
theorem test_initialise_range :
    reply? (hostCall (.initialise 0) State.reset) = some .refused ∧
    reply? (hostCall (.initialise (2 ^ 32 + 1)) State.reset) = some .refused ∧
    reply? (hostCall (.initialise (2 ^ 32)) State.reset) = some .ok := by decide
/-- 70_reset R263: a released machine refuses a step, initialisation and a second teardown. -/
theorem test_teardown :
    [PortCall.call .microStep, .call (.initialise 1024), .teardown].all (fun p =>
      match portCall .teardown (.live (machine [])) with
      | .next (m, r) => r = .ok && m = .released && portReply? (portCall p m) = some .refused
      | .fault _ => false
      | .refused _ => false) = true := by decide
/-- H7: a stop request ends free-run after one instruction. -/
theorem test_stop_request :
    reply? (hostCall (.run 3 [true]) (machine [(0, 0x80000000)])) = some (.returned .stopped .none 0) := by decide
/-- H8. -/
theorem test_query_breakpoint :
    reply? (hostCall .queryBreakpoint { machine [] with cfg := { Config.default with breakpoints := [0] } }) =
      some (.hit true) := by decide
/-- F6: set_run on a faulted machine. -/
theorem test_set_run_refused :
    reply? (hostCall (.setRun true) { machine [] with fault := .outOfBounds, run := false }) = some .refused := by decide
/-- F7: a faulted machine is initialised. -/
theorem test_initialise :
    initialise 1024 { machine [] with fault := .outOfBounds, run := false, acc := 7, uc := .operand } =
      { machine [] with run := false } := by decide
/-- The placing of an instruction: `LDC 5` runs as the first instruction after reset (L1). -/
theorem test_first_instruction : (next? (step (State.reset.withFetchWord 32 0x00000005))).map State.acc = some 5 := by decide

/-! ### The assembler -/

/-- S-1, S-3. -/
theorem test_assemble_labels :
    assemble OpcodeMap.default "loop: JMP loop".toList = .ok [0x80000000] ∧
    assemble OpcodeMap.default "JMP end\nend: HLT".toList = .ok [0x80000001, 0xF0000000] := by decide
/-- S-2, S-4. -/
theorem test_assemble_blank :
    assemble OpcodeMap.default "  add 0x10 ; comment".toList = .ok [0x30000010] ∧
    assemble OpcodeMap.default "\n; only a comment\nHLT".toList = .ok [0xF0000000] := by decide
/-- S-5, S-14. -/
theorem test_assemble_optional :
    assemble OpcodeMap.default "HLT\nHLT 5\nNOT\nRAR 1".toList = .ok [0xF0000000, 0xF0000005, 0xF1000000, 0xF2000001] ∧
    assemble OpcodeMap.default "ADD: ADD ADD".toList = .ok [0x30000000] := by decide
/-- S-6, S-7. -/
theorem test_assemble_label_errors :
    assemble OpcodeMap.default "x: LDC 1\nx: LDC 2".toList = .error (.duplicateLabel 2 "x".toList) ∧
    assemble OpcodeMap.default "JMP nowhere".toList = .error (.undefinedLabel 1 "nowhere".toList) := by decide
/-- S-8, S-12. -/
theorem test_assemble_unknown :
    assemble OpcodeMap.default "FOO 1".toList = .error (.unknownOpcode 1 "FOO".toList) ∧
    assemble OpcodeMap.default "JMP nowhere\nFOO".toList = .error (.unknownOpcode 2 "FOO".toList) := by decide
/-- S-9, S-10. -/
theorem test_assemble_overflow :
    assemble OpcodeMap.default "LDC 1048576".toList = .error (.operandOverflow 1 1048576) ∧
    assemble OpcodeMap.default "RRN 65536".toList = .error (.operandOverflow 1 65536) := by decide
/-- S-11. -/
theorem test_assemble_syntax :
    assemble OpcodeMap.default "LDC".toList = .error (.syntaxError 1) ∧
    assemble OpcodeMap.default "LDC -1".toList = .error (.syntaxError 1) ∧
    assemble OpcodeMap.default "LDC 1 2".toList = .error (.syntaxError 1) ∧
    assemble OpcodeMap.default "lbl:".toList = .error (.syntaxError 1) := by decide
/-- The model's choice of log 29: a word that begins with a digit is no mnemonic and no name. -/
theorem test_assemble_digit_word : assemble OpcodeMap.default "1ADD 5".toList = .error (.syntaxError 1) := by decide
/-- S-13. -/
theorem test_assemble_case :
    assemble OpcodeMap.default "Loop: jmp Loop".toList = .ok [0x80000000] ∧
    assemble OpcodeMap.default "loop: JMP Loop".toList = .error (.undefinedLabel 1 "Loop".toList) := by decide
/-- S-15 on a smaller memory: two instructions, MEM_SIZE = 1. -/
theorem test_load_too_long :
    reply? (hostCall (.compileFromText "HLT\nHLT".toList) { State.reset with cfg := { Config.default with memSize := 1 } }) =
      some (.outOfBounds 1) := by decide

/-- A word's bytes in the two orders, by hand from the meaning of the byte orders. -/
theorem test_word_bytes :
    wordBytes .big 0x12345678 = [0x12, 0x34, 0x56, 0x78] ∧ wordBytes .little 0x12345678 = [0x78, 0x56, 0x34, 0x12] ∧
    deserialise .big [0x12, 0x34, 0x56] = none := by decide

/-! ### Witnesses: for each obligation with hypotheses, concrete inputs that meet them together, clause by clause -/

/-- A machine at a position past DECODE with an active instruction. -/
def active (u : MicroPos) (i : Instr) (cells : List Cell) : State :=
  { machine cells with uc := u, ci := some i, tra := traOf i, aluop := aluSelOf i, sar := i.operand }

/-- `machine` with devices behind addresses 500 (read) and 501 (write). -/
def withDevices (cells : List Cell) : State :=
  { machine cells with cfg := { Config.default with memSize := 1024, readDev := [500], writeDev := [501] } }

/-- `withDevices` where the n-th callback never returns. -/
def stalling (n : Nat) (cells : List Cell) : State := { withDevices cells with stallsAt := some n }

/-- A valid map that is not the default one. -/
def otherMap : OpcodeMap := { OpcodeMap.default with ldc := 0xB, rrn := 0xF }

theorem witness_DecodeEncodeRoundTrip :
    otherMap.valid = true ∧ (Instr.ldc 0xFFFFF).wf = true ∧ (Instr.rrn 0xFFFF).wf = true ∧
    decodeWith otherMap 0xB00FFFFF = .ok (.ldc 0xFFFFF) ∧ decodeWith otherMap 0xFF00FFFF = .ok (.rrn 0xFFFF) := by decide
theorem witness_IllegalEncodings :
    decodeWith otherMap 0x00000005 = .error (.invalidOpcode 0x00000005) ∧
    (let s := { machine [] with uc := .decode, ir := 0xB0000000 }
     s.run = true ∧ s.fault = .none ∧ s.uc = .decode ∧
       decodeWith s.cfg.opcodeMap s.ir = .error (.invalidOpcode 0xB0000000)) := by decide
theorem witness_OperandsZeroExtend :
    decodeWith otherMap 0x300FFFFF = .ok (.add 0xFFFFF) ∧ decodeWith otherMap 0xF000FFFF = .ok (.hlt 0xFFFF) := by decide
theorem witness_ValidInstructionsAreDecodable :
    otherMap.valid = true ∧ (InstrRecord.mk .hlt 0 false).ext ≠ (InstrRecord.mk .hlt 0 false).op.ext := by decide
theorem witness_EncodeFormats :
    (Instr.ldc 0x100000).ext = false ∧ 2 ^ 20 ≤ (Instr.ldc 0x100000).operand.toNat ∧
    (Instr.rrn 0x10000).ext = true ∧ 2 ^ 16 ≤ (Instr.rrn 0x10000).operand.toNat ∧
    (Instr.ldc 0xFFFFF).ext = false ∧ (Instr.ldc 0xFFFFF).operand.toNat < 2 ^ 20 ∧
    (Instr.rrn 0xFFFF).ext = true ∧ (Instr.rrn 0xFFFF).operand.toNat < 2 ^ 16 := by decide
theorem witness_IdleMachineStays :
    { machine [] with fault := .outOfBounds }.fault ≠ .none ∧ State.reset.run = false := by decide
theorem witness_FetchAddressMicroStep :
    (machine []).run = true ∧ (machine []).fault = .none ∧ (machine []).uc = .fetchAddr := by decide
/-- The last legal address, a device that answers, one that does not, the first illegal address. -/
theorem witness_FetchDataMicroStep :
    (let s := { machine [] with uc := .fetchData, sar := 1023 }
     s.run = true ∧ s.fault = .none ∧ s.uc = .fetchData ∧ s.sar.toNat < s.cfg.memSize ∧
       ¬(s.sar ∈ s.cfg.readDev ∧ s.cfg.ioReadOnFetch = true)) ∧
    (let s := { withDevices [] with uc := .fetchData, sar := 500 }
     s.run = true ∧ s.fault = .none ∧ s.uc = .fetchData ∧ s.sar.toNat < s.cfg.memSize ∧
       (s.sar ∈ s.cfg.readDev ∧ s.cfg.ioReadOnFetch = true) ∧ s.stallsAt ≠ some s.draws) ∧
    (let s := { stalling 0 [] with uc := .fetchData, sar := 500 }
     s.run = true ∧ s.fault = .none ∧ s.uc = .fetchData ∧ s.sar.toNat < s.cfg.memSize ∧
       (s.sar ∈ s.cfg.readDev ∧ s.cfg.ioReadOnFetch = true) ∧ s.stallsAt = some s.draws) ∧
    (let s := { machine [] with uc := .fetchData, sar := 1024 }
     s.run = true ∧ s.fault = .none ∧ s.uc = .fetchData ∧ s.cfg.memSize ≤ s.sar.toNat) := by decide
theorem witness_DecodeMicroStep :
    (let s := { machine [] with uc := .decode, ir := 0x300FFFFF }
     s.run = true ∧ s.fault = .none ∧ s.uc = .decode ∧ decodeWith s.cfg.opcodeMap s.ir = .ok (.add 0xFFFFF)) ∧
    (let s := { machine [] with uc := .decode, ir := 0x00100000 }
     s.run = true ∧ s.fault = .none ∧ s.uc = .decode ∧
       decodeWith s.cfg.opcodeMap s.ir = .error (.invalidOpcode 0x00100000)) := by decide
theorem witness_OperandMicroStep :
    ∀ i ∈ [Instr.hlt 3, .stv 1024, .ldv 1023, .add 1024, .ldiv 1023],
      (active .operand i []).run = true ∧ (active .operand i []).fault = .none ∧ (active .operand i []).uc = .operand ∧
        (active .operand i []).ci = some i := by decide
/-- The inner tests of LDIV: the pointer read back legal and illegal, and each read answered and not. -/
theorem witness_OperandMicroStep_pointer :
    (dataRead (machine [(150, 1023)]) 150).1.toNat < 1024 ∧ ¬(dataRead (machine [(150, 1024)]) 150).1.toNat < 1024 ∧
    ReadAnswers (withDevices []) 500 ∧ ¬ReadAnswers (stalling 0 []) 500 ∧
    ((dataRead (stalling 0 [(150, 500)]) 150).1.toNat < 1024 ∧
      ¬ReadAnswers (afterDataRead (stalling 0 [(150, 500)]) 150) (dataRead (stalling 0 [(150, 500)]) 150).1) := by decide
theorem witness_ExecuteMicroStep :
    ∀ i ∈ [Instr.ldc 1, .ldv 1, .ldiv 1, .add 1, .and 1, .or 1, .xor 1, .eql 1, .stv 1, .jmp 1, .jmn 1, .hlt 1, .not 1,
           .rar 1, .rrn 1],
      (active .execute i []).run = true ∧ (active .execute i []).fault = .none ∧ (active .execute i []).uc = .execute ∧
        (active .execute i []).ci = some i := by decide
theorem witness_ExecuteMicroStep_alu :
    (active .execute (.add 1) []).aluop = .add ∧ (active .execute (.and 1) []).aluop = .and ∧
    (active .execute (.or 1) []).aluop = .or ∧ (active .execute (.xor 1) []).aluop = .xor ∧
    (active .execute (.eql 1) []).aluop = .eql := by decide
/-- STV to the last legal address, to a device that answers, to one that does not, to the first illegal address. -/
theorem witness_ExecuteMicroStep_store :
    (let s := active .execute (.stv 1023) []
     s.sar.toNat < s.cfg.memSize ∧ s.sar ∉ s.cfg.writeDev) ∧
    (let s := { withDevices [] with uc := .execute, ci := some (.stv 501), sar := 501 }
     s.run = true ∧ s.fault = .none ∧ s.sar.toNat < s.cfg.memSize ∧ s.sar ∈ s.cfg.writeDev ∧ s.stallsAt ≠ some s.draws) ∧
    (let s := { stalling 0 [] with uc := .execute, ci := some (.stv 501), sar := 501 }
     s.run = true ∧ s.fault = .none ∧ s.sar.toNat < s.cfg.memSize ∧ s.sar ∈ s.cfg.writeDev ∧ s.stallsAt = some s.draws) ∧
    (let s := active .execute (.stv 1024) []
     s.cfg.memSize ≤ s.sar.toNat) := by decide
theorem witness_MicroPositionAdvances :
    (∃ t, microStep (active .execute (.ldc 1) []) = .next t ∧ decide (t.fault = .none) = true) ∧
    (∃ t, microStep (active .execute (.stv 1024) []) = .next t ∧ decide (t.fault ≠ .none) = true) :=
  ⟨reaches _ (by decide), reaches _ (by decide)⟩
theorem machine_ready (cells : List Cell) : Ready (machine cells) := ⟨rfl, rfl, rfl⟩
theorem machine_callbacksReturn (cells : List Cell) : CallbacksReturn (machine cells) := fun _ _ => by simp [machine, State.reset, State.init]
theorem witness_FiveMicroStepsAnInstruction :
    Ready (machine [(0, 0x30000064)]) ∧ CallbacksReturn (machine [(0, 0x30000064)]) ∧ (0 < 4 ∧ 4 < 5) :=
  ⟨machine_ready _, machine_callbacksReturn _, by decide⟩
theorem witness_InstructionAddressIsKept :
    Ready (machine [(0, 0xB0000000)]) ∧
    (∃ t, stepMicro 3 (machine [(0, 0x30000064)]) = .next t ∧ decide (t.uc = .operand) = true) ∧
    (∃ t, stepMicro 5 (machine [(0, 0xB0000000)]) = .next t ∧ decide (t.uc = .decode) = true) :=
  ⟨machine_ready _, reaches _ (by decide), reaches _ (by decide)⟩
theorem witness_StepIsRepeatedMicroSteps :
    (∃ t, step (machine [(0, 0x30000064)]) = .next t ∧ decide (t.uc = .fetchAddr) = true) ∧
    (machine []).idle = false ∧
    reason? (freeRun 1 [] (machine [(0, 0xF0000000)])) = some .halted :=
  ⟨reaches _ (by decide), by decide, by decide⟩
/-- A word that decodes at the last legal address, a device there, a word that does not decode, the first illegal address. -/
theorem witness_StepRunsDecodedInstruction :
    (let s := { machine [(1023, 0x00000005)] with iar := 1023 }
     s.uc = .fetchAddr ∧ s.iar.toNat < s.cfg.memSize ∧ s.readsDevice true s.iar = false ∧
       decodeWith s.cfg.opcodeMap (Memory.read s.mem s.iar.toNat) = .ok (.ldc 5)) ∧
    (let s := { withDevices [] with iar := 500 }
     s.uc = .fetchAddr ∧ s.iar.toNat < s.cfg.memSize ∧ s.readsDevice true s.iar = true ∧ s.stallsAt ≠ some s.draws) ∧
    (let s := { stalling 0 [] with iar := 500 }
     s.uc = .fetchAddr ∧ s.iar.toNat < s.cfg.memSize ∧ s.readsDevice true s.iar = true ∧ s.stallsAt = some s.draws) ∧
    (let s := machine [(0, 0xB0000000)]
     s.uc = .fetchAddr ∧ s.iar.toNat < s.cfg.memSize ∧ s.readsDevice true s.iar = false ∧
       decodeWith s.cfg.opcodeMap (Memory.read s.mem s.iar.toNat) = .error (.invalidOpcode 0xB0000000)) ∧
    (let s := { machine [] with iar := 1024 }
     s.uc = .fetchAddr ∧ s.cfg.memSize ≤ s.iar.toNat) := by decide
/-- The device's word is free: for whatever word it is, one of the two device clauses has its hypothesis. -/
theorem witness_StepRunsDecodedInstruction_device :
    (∃ i, decodeWith OpcodeMap.default (Config.freeWord 0) = .ok i) ∨
      (∃ e, decodeWith OpcodeMap.default (Config.freeWord 0) = .error e) := by
  cases decodeWith OpcodeMap.default (Config.freeWord 0) with
  | ok i => exact .inl ⟨i, rfl⟩
  | error e => exact .inr ⟨e, rfl⟩
theorem witness_StepNMicroStepsSplits :
    (∃ t, stepMicro 2 (machine [(0, 0x00000005)]) = .next t ∧ decide (t.uc = .decode) = true) ∧ State.reset.run = false :=
  ⟨reaches _ (by decide), rfl⟩
theorem witness_FreeRunStops :
    reason? (freeRun 2 [] (machine [(0, 0xB0000000)])) = some .faulted ∧
    reason? (freeRun 2 [] (machine [(0, 0xF0000000)])) = some .halted ∧
    reason? (freeRun 2 [] { machine [(0, 0x80000000)] with cfg := { Config.default with breakpoints := [0] } }) =
      some .breakpoint ∧
    reason? (freeRun 2 [true] (machine [(0, 0x80000000)])) = some .stopped ∧
    reason? (freeRun 0 [] (machine [(0, 0x80000000)])) = some .stillRunning := by decide
/-- The loop `JMP 0` after one round. -/
def looping : State :=
  { machine [(0, 0x80000000)] with sir := 0x80000000, ir := 0x80000000, ci := some (.jmp 0) }
theorem looping_step : step (machine [(0, 0x80000000)]) = .next looping := rfl
/-- A boundary before the last one: two rounds of the loop, the stop request answered false and then true. -/
theorem witness_FreeRunStops_boundary :
    reason? (freeRun 3 [false, true] (machine [(0, 0x80000000)])) = some .stopped ∧
    stepInstructions 1 (machine [(0, 0x80000000)]) = .next looping ∧ (0 < 1 ∧ 1 < 2) := by
  refine ⟨?_, rfl, by decide⟩
  rw [freeRun_passes rfl rfl looping_step rfl rfl rfl rfl]
  decide
/-- For ADD, AND, OR, XOR, EQL and LDV: the last legal address, a device that answers, one that does not, the first illegal
address, and a word of each row. -/
theorem witness_direct_operands :
    (ReadAnswers (machine []) 1023 ∧ ReadAnswers (withDevices []) 500) ∧
    ((500 : Word).toNat < (stalling 0 []).cfg.memSize ∧ ¬ReadAnswers (stalling 0 []) 500) ∧
    (1023 : Word).toNat < (machine []).cfg.memSize ∧ (machine []).cfg.memSize ≤ (1024 : Word).toNat ∧
    (0x300FFFFF : Word) &&& 0xFFF00000 = 0x30000000 ∧ (0x400FFFFF : Word) &&& 0xFFF00000 = 0x40000000 ∧
    (0x500FFFFF : Word) &&& 0xFFF00000 = 0x50000000 ∧ (0x600FFFFF : Word) &&& 0xFFF00000 = 0x60000000 ∧
    (0x700FFFFF : Word) &&& 0xFFF00000 = 0x70000000 ∧ (0x100FFFFF : Word) &&& 0xFFF00000 = 0x10000000 := by decide
/-- For the other rows: a word of each. -/
theorem witness_rows :
    (0x000FFFFF : Word) &&& 0xFFF00000 = 0x00000000 ∧ (0xA00FFFFF : Word) &&& 0xFFF00000 = 0xA0000000 ∧
    (0x200FFFFF : Word) &&& 0xFFF00000 = 0x20000000 ∧ (0x800FFFFF : Word) &&& 0xFFF00000 = 0x80000000 ∧
    (0x900FFFFF : Word) &&& 0xFFF00000 = 0x90000000 ∧ (0xF000FFFF : Word) &&& 0xFFFF0000 = 0xF0000000 ∧
    (0xF100FFFF : Word) &&& 0xFFFF0000 = 0xF1000000 ∧ (0xF200FFFF : Word) &&& 0xFFFF0000 = 0xF2000000 ∧
    (0xF300FFFF : Word) &&& 0xFFFF0000 = 0xF3000000 := by decide
/-- EQL then JMN, equal and unequal (test_decode_* hold a word that decodes to each instruction, for the rows' second halves). -/
theorem witness_EqlComparesWords :
    reachesB (exec (.eql 7) (machine [])) (fun t => reachesB (exec (.jmn 9) t) fun u => decide (u.iar = 9)) = true ∧
    reachesB (exec (.eql 7) { machine [] with acc := 1 })
      (fun t => reachesB (exec (.jmn 9) t) fun u => decide (u.iar = 0)) = true := by decide
theorem witness_LdivLoadsIndirect :
    (let s := machine [(150, 1023)]
     (150 : Word).toNat < s.cfg.memSize ∧ ReadAnswers s 150 ∧ (dataRead s 150).1.toNat < s.cfg.memSize ∧
       ReadAnswers (afterDataRead s 150) (dataRead s 150).1) ∧
    ((500 : Word).toNat < (stalling 0 []).cfg.memSize ∧ ¬ReadAnswers (stalling 0 []) 500) ∧
    (let s := stalling 0 [(150, 500)]
     (150 : Word).toNat < s.cfg.memSize ∧ ReadAnswers s 150 ∧ (dataRead s 150).1.toNat < s.cfg.memSize ∧
       ¬ReadAnswers (afterDataRead s 150) (dataRead s 150).1) ∧
    (machine []).cfg.memSize ≤ (dataRead (machine [(150, 1024)]) 150).1.toNat ∧
    (machine []).cfg.memSize ≤ (1024 : Word).toNat := by decide
theorem witness_StvStoresAccumulator :
    ((1023 : Word).toNat < (machine []).cfg.memSize ∧ (1023 : Word) ∉ (machine []).cfg.writeDev) ∧
    ((501 : Word).toNat < (withDevices []).cfg.memSize ∧ (501 : Word) ∈ (withDevices []).cfg.writeDev ∧
      (withDevices []).stallsAt ≠ some (withDevices []).draws ∧ (stalling 0 []).stallsAt = some (stalling 0 []).draws) ∧
    (machine []).cfg.memSize ≤ (1024 : Word).toNat ∧ Memory.wf (machine [(7, 1)]).mem ∧
    reachesB (exec (.stv 1023) (machine [(7, 1)])) (fun _ => true) = true ∧ (7 : Nat) ≠ (1023 : Word).toNat := by decide
theorem witness_JmpJumps :
    (machine []).run = true ∧ (machine []).fault = .none ∧ (machine []).cfg.memSize ≤ (1024 : Word).toNat ∧
    reachesB (exec (.jmp 1024) (machine [])) (fun t => decide (t.iar = 1024)) = true := by decide
theorem witness_JmnJumpsIfNegative :
    (let s := { machine [] with acc := 0x80000000 }
     s.run = true ∧ s.fault = .none ∧ s.acc.getLsbD 31 = true ∧ s.cfg.memSize ≤ (1024 : Word).toNat ∧
       reachesB (exec (.jmn 1024) s) (fun t => decide (t.iar = 1024)) = true) ∧
    { machine [] with acc := 0x7FFFFFFF }.acc.getLsbD 31 = false := by decide
theorem witness_HltClearsRun :
    reachesB (exec (.hlt 0xFFFF) (machine [])) (fun t => !t.run) = true := by decide
theorem witness_NotComplements :
    reachesB (exec (.not 1) (machine [])) (fun t => reachesB (exec (.not 1) t) fun u => decide (u.acc = 0)) = true := by
  decide
theorem witness_RotationWraps :
    (0 < 31 ∧ 31 < 32) ∧ (0 < 1 ∧ 1 < 32) ∧ reachesB (exec (.rrn 0) (machine [])) (fun _ => true) = true ∧
    reachesB (exec (.rrn 32) (machine [])) (fun _ => true) = true := by decide
/-- The smallest and the largest MEM_SIZE, and the last legal address of each. -/
theorem witness_ResetLeavesEveryElement :
    ∀ n ∈ [1, 2 ^ 32], n - 1 < n ∧ 1 ≤ n ∧ n ≤ 2 ^ 32 := by decide
/-- An admissible configuration: the smallest memory, devices, and initial contents. -/
theorem witness_ResetIsLegal :
    ConfigOk { Config.default with memSize := 1, opcodeMap := otherMap, memInit := [(0, 7), (9, 1)], readDev := [0, 5],
                                   writeDev := [5] } :=
  ⟨by decide, by decide, by decide, by decide, by decide, by decide⟩
/-- A legal state in the middle of an instruction: `STV 1023` in EXECUTE. -/
theorem witness_legalState : LegalState { active .execute (.stv 1023) [(7, 1)] with ir := 0x200003FF } where
  cfg_ok := ⟨by decide, by decide, by decide, by decide, by decide, by decide⟩
  mem_wf := by decide
  mem_within := by decide
  ci_wf := by intro i hi; cases hi; decide
  active := fun _ => ⟨.stv 1023, by decide⟩
  addressed := by intro _ i hi _; cases hi; rfl
  staged := by decide
  latched := by decide
  halted := by decide
  illegal := by decide
  bounds := by decide
/-- A legal state with a fault recorded: `STV 1024` raised in EXECUTE. -/
theorem witness_legalState_faulted :
    LegalState { active .execute (.stv 1024) [] with
      ir := 0x20000400, run := false, fault := .outOfBounds, faultInfo := 1024 } where
  cfg_ok := ⟨by decide, by decide, by decide, by decide, by decide, by decide⟩
  mem_wf := by decide
  mem_within := by decide
  ci_wf := by intro i hi; cases hi; decide
  active := fun _ => ⟨.stv 1024, by decide⟩
  addressed := by intro _ i hi _; cases hi; rfl
  staged := by decide
  latched := by decide
  halted := by decide
  illegal := by decide
  bounds := by decide
/-- From witness_legalState: a running machine, and a fresh one that is idle. -/
theorem witness_StepsKeepLegalStates :
    reachesB (step { active .execute (.stv 1023) [(7, 1)] with ir := 0x200003FF }) (fun t => !t.fresh) = true ∧
    CallbacksReturn { active .execute (.stv 1023) [(7, 1)] with ir := 0x200003FF } ∧
    State.reset.fresh = true ∧ State.reset.idle = true :=
  ⟨by decide, fun n hn => machine_callbacksReturn [(7, 1)] n hn, by decide, by decide⟩
theorem witness_HostCallsKeepLegalStates :
    reply? (hostCall .microStep { active .execute (.stv 1023) [(7, 1)] with ir := 0x200003FF }) = some (.stepped .none 0) ∧
    (∀ n, HostCall.microStep ≠ HostCall.initialise n) ∧
    reply? (hostCall (.setRun false) State.reset) = some .ok ∧ (setRun false State.reset).fresh = true :=
  ⟨by decide, fun _ => nofun, by decide, by decide⟩
theorem witness_HostCallsReport :
    reachesB (microStep (machine [])) (fun _ => true) = true ∧ reachesB (step (machine [])) (fun _ => true) = true ∧
    reachesB (stepMicro 2 (machine [])) (fun _ => true) = true ∧
    reachesB (stepInstructions 2 (machine [])) (fun _ => true) = true ∧
    reason? (freeRun 2 [] (machine [(0, 0xF0000000)])) = some .halted ∧ (machine []).fault = .none ∧
    { machine [] with fault := .outOfBounds }.fault ≠ .none ∧ ¬(1 ≤ 0 ∧ 0 ≤ 2 ^ 32) ∧ ¬(1 ≤ 2 ^ 32 + 1 ∧ 2 ^ 32 + 1 ≤ 2 ^ 32) ∧
    reply? (hostCall .queryBreakpoint (machine [])) = some (.hit false) ∧
    hostCall .microStep { stalling 0 [] with uc := .fetchData, sar := 500 } = .fault .callbackNeverReturns :=
  ⟨by decide, by decide, by decide, by decide, by decide, by decide, by decide, by decide, by decide, by decide, rfl⟩
theorem witness_RunFlagDiscipline :
    (let s := active .execute (.hlt 0) []
     s.run = true ∧ s.fault = .none ∧ reachesB (microStep s) (fun t => !t.run) = true) ∧
    (let s := active .execute (.ldc 0) []
     s.run = true ∧ s.fault = .none ∧ reachesB (microStep s) (fun t => t.run) = true) ∧
    (State.reset.run = false ∧ reachesB (step State.reset) (fun _ => true) = true ∧ State.reset.fault = .none) := by decide
theorem witness_ConfigurationNeverWritten :
    reachesB (microStep (machine [])) (fun _ => true) = true ∧ reachesB (step (machine [])) (fun _ => true) = true ∧
    reachesB (exec (.add 1024) (machine [])) (fun _ => true) = true := by decide
theorem witness_OutOfBoundsWritesNoCell :
    (active .execute (.stv 1024) []).fault = .none ∧
    reachesB (microStep (active .execute (.stv 1024) [])) (fun t => decide (t.fault = .outOfBounds)) = true ∧
    (machine [(0, 0x20000400)]).fault = .none ∧
    reachesB (step (machine [(0, 0x20000400)])) (fun t => decide (t.fault = .outOfBounds)) = true := by decide
/-- From witness_legalState, a step that writes memory. -/
theorem witness_StoresStayBelowTwoToTwenty :
    reachesB (step { active .execute (.stv 1023) [(7, 1)] with ir := 0x200003FF, acc := 5 })
      (fun t => decide (t.mem ≠ [(7, 1)])) = true ∧ (2 ^ 20 : Nat) ≤ 2 ^ 20 := by decide
theorem witness_MicroStepFrames :
    reachesB (microStep (machine [])) (fun _ => true) = true ∧
    reachesB (microStep { machine [] with uc := .fetchData }) (fun _ => true) = true ∧
    reachesB (microStep { machine [] with uc := .decode }) (fun _ => true) = true ∧
    reachesB (microStep (active .operand (.ldiv 0) [])) (fun _ => true) = true ∧
    reachesB (microStep (active .execute (.stv 0) [])) (fun _ => true) = true := by decide
theorem witness_InstructionFrames :
    ∀ i ∈ [Instr.ldc 1, .ldv 1, .ldiv 1, .add 1, .and 1, .or 1, .xor 1, .eql 1, .stv 1, .jmp 1, .jmn 1, .hlt 1, .not 1,
           .rar 1, .rrn 1, .add 1024, .stv 1024],
      reachesB (exec i (machine [])) (fun _ => true) = true := by decide
theorem witness_ScratchRegistersAreInert :
    SameButScratch (machine []) { machine [] with x := 1, y := 2, z := 3, tra := true } ∧
    reachesB (microStep (machine [])) (fun _ => true) = true ∧ reachesB (step (machine [])) (fun _ => true) = true :=
  ⟨rfl, by decide, by decide⟩
theorem witness_StaleRegistersNeverMatter :
    SameProgramView (machine [])
      { machine [] with x := 1, sar := 9, sir := 8, ir := 7, ci := some (.not 3), tra := true, aluop := .not } ∧
    (machine []).uc = .fetchAddr ∧ reachesB (stepInstructions 2 (machine [])) (fun _ => true) = true :=
  ⟨⟨rfl, rfl, rfl, rfl, rfl, rfl, rfl, rfl, rfl, rfl, rfl⟩, by decide, by decide⟩
theorem witness_StoreSeenByNextFetch :
    (let s := { machine [(7, 9)] with iar := 7, acc := 0xF0000000 }
     Memory.wf s.mem ∧ s.run = true ∧ s.fault = .none ∧ s.iar = 7 ∧ (7 : Word).toNat < s.cfg.memSize ∧
       (7 : Word) ∉ s.cfg.writeDev ∧ s.readsDevice true 7 = false ∧
       reachesB (exec (.stv 7) s) (fun _ => true) = true ∧ decodeWith s.cfg.opcodeMap s.acc = .ok (.hlt 0)) := by decide
/-- One state for each of the five places. -/
theorem witness_FaultSitesArePrecise :
    ∀ s ∈ [{ machine [] with uc := .fetchData, sar := 1024 }, { machine [] with uc := .decode, ir := 0xB0000000 },
           active .operand (.ldv 1024) [], active .operand (.ldiv 7) [(7, 1024)], active .execute (.stv 1024) []],
      s.run = true ∧ s.fault = .none ∧ reachesB (microStep s) (fun t => decide (t.fault ≠ .none)) = true := by decide
theorem witness_FaultsAreNotResumed :
    (let s := { machine [] with fault := .outOfBounds, run := false }
     s.fault ≠ .none ∧ reply? (hostCall (.setBreakpoints [3]) s) = some .ok ∧
       reply? (hostCall (.initialise 1024) s) = some .ok) := by decide
theorem witness_MemoryUnitAccesses :
    (let s := { machine [] with sar := 1024 }
     s.cfg.memSize ≤ s.sar.toNat) ∧
    (let s := { machine [] with sar := 1023 }
     s.sar.toNat < s.cfg.memSize ∧ s.cfg.ioReadOnFetch = true ∧ s.sar ∉ s.cfg.writeDev) ∧
    (let s := { withDevices [] with sar := 501 }
     s.sar.toNat < s.cfg.memSize ∧ s.sar ∈ s.cfg.writeDev ∧ s.stallsAt ≠ some s.draws) ∧
    ((stalling 0 []).stallsAt = some (stalling 0 []).draws ∧ ReadAnswers (machine []) 1023 ∧ ¬ReadAnswers (stalling 0 []) 500) ∧
    { Config.default with ioReadOnFetch := false }.ioReadOnFetch = false := by decide
/-- One state for each of the four places. -/
theorem witness_StallingCallbackHangs :
    ∀ s ∈ [{ stalling 0 [] with uc := .fetchData, sar := 500 }, { stalling 0 [] with uc := .operand, ci := some (.ldv 500) },
           { stalling 0 [(7, 500)] with uc := .operand, ci := some (.ldiv 7) },
           { stalling 0 [] with uc := .execute, ci := some (.stv 501), sar := 501 }],
      s.run = true ∧ s.fault = .none ∧ stop? (microStep s) = some .callbackNeverReturns := by decide
theorem witness_SetRunPausesAndContinues :
    (machine []).fault = .none ∧ (machine []).run = true ∧
    { machine [] with fault := .illegalInstruction }.fault ≠ .none ∧
    reachesB (exec (.hlt 0) (machine [])) (fun _ => true) = true := by decide
/-- The same before running and while running. -/
theorem witness_RegistrationKeepsFirst :
    { withDevices [] with run := false }.beforeExecution = true ∧ (withDevices []).beforeExecution = false ∧
    (500 : Word) ∈ (withDevices []).cfg.readDev ∧ (501 : Word) ∉ (withDevices []).cfg.readDev ∧
    (501 : Word) ∈ (withDevices []).cfg.writeDev ∧ (500 : Word) ∉ (withDevices []).cfg.writeDev := by decide
theorem witness_ImageLoadsInOrder :
    (machine [(7, 1)]).beforeExecution = false ∧
    (Memory.wf { machine [(7, 1)] with run := false }.mem ∧ { machine [(7, 1)] with run := false }.beforeExecution = true) ∧
    (let im : ProgramImage := { writes := [(1024, 1)], entry := 0 }
     ∃ e ∈ im.writes, (machine []).cfg.memSize ≤ e.1) ∧
    (let im : ProgramImage := { writes := [], entry := 1 }
     im.entry ≠ 0) ∧
    (let im : ProgramImage := { writes := [(1023, 1), (7, 2), (1023, 3)], entry := 0 }
     (∀ e ∈ im.writes, e.1 < (machine []).cfg.memSize) ∧ im.entry = 0) := by decide
theorem witness_ProgramLoadsAtZero :
    (active .operand (.ldc 1) []).beforeExecution = false ∧
    (Memory.wf { machine [(7, 1)] with run := false }.mem ∧ { machine [(7, 1)] with run := false }.beforeExecution = true) ∧
    assemble (machine []).cfg.opcodeMap "FOO".toList = .error (.unknownOpcode 1 "FOO".toList) ∧
    (let s := { machine [] with cfg := { Config.default with memSize := 1 } }
     assemble s.cfg.opcodeMap "HLT\nHLT".toList = .ok [0xF0000000, 0xF0000000] ∧ s.cfg.memSize < 2) ∧
    (assemble (machine []).cfg.opcodeMap "LDC 5".toList = .ok [5] ∧ 1 ≤ (machine []).cfg.memSize) := by decide
theorem witness_ListingAssemblesBack :
    otherMap.valid = true ∧ decodeWith otherMap 0xFF00FFFF = .ok (.rrn 0xFFFF) ∧
    decodeWith otherMap 0x00000000 = .error (.invalidOpcode 0) := by decide
theorem witness_SerialisedImagesReadBack :
    deserialise .little [0x05, 0, 0, 0, 0, 0, 0, 0xF0] = some [0x00000005, 0xF0000000] := by decide
/-- Two memories written in two orders read the same everywhere. -/
theorem witness_EqualMemoriesAreEqualData :
    Memory.wf (Memory.write (Memory.write [] 2 7) 1 9) ∧ Memory.wf (Memory.write (Memory.write [] 1 9) 2 7) ∧
    ∀ a, Memory.read (Memory.write (Memory.write [] 2 7) 1 9) a = Memory.read (Memory.write (Memory.write [] 1 9) 2 7) a :=
  ⟨by decide, by decide, fun _ => rfl⟩

end Sys2Proof.Tests
end

/-!
What can happen in a micro-step and in a step, read backwards from the next state, and what each phase leaves unchanged; from
these, the statements on the run flag and on the configuration (10_state R28, R36; 40_microcycle R120 to R132).
-/

namespace Sys2Proof.Machine

/-! ### From a next state back to the phase that answered it -/

/-- A micro-step answers a next state when its transfers were all done, or when they raised (00_scope R12). -/
theorem finish_eq_next_iff {m : Micro} {u : MicroPos} {t : State} :
    m.finish u = .next t ↔ (∃ v, m = .done v ∧ t = { v with uc := u }) ∨ m = .raised t := by
  cases m <;> simp [eq_comm]

theorem operandStep_next {s t : State} (h : operandStep s = .next t) :
    ∃ i, s.ci = some i ∧ (operandPhase i s).finish .execute = .next t := by
  unfold operandStep at h
  split at h
  · exact ⟨_, ‹_›, h⟩
  · cases h

theorem executeStep_next {s t : State} (h : executeStep s = .next t) :
    ∃ i, s.ci = some i ∧ (executePhase i s).finish .fetchAddr = .next t := by
  unfold executeStep at h
  split at h
  · exact ⟨_, ‹_›, h⟩
  · cases h

/-- Everything a micro-step that answers can do, by position (R120, R128). -/
theorem microStep_next {s t : State} (h : microStep s = .next t) :
    (s.idle = true ∧ t = s) ∨
    (s.idle = false ∧ (
      (s.uc = .fetchAddr ∧ t = fetchAddr s) ∨
      (s.uc = .fetchData ∧ (fetchData s).finish .decode = .next t) ∨
      (s.uc = .decode ∧ t = decodeStep s) ∨
      (s.uc = .operand ∧ ∃ i, s.ci = some i ∧ (operandPhase i s).finish .execute = .next t) ∨
      (s.uc = .execute ∧ ∃ i, s.ci = some i ∧ (executePhase i s).finish .fetchAddr = .next t))) := by
  unfold microStep at h
  split at h
  · cases h; exact .inl ⟨‹_›, rfl⟩
  · refine .inr ⟨by simpa using ‹¬ s.idle = true›, ?_⟩
    split at h
    · cases h; exact .inl ⟨‹_›, rfl⟩
    · exact .inr (.inl ⟨‹_›, h⟩)
    · cases h; exact .inr (.inr (.inl ⟨‹_›, rfl⟩))
    · exact .inr (.inr (.inr (.inl ⟨‹_›, operandStep_next h⟩)))
    · exact .inr (.inr (.inr (.inr ⟨‹_›, executeStep_next h⟩)))

/-- Everything an instruction that answers can do: both its phases, or a raise in OPERAND. -/
theorem exec_next {i : Instr} {s t : State} (h : exec i s = .next t) :
    (∃ u, operandPhase i (latch i s) = .done u ∧
      (executePhase i { u with uc := .execute }).finish .fetchAddr = .next t) ∨
    operandPhase i (latch i s) = .raised t := by
  rw [exec_eq_runPhases] at h
  cases hp : operandPhase i (latch i s) with
  | done u => rw [runPhases_done hp] at h; exact .inl ⟨u, rfl, h⟩
  | raised u => rw [runPhases_raised hp] at h; cases h; exact .inr rfl
  | stuck e => rw [runPhases_stuck hp] at h; cases h

/-- From DECODE on: exec of what IR decodes to, or IllegalInstruction (R124). -/
theorem runDecode_next {s t : State} (h : runDecode s = .next t) :
    (∃ i, decodeWith s.cfg.opcodeMap s.ir = .ok i ∧ exec i s = .next t) ∨
    (decodeWith s.cfg.opcodeMap s.ir = .error (.invalidOpcode s.ir) ∧ t = raise .illegalInstruction s.ir s) := by
  cases hd : decodeWith s.cfg.opcodeMap s.ir with
  | ok i => exact .inl ⟨i, rfl, by simpa [runDecode, hd] using h⟩
  | error e =>
    obtain rfl := decodeWith_eq_error hd
    exact .inr ⟨rfl, by simpa [runDecode, hd, eq_comm] using h⟩

/-- From FETCH_DATA on: the fetch and what follows, or its bounds fault (R122). -/
theorem runFetchData_next {s t : State} (h : runFetchData s = .next t) :
    (∃ u, fetchData s = .done u ∧ runDecode { u with uc := .decode } = .next t) ∨ fetchData s = .raised t := by
  unfold runFetchData at h
  split at h
  · exact .inl ⟨_, ‹_›, h⟩
  · cases h; exact .inr ‹_›
  · cases h

/-- From OPERAND on, in a machine paused there: both phases of CI, or a raise in OPERAND (R125, R126). -/
theorem resumeOperand_next {s t : State} (h : resumeOperand s = .next t) :
    ∃ i, s.ci = some i ∧
      ((∃ u, operandPhase i s = .done u ∧ executeStep { u with uc := .execute } = .next t) ∨
        operandPhase i s = .raised t) := by
  unfold resumeOperand at h
  split at h
  · cases h
  · refine ⟨_, ‹_›, ?_⟩
    split at h
    · exact .inl ⟨_, ‹_›, h⟩
    · cases h; exact .inr ‹_›
    · cases h

/-- Everything a step that answers can do: nothing, or the rest of the micro-cycle from its position (R132). -/
theorem step_next {s t : State} (h : step s = .next t) :
    (s.idle = true ∧ t = s) ∨
    (s.idle = false ∧ (
      (s.uc = .fetchAddr ∧ runFetchData (fetchAddr s) = .next t) ∨
      (s.uc = .fetchData ∧ runFetchData s = .next t) ∨
      (s.uc = .decode ∧ runDecode s = .next t) ∨
      (s.uc = .operand ∧ resumeOperand s = .next t) ∨
      (s.uc = .execute ∧ executeStep s = .next t))) := by
  unfold step runInstruction at h
  split at h
  · cases h; exact .inl ⟨‹_›, rfl⟩
  · refine .inr ⟨by simpa using ‹¬ s.idle = true›, ?_⟩
    split at h
    · exact .inl ⟨‹_›, h⟩
    · exact .inr (.inl ⟨‹_›, h⟩)
    · exact .inr (.inr (.inl ⟨‹_›, h⟩))
    · exact .inr (.inr (.inr (.inl ⟨‹_›, h⟩)))
    · exact .inr (.inr (.inr (.inr ⟨‹_›, h⟩)))

/-! ### What each phase leaves unchanged (10_state R39) -/

theorem fetchData_done {s t : State} (h : fetchData s = .done t) :
    t = { s with sir := t.sir, ir := t.sir, iar := s.iar + 1, draws := t.draws, devLog := t.devLog } := by
  rcases fetchData_cases s with ⟨_, _, _, -, e⟩ | ⟨-, -, -, e⟩ | ⟨-, e⟩ <;> rw [e] at h <;> cases h
  rfl

theorem fetchData_raised {s t : State} (h : fetchData s = .raised t) : t = afterBoundsFault s := by
  rcases fetchData_cases s with ⟨_, _, _, -, e⟩ | ⟨-, -, -, e⟩ | ⟨-, e⟩ <;> rw [e] at h <;> cases h
  rfl

theorem operandPhase_done {i : Instr} {s t : State} (h : operandPhase i s = .done t) :
    t = { s with sar := t.sar, sir := t.sir, draws := t.draws, devLog := t.devLog } := by
  rcases operandPhase_cases i s with ⟨_, _, _, _, -, e⟩ | ⟨-, e⟩ | ⟨_, _, _, _, -, -, e⟩ <;> rw [e] at h <;> cases h
  rfl

theorem operandPhase_raised {i : Instr} {s t : State} (h : operandPhase i s = .raised t) :
    t = afterBoundsFault { s with sar := t.sar, sir := t.sir, draws := t.draws, devLog := t.devLog } := by
  rcases operandPhase_cases i s with ⟨_, _, _, _, -, e⟩ | ⟨-, e⟩ | ⟨_, _, _, _, -, -, e⟩ <;> rw [e] at h <;> cases h
  rfl

theorem executePhase_done {i : Instr} {s t : State} (h : executePhase i s = .done t) :
    t = { s with acc := t.acc, x := t.x, y := t.y, z := t.z, iar := t.iar, run := t.run, sir := t.sir, mem := t.mem,
                 draws := t.draws, devLog := t.devLog } := by
  rcases executePhase_cases i s with ⟨-, _, _, _, _, _, _, e⟩ | ⟨_, _, _, _, _, -, -, -, e, -⟩ | ⟨_, -, -, -, -, e⟩ |
    ⟨_, -, -, e⟩ | ⟨-, -, e⟩ <;> rw [e] at h <;> cases h
  all_goals rfl

theorem executePhase_raised {i : Instr} {s t : State} (h : executePhase i s = .raised t) :
    t = afterBoundsFault { s with sir := s.acc } := by
  rcases executePhase_cases i s with ⟨-, _, _, _, _, _, _, e⟩ | ⟨_, _, _, _, _, -, -, -, e, -⟩ | ⟨_, -, -, -, -, e⟩ |
    ⟨_, -, -, e⟩ | ⟨-, -, e⟩ <;> rw [e] at h <;> cases h
  rfl

/-! ### The configuration (10_state R36) -/

theorem decodeStep_cfg (s : State) : (decodeStep s).cfg = s.cfg := by
  rcases decodeStep_cases s with ⟨i, -, e⟩ | ⟨-, e⟩ <;> rw [e]
  · exact latch_cfg i s
  · exact raise_cfg _ _ s

theorem fetchData_finish_cfg {s t : State} {u : MicroPos} (h : (fetchData s).finish u = .next t) : t.cfg = s.cfg := by
  rcases finish_eq_next_iff.mp h with ⟨v, hv, rfl⟩ | hv
  · rw [fetchData_done hv]
  · rw [fetchData_raised hv]; rfl

theorem operandPhase_finish_cfg {i : Instr} {s t : State} {u : MicroPos}
    (h : (operandPhase i s).finish u = .next t) : t.cfg = s.cfg := by
  rcases finish_eq_next_iff.mp h with ⟨v, hv, rfl⟩ | hv
  · rw [operandPhase_done hv]
  · rw [operandPhase_raised hv]; rfl

theorem executePhase_finish_cfg {i : Instr} {s t : State} {u : MicroPos}
    (h : (executePhase i s).finish u = .next t) : t.cfg = s.cfg := by
  rcases finish_eq_next_iff.mp h with ⟨v, hv, rfl⟩ | hv
  · rw [executePhase_done hv]
  · rw [executePhase_raised hv]; rfl

theorem microStep_cfg {s t : State} (h : microStep s = .next t) : t.cfg = s.cfg := by
  rcases microStep_next h with
    ⟨-, rfl⟩ | ⟨-, ⟨-, rfl⟩ | ⟨-, h⟩ | ⟨-, rfl⟩ | ⟨-, i, -, h⟩ | ⟨-, i, -, h⟩⟩
  · rfl
  · exact fetchAddr_cfg s
  · exact fetchData_finish_cfg h
  · exact decodeStep_cfg s
  · exact operandPhase_finish_cfg h
  · exact executePhase_finish_cfg h

theorem exec_cfg {i : Instr} {s t : State} (h : exec i s = .next t) : t.cfg = s.cfg := by
  rcases exec_next h with ⟨u, hu, h⟩ | h
  · rw [executePhase_finish_cfg h, operandPhase_done hu, latch_cfg]
  · rw [operandPhase_raised h]; rfl

theorem executeStep_cfg {s t : State} (h : executeStep s = .next t) : t.cfg = s.cfg := by
  obtain ⟨i, -, h⟩ := executeStep_next h
  exact executePhase_finish_cfg h

theorem runDecode_cfg {s t : State} (h : runDecode s = .next t) : t.cfg = s.cfg := by
  rcases runDecode_next h with ⟨i, -, h⟩ | ⟨-, rfl⟩
  · exact exec_cfg h
  · exact raise_cfg _ _ s

theorem runFetchData_cfg {s t : State} (h : runFetchData s = .next t) : t.cfg = s.cfg := by
  rcases runFetchData_next h with ⟨u, hu, h⟩ | h
  · rw [runDecode_cfg h, fetchData_done hu]
  · rw [fetchData_raised h]; rfl

theorem resumeOperand_cfg {s t : State} (h : resumeOperand s = .next t) : t.cfg = s.cfg := by
  obtain ⟨i, -, ⟨u, hu, h⟩ | h⟩ := resumeOperand_next h
  · rw [executeStep_cfg h, operandPhase_done hu]
  · rw [operandPhase_raised h]; rfl

theorem step_cfg {s t : State} (h : step s = .next t) : t.cfg = s.cfg := by
  rcases step_next h with ⟨-, rfl⟩ | ⟨-, ⟨-, h⟩ | ⟨-, h⟩ | ⟨-, h⟩ | ⟨-, h⟩ | ⟨-, h⟩⟩
  · rfl
  · rw [runFetchData_cfg h, fetchAddr_cfg]
  · exact runFetchData_cfg h
  · exact runDecode_cfg h
  · exact resumeOperand_cfg h
  · exact executeStep_cfg h

/-- Settles O42: each phase of the micro-cycle keeps the configuration, and micro-step, step and exec are made of them. -/
theorem configurationNeverWritten : Obligations.ConfigurationNeverWritten :=
  ⟨fun _ _ => microStep_cfg, fun _ _ => step_cfg, fun _ _ _ => exec_cfg⟩

/-! ### The run flag (10_state R28) -/

theorem executeAlu_done_run {s t : State} (h : executeAlu s = .done t) : t.run = s.run := by
  unfold executeAlu at h
  split at h
  · cases h; rfl
  · cases h

theorem memWrite_done_run {s t : State} (h : memWrite s = .done t) : t.run = s.run := by
  rcases memWrite_cases s with ⟨-, -, e⟩ | ⟨-, -, -, e⟩ | ⟨-, -, -, e⟩ | ⟨-, e⟩ <;> rw [e] at h <;> cases h
  all_goals rfl

/-- EXECUTE clears RUN in HLT only (43_control R197). -/
theorem executePhase_done_run {i : Instr} {s t : State} (h : executePhase i s = .done t) :
    t.run = false ↔ s.run = false ∨ ∃ n, i = .hlt n := by
  cases i with
  | hlt n => cases h; simp
  | add | and | or | xor | eql => simp [executeAlu_done_run h]
  | stv => simp [memWrite_done_run h]
  | jmn => cases h; split <;> simp
  | ldc | ldv | jmp | ldiv | not | rar | rrn => cases h; simp

/-- A micro-step of a running machine moves UC on and records no fault, clearing RUN in HLT's EXECUTE only; or it records a
fault and clears RUN (40_microcycle R128; 60_exceptions R233). -/
theorem microStep_advances_or_faults {s t : State} (hr : s.run = true) (hf : s.fault = .none) (h : microStep s = .next t) :
    (t.uc ≠ s.uc ∧ t.fault = .none ∧ (t.run = false ↔ s.uc = .execute ∧ ∃ n, s.ci = some (.hlt n))) ∨
    (t.fault ≠ .none ∧ t.run = false) := by
  rcases microStep_next h with ⟨hid, -⟩ | ⟨-, ⟨hu, rfl⟩ | ⟨hu, h⟩ | ⟨hu, rfl⟩ | ⟨hu, i, hi, h⟩ | ⟨hu, i, hi, h⟩⟩
  · simp [idle_eq_false hr hf] at hid
  · simp [hu, hf, hr]
  · rcases finish_eq_next_iff.mp h with ⟨v, hv, rfl⟩ | hv
    · left; rw [fetchData_done hv]; simp [hu, hf, hr]
    · right; rw [fetchData_raised hv]; simp [afterBoundsFault]
  · rcases decodeStep_cases s with ⟨_, -, e⟩ | ⟨-, e⟩ <;> rw [e]
    · simp [hu, hf, hr]
    · simp
  · rcases finish_eq_next_iff.mp h with ⟨v, hv, rfl⟩ | hv
    · left; rw [operandPhase_done hv]; simp [hu, hf, hr]
    · right; rw [operandPhase_raised hv]; simp [afterBoundsFault]
  · rcases finish_eq_next_iff.mp h with ⟨v, hv, rfl⟩ | hv
    · have hrun := executePhase_done_run hv
      left; rw [executePhase_done hv]; simp [hu, hf, hr, hi, hrun]
    · right; rw [executePhase_raised hv]; simp [afterBoundsFault]

theorem idle_of_halted_or_faulted {s : State} (h : s.run = false ∨ s.fault ≠ .none) : s.idle = true := by
  rcases h with h | h <;> simp [State.idle, h]

/-- Free-run reports a breakpoint only at a boundary where the machine is still running (40_microcycle R135). -/
theorem freeRun_breakpoint_run {fuel : Nat} {stops : List Bool} {s t : State}
    (h : freeRun fuel stops s = .next (t, .breakpoint)) : t.run = true := by
  fun_induction freeRun fuel stops s
  case case8 hrun _ => cases h; simpa using hrun -- the boundary with a breakpoint
  case case10 ih => exact ih h -- a boundary free-run passes
  all_goals cases h -- the other ends report another reason

/-- Settles O41: the guard and the phases of a micro-step, the host's set_run, and free-run by induction on its bound. -/
theorem runFlagDiscipline : Obligations.RunFlagDiscipline := by
  refine ⟨fun s t hr hf h => ?_, fun s h => microStep_of_idle (idle_of_halted_or_faulted h), fun s t hr hf h => ?_,
    fun s t hr h => ?_, fun s v hf => ?_, fun _ _ _ _ => freeRun_breakpoint_run, rfl⟩
  · rcases microStep_advances_or_faults hr hf h with ⟨huc, -, -⟩ | ⟨hfault, -⟩
    · exact .inl huc
    · exact .inr hfault
  · rcases microStep_advances_or_faults hr hf h with ⟨-, hfault, hrun⟩ | ⟨hfault, hrun⟩
    · simp [hfault, hrun]
    · simp [hfault, hrun]
  · have hidle := idle_of_halted_or_faulted (.inl hr)
    rw [microStep_of_idle hidle, step_of_idle hidle] at h
    rcases h with h | h <;> cases h <;> exact hr
  · simp [setRun, hf]

end Sys2Proof.Machine

/-!
A micro-step or a step that records a fault writes no memory cell and clears RUN (20_memory R73; 60_exceptions R233). A raise ends
the micro-cycle at once, and before it no phase but a completed EXECUTE writes memory.
-/

namespace Sys2Proof.Machine

/-! ### What a newly recorded fault leaves of memory and RUN -/

/-- When a fault stands in `t` that did not in `s`, memory in `t` is what it was in `s` and RUN is clear (R73, R233). -/
def FaultKeepsMemory (s t : State) : Prop := s.fault = .none → t.fault ≠ .none → t.mem = s.mem ∧ t.run = false

theorem FaultKeepsMemory.of_fault_eq {s t : State} (h : t.fault = s.fault) : FaultKeepsMemory s t :=
  fun hs ht => absurd (h.trans hs) ht

theorem faultKeepsMemory_raise (f : FaultCode) (info : Word) (s : State) : FaultKeepsMemory s (raise f info s) :=
  fun _ _ => ⟨rfl, rfl⟩

theorem faultKeepsMemory_afterBoundsFault (s : State) : FaultKeepsMemory s (afterBoundsFault s) :=
  faultKeepsMemory_raise _ _ s

/-- Transfers that wrote neither memory nor FAULT may go before. -/
theorem FaultKeepsMemory.of_frame {s u t : State} (h : FaultKeepsMemory u t) (hf : u.fault = s.fault)
    (hm : u.mem = s.mem) : FaultKeepsMemory s t :=
  fun hs ht => hm ▸ h (hf.trans hs) ht

/-- Of a micro-step it is enough that completed transfers record no fault, and that raised ones wrote no memory. -/
theorem finish_faultKeepsMemory {m : Micro} {u : MicroPos} {s t : State} (hdone : ∀ v, m = .done v → v.fault = s.fault)
    (hraised : ∀ v, m = .raised v → FaultKeepsMemory s v) (h : m.finish u = .next t) : FaultKeepsMemory s t := by
  rcases finish_eq_next_iff.mp h with ⟨v, hv, rfl⟩ | hv
  · exact .of_fault_eq (hdone v hv)
  · exact hraised t hv

/-! ### The phases (40_microcycle R121 to R127) -/

theorem fetchData_raised_faultKeepsMemory {s t : State} (h : fetchData s = .raised t) : FaultKeepsMemory s t := by
  rw [fetchData_raised h]; exact faultKeepsMemory_afterBoundsFault s

theorem operandPhase_raised_faultKeepsMemory {i : Instr} {s t : State} (h : operandPhase i s = .raised t) :
    FaultKeepsMemory s t := by
  rw [operandPhase_raised h]; exact .of_frame (faultKeepsMemory_afterBoundsFault _) rfl rfl

theorem executePhase_raised_faultKeepsMemory {i : Instr} {s t : State} (h : executePhase i s = .raised t) :
    FaultKeepsMemory s t := by
  rw [executePhase_raised h]; exact .of_frame (faultKeepsMemory_afterBoundsFault _) rfl rfl

theorem fetchData_finish_faultKeepsMemory {s t : State} {u : MicroPos} (h : (fetchData s).finish u = .next t) :
    FaultKeepsMemory s t :=
  finish_faultKeepsMemory (fun v hv => by rw [fetchData_done hv]) (fun _ => fetchData_raised_faultKeepsMemory) h

theorem operandPhase_finish_faultKeepsMemory {i : Instr} {s t : State} {u : MicroPos}
    (h : (operandPhase i s).finish u = .next t) : FaultKeepsMemory s t :=
  finish_faultKeepsMemory (fun v hv => by rw [operandPhase_done hv]) (fun _ => operandPhase_raised_faultKeepsMemory) h

theorem executePhase_finish_faultKeepsMemory {i : Instr} {s t : State} {u : MicroPos}
    (h : (executePhase i s).finish u = .next t) : FaultKeepsMemory s t :=
  finish_faultKeepsMemory (fun v hv => by rw [executePhase_done hv]) (fun _ => executePhase_raised_faultKeepsMemory) h

theorem decodeStep_faultKeepsMemory (s : State) : FaultKeepsMemory s (decodeStep s) := by
  rcases decodeStep_cases s with ⟨i, -, e⟩ | ⟨-, e⟩ <;> rw [e]
  · exact .of_fault_eq rfl
  · exact faultKeepsMemory_raise _ _ s

theorem microStep_faultKeepsMemory {s t : State} (h : microStep s = .next t) : FaultKeepsMemory s t := by
  rcases microStep_next h with
    ⟨-, rfl⟩ | ⟨-, ⟨-, rfl⟩ | ⟨-, h⟩ | ⟨-, rfl⟩ | ⟨-, i, -, h⟩ | ⟨-, i, -, h⟩⟩
  · exact .of_fault_eq rfl
  · exact .of_fault_eq rfl
  · exact fetchData_finish_faultKeepsMemory h
  · exact decodeStep_faultKeepsMemory s
  · exact operandPhase_finish_faultKeepsMemory h
  · exact executePhase_finish_faultKeepsMemory h

/-! ### The instruction step, from each position on (40_microcycle R132) -/

theorem exec_faultKeepsMemory {i : Instr} {s t : State} (h : exec i s = .next t) : FaultKeepsMemory s t := by
  rcases exec_next h with ⟨u, hu, h⟩ | h
  · have hframe := operandPhase_done hu
    exact .of_frame (executePhase_finish_faultKeepsMemory h) (by rw [hframe]; rfl) (by rw [hframe]; rfl)
  · exact .of_frame (operandPhase_raised_faultKeepsMemory h) rfl rfl

theorem executeStep_faultKeepsMemory {s t : State} (h : executeStep s = .next t) : FaultKeepsMemory s t := by
  obtain ⟨i, -, h⟩ := executeStep_next h
  exact executePhase_finish_faultKeepsMemory h

theorem runDecode_faultKeepsMemory {s t : State} (h : runDecode s = .next t) : FaultKeepsMemory s t := by
  rcases runDecode_next h with ⟨i, -, h⟩ | ⟨-, rfl⟩
  · exact exec_faultKeepsMemory h
  · exact faultKeepsMemory_raise _ _ s

theorem runFetchData_faultKeepsMemory {s t : State} (h : runFetchData s = .next t) : FaultKeepsMemory s t := by
  rcases runFetchData_next h with ⟨u, hu, h⟩ | h
  · have hframe := fetchData_done hu
    exact .of_frame (runDecode_faultKeepsMemory h) (by rw [hframe]) (by rw [hframe])
  · exact fetchData_raised_faultKeepsMemory h

theorem resumeOperand_faultKeepsMemory {s t : State} (h : resumeOperand s = .next t) : FaultKeepsMemory s t := by
  obtain ⟨i, -, ⟨u, hu, h⟩ | h⟩ := resumeOperand_next h
  · have hframe := operandPhase_done hu
    exact .of_frame (executeStep_faultKeepsMemory h) (by rw [hframe]) (by rw [hframe])
  · exact operandPhase_raised_faultKeepsMemory h

theorem step_faultKeepsMemory {s t : State} (h : step s = .next t) : FaultKeepsMemory s t := by
  rcases step_next h with ⟨-, rfl⟩ | ⟨-, ⟨-, h⟩ | ⟨-, h⟩ | ⟨-, h⟩ | ⟨-, h⟩ | ⟨-, h⟩⟩
  · exact .of_fault_eq rfl
  · exact .of_frame (runFetchData_faultKeepsMemory h) rfl rfl
  · exact runFetchData_faultKeepsMemory h
  · exact runDecode_faultKeepsMemory h
  · exact resumeOperand_faultKeepsMemory h
  · exact executeStep_faultKeepsMemory h

/-- Settles O43: a micro-step and a step that record any fault keep memory and clear RUN, so those that record OUT_OF_BOUNDS do. -/
theorem outOfBoundsWritesNoCell : Obligations.OutOfBoundsWritesNoCell :=
  ⟨fun _ _ hs h ht => microStep_faultKeepsMemory h hs (by simp [ht]),
    fun _ _ hs h ht => step_faultKeepsMemory h hs (by simp [ht])⟩

end Sys2Proof.Machine

/-!
Which words decode rejects and how encode lays out the fields of each format; from these, the statements on the illegal encodings
and on encode (30_encoding R82, R83, R93, R96).
-/

namespace Sys2Proof

/-! ### What decode rejects (30_encoding R93) -/

/-- Decode is total, so it rejects exactly the words it does not accept. -/
theorem decodeWith_eq_error_iff {m : OpcodeMap} {w : Word} :
    decodeWith m w = .error (.invalidOpcode w) ↔ ¬∃ i, decodeWith m w = .ok i := by
  cases hd : decodeWith m w with
  | ok i => simp
  | error e => simp [decodeWith_eq_error hd]

/-- A word with the extended marker is rejected for its reserved bits or for its extended code (R93, R95). -/
theorem decodeWith_eq_error_of_extended {m : OpcodeMap} {w : Word} (hw : bits w 28 4 = 0xF) :
    decodeWith m w = .error (.invalidOpcode w) ↔ bits w 16 8 ≠ 0 ∨ m.find extOpcodes (bits w 24 4) = none := by
  have hok : (∃ i, decodeWith m w = .ok i) ↔ bits w 16 8 = 0 ∧ ∃ op, m.find extOpcodes (bits w 24 4) = some op := by
    constructor
    · rintro ⟨i, hi⟩
      obtain ⟨-, hr, op, hop, -⟩ | ⟨hx, -⟩ := decodeWith_eq_ok.mp hi
      · exact ⟨hr, op, hop⟩
      · exact absurd hw hx
    · rintro ⟨hr, op, hop⟩
      exact ⟨_, decodeWith_eq_ok.mpr (.inl ⟨hw, hr, op, hop, rfl⟩)⟩
  rw [decodeWith_eq_error_iff, hok, not_and_or, Option.eq_none_iff_forall_ne_some, not_exists]

/-- A word without the marker is rejected for its reserved bits or for its basic code (R93, R95). -/
theorem decodeWith_eq_error_of_basic {m : OpcodeMap} {w : Word} (hw : bits w 28 4 ≠ 0xF) :
    decodeWith m w = .error (.invalidOpcode w) ↔ bits w 20 8 ≠ 0 ∨ m.find basicOpcodes (bits w 28 4) = none := by
  have hok : (∃ i, decodeWith m w = .ok i) ↔ bits w 20 8 = 0 ∧ ∃ op, m.find basicOpcodes (bits w 28 4) = some op := by
    constructor
    · rintro ⟨i, hi⟩
      obtain ⟨hx, -⟩ | ⟨-, hr, op, hop, -⟩ := decodeWith_eq_ok.mp hi
      · exact absurd hx hw
      · exact ⟨hr, op, hop⟩
    · rintro ⟨hr, op, hop⟩
      exact ⟨_, decodeWith_eq_ok.mpr (.inr ⟨hw, hr, op, hop, rfl⟩)⟩
  rw [decodeWith_eq_error_iff, hok, not_and_or, Option.eq_none_iff_forall_ne_some, not_exists]

theorem OpcodeMap.default_find_ext_eq_none (c : BitVec 4) :
    OpcodeMap.default.find extOpcodes c = none ↔ 4 ≤ c.toNat := by
  revert c; decide

theorem OpcodeMap.default_find_basic_eq_none {c : BitVec 4} (hc : c ≠ 0xF) :
    OpcodeMap.default.find basicOpcodes c = none ↔ c = 0xB ∨ c = 0xC ∨ c = 0xD ∨ c = 0xE := by
  revert c; decide

/-- The conditions of R93, for the default map. -/
theorem decode_eq_error_iff (w : Word) :
    decode w = .error (.invalidOpcode w) ↔
      (bits w 28 4 = 0xB ∨ bits w 28 4 = 0xC ∨ bits w 28 4 = 0xD ∨ bits w 28 4 = 0xE) ∨
      (bits w 28 4 = 0xF ∧ 4 ≤ (bits w 24 4).toNat) ∨
      (if bits w 28 4 = 0xF then bits w 16 8 ≠ 0 else bits w 20 8 ≠ 0) := by
  by_cases hw : bits w 28 4 = 0xF
  · rw [decode, decodeWith_eq_error_of_extended hw, OpcodeMap.default_find_ext_eq_none, if_pos hw]
    simp [hw, or_comm]
  · rw [decode, decodeWith_eq_error_of_basic hw, OpcodeMap.default_find_basic_eq_none hw, if_neg hw]
    simp only [hw, false_and, false_or]
    exact or_comm

end Sys2Proof

namespace Sys2Proof.Machine

/-- DECODE of a word that does not decode raises IllegalInstruction with the whole word (R124). -/
theorem decodeStep_of_error {s : State} {e : DecodeError} (h : decodeWith s.cfg.opcodeMap s.ir = .error e) :
    decodeStep s = raise .illegalInstruction s.ir s := by
  rcases decodeStep_cases s with ⟨i, hi, -⟩ | ⟨-, hs⟩
  · rw [h] at hi; cases hi
  · exact hs

/-- Settles O3: decode rejects what no lookup accepts, and the two default lookups fail on the unassigned codes of R93. -/
theorem illegalEncodings : Obligations.IllegalEncodings :=
  ⟨decode_eq_error_iff, fun _ _ _ h => decodeWith_eq_error h, fun s hr hf hu ⟨_, he⟩ => by
    rw [microStep_decode hr hf hu, decodeStep_of_error he, raise]⟩

end Sys2Proof.Machine

namespace Sys2Proof

/-! ### The two word formats (30_encoding R82, R83, R96) -/

/-- A word is in the basic format with given fields exactly when these are the fields it is read with. -/
theorem eq_basic_format_iff {w : Word} {c : BitVec 4} {r : BitVec 8} {p : BitVec 20} :
    w = c ++ r ++ p ↔ bits w 28 4 = c ∧ bits w 20 8 = r ∧ bits w 0 20 = p := by
  conv_lhs => lhs; rw [← basic_fields w]
  rw [append_inj_bits, append_inj_bits, and_assoc]

/-- The same for the extended format. -/
theorem eq_extended_format_iff {w : Word} {x c : BitVec 4} {r : BitVec 8} {p : BitVec 16} :
    w = x ++ c ++ r ++ p ↔ bits w 28 4 = x ∧ bits w 24 4 = c ∧ bits w 16 8 = r ∧ bits w 0 16 = p := by
  conv_lhs => lhs; rw [← extended_fields w]
  rw [append_inj_bits, append_inj_bits, append_inj_bits, and_assoc, and_assoc]

/-- An operand beyond its family's field is refused (R96). -/
theorem encodeWith_of_overflow {m : OpcodeMap} {i : Instr} (h : 2 ^ operandBits i.ext ≤ i.operand.toNat) :
    encodeWith m i = .error .operandOverflow := by
  rw [encodeWith, if_pos h]

theorem encodeWith_basic {m : OpcodeMap} {i : Instr} (he : i.ext = false) (h : i.operand.toNat < 2 ^ 20) :
    encodeWith m i = .ok (m.code i.op ++ (0 : BitVec 8) ++ bits i.operand 0 20) :=
  encodeWith_eq_ok.mpr ⟨by simpa [Instr.wf, he, operandBits] using h, by simp [he]⟩

theorem encodeWith_extended {m : OpcodeMap} {i : Instr} (he : i.ext = true) (h : i.operand.toNat < 2 ^ 16) :
    encodeWith m i = .ok (extMarker ++ m.code i.op ++ (0 : BitVec 8) ++ bits i.operand 0 16) :=
  encodeWith_eq_ok.mpr ⟨by simpa [Instr.wf, he, operandBits] using h, by simp [he]⟩

/-- Settles O6: encode refuses or concatenates by the operand's bound, and reading the concatenation's fields gives its parts. -/
theorem encodeFormats : Obligations.EncodeFormats := by
  intro m i
  refine ⟨fun he h => encodeWith_of_overflow ?_, fun he h => encodeWith_of_overflow ?_,
    fun he h => ⟨_, encodeWith_basic he h, eq_basic_format_iff.mp rfl⟩,
    fun he h => ⟨_, encodeWith_extended he h, eq_extended_format_iff.mp rfl⟩⟩
  · rwa [he]
  · rwa [he]

end Sys2Proof

/-!
The micro-cycle as the operations built on the micro-step see it: repeating an operation, the loop of micro-steps in an
instruction step as a relation, and the instruction step's phases as ends of that loop; from these, the statements on FETCH_ADDR,
on step N and on the instruction step (40_microcycle R121, R131 to R135).
-/

namespace Sys2Proof.Machine

/-- Settles O8: at FETCH_ADDR the micro-step of a running machine is that position's transfers. -/
theorem fetchAddressMicroStep : Obligations.FetchAddressMicroStep := fun _ => microStep_fetchAddr

/-! ### Repeating an operation (R133, R134) -/

section
variable {f : State → Host.Outcome State Fault Refusal} {s t : State}

theorem repeatStep_succ_of_next (h : f s = .next t) (k : Nat) : repeatStep f (k + 1) s = repeatStep f k t := by
  simp [repeatStep, h]

@[simp] theorem repeatStep_one : repeatStep f 1 s = f s := by
  cases h : f s <;> simp [repeatStep, h]

/-- Repetitions that answer may be followed by more. -/
theorem repeatStep_add {j : Nat} (h : repeatStep f j s = .next t) (k : Nat) :
    repeatStep f (j + k) s = repeatStep f k t := by
  induction j generalizing s with
  | zero => cases h; rw [Nat.zero_add]
  | succ j ih =>
    cases hs : f s with
    | next u =>
      rw [repeatStep_succ_of_next hs] at h
      rw [Nat.succ_add, repeatStep_succ_of_next hs, ih h]
    | fault e | refused e => simp [repeatStep, hs] at h

theorem repeatStep_of_fixed (h : f s = .next s) (k : Nat) : repeatStep f k s = .next s := by
  induction k with
  | zero => rfl
  | succ k ih => rw [repeatStep_succ_of_next h, ih]

end

/-- Settles O18: repetitions add up, one is the micro-step itself, and an idle machine is a fixed point of it. -/
theorem stepNMicroStepsSplits : Obligations.StepNMicroStepsSplits := fun _ k _ =>
  ⟨fun _ h => repeatStep_add h k, repeatStep_one,
    fun h => repeatStep_of_fixed (microStep_of_idle (idle_of_halted_or_faulted h)) k⟩

/-! ### R132's loop as a relation -/

/-- R132's loop of micro-steps, entered at `s`, ends with `o` after at most `n` of them: at a micro-step that answers no next
state or one that passes the exit test, or after a micro-step that does not pass it and the rest of the loop. -/
inductive LoopEnds : Nat → State → Host.Outcome State Fault Refusal → Prop
  | last {n : Nat} {s : State} {o : Host.Outcome State Fault Refusal} (h : microStep s = o)
      (hend : ∀ t, o = .next t → t.stepEnded = true) : LoopEnds (n + 1) s o
  | more {n : Nat} {s t : State} {o : Host.Outcome State Fault Refusal} (h : microStep s = .next t)
      (hgo : t.stepEnded = false) (hrest : LoopEnds n t o) : LoopEnds (n + 1) s o

namespace LoopEnds
variable {n : Nat} {s : State} {o : Host.Outcome State Fault Refusal}

/-- The model's loop, with a bound at least `n`, answers `o`. -/
theorem untilWrap_eq (h : LoopEnds n s o) {k : Nat} (hk : n ≤ k) : untilWrap k s = o := by
  induction h generalizing k with
  | last h hend =>
    obtain ⟨k, rfl⟩ := Nat.exists_eq_add_of_le' hk
    subst h
    cases hs : microStep _ with
    | next t => simp [untilWrap, hs, hend t hs]
    | fault e | refused e => simp [untilWrap, hs]
  | more h hgo _ ih =>
    obtain ⟨k, rfl⟩ := Nat.exists_eq_add_of_le' hk
    simpa [untilWrap, h, hgo] using ih (Nat.le_add_left _ k)

/-- The loop is a number of micro-steps. -/
theorem eq_stepMicro (h : LoopEnds n s o) : ∃ k, k ≤ n ∧ o = stepMicro k s := by
  induction h with
  | last h => exact ⟨1, by omega, by rw [stepMicro, repeatStep_one, h]⟩
  | more h _ _ ih =>
    obtain ⟨k, hk, rfl⟩ := ih
    exact ⟨k + 1, by omega, (repeatStep_succ_of_next h k).symm⟩

/-- Where the loop ends, its exit test holds. -/
theorem stepEnded {t : State} (h : LoopEnds n s o) (ho : o = .next t) : t.stepEnded = true := by
  induction h with
  | last _ hend => exact hend t ho
  | more _ _ _ ih => exact ih ho

end LoopEnds

/-! ### The instruction step is that loop (R131, R132) -/

theorem stepEnded_of_idle {s : State} (h : s.idle = true) : s.stepEnded = true := by simp [State.stepEnded, h]

/-- Between the fetch's first transfer and the wrap a running machine has not ended its step. -/
theorem stepEnded_eq_false {s : State} (hr : s.run = true) (hf : s.fault = .none) (hu : s.uc ≠ .fetchAddr) :
    s.stepEnded = false := by
  simp [State.stepEnded, idle_eq_false hr hf, hu]

/-- A micro-step that raises is the loop's last. -/
theorem LoopEnds.raised {n : Nat} {s t : State} (h : microStep s = .next t) (hid : t.idle = true) :
    LoopEnds (n + 1) s (.next t) :=
  .last h fun _ ht => by cases ht; exact stepEnded_of_idle hid

/-- A micro-step that hangs or stops is the loop's last. -/
theorem LoopEnds.stopped {n : Nat} {s : State} {e : Fault} (h : microStep s = .fault e) : LoopEnds (n + 1) s (.fault e) :=
  .last h (by simp)

theorem afterBoundsFault_idle (s : State) : (afterBoundsFault s).idle = true := raise_idle ..

/-- exec is DECODE's latch and then the rest of the instruction from OPERAND on. -/
theorem exec_eq_resumeOperand (i : Instr) (s : State) : exec i s = resumeOperand (latch i s) := by
  rw [exec_eq_runPhases, resumeOperand, latch_ci]
  cases hp : operandPhase i (latch i s) with
  | done t =>
    have hci : t.ci = some i := congrArg State.ci (operandPhase_done hp)
    simp [runPhases_done hp, executeStep, hci, hp]
  | raised t => simp [runPhases_raised hp, hp]
  | stuck e => simp [runPhases_stuck hp, hp]

section
variable {s : State} (hr : s.run = true) (hf : s.fault = .none) (n : Nat)
include hr hf

theorem executeStep_loopEnds (hu : s.uc = .execute) : LoopEnds (n + 1) s (executeStep s) := by
  refine .last (by simp [microStep, idle_eq_false hr hf, hu]) fun t ht => ?_
  obtain ⟨i, -, h⟩ := executeStep_next ht
  rcases finish_eq_next_iff.mp h with ⟨v, -, rfl⟩ | h
  · simp [State.stepEnded]
  · rw [executePhase_raised h]; exact stepEnded_of_idle (afterBoundsFault_idle _)

theorem resumeOperand_loopEnds (hu : s.uc = .operand) : LoopEnds (n + 2) s (resumeOperand s) := by
  cases hi : s.ci with
  | none =>
    have hm : microStep s = .fault .noActiveInstruction := by
      simp [microStep, idle_eq_false hr hf, hu, operandStep, hi]
    simpa [resumeOperand, hi] using LoopEnds.stopped hm
  | some i =>
    have hm := microStep_operand hr hf hu hi
    cases hp : operandPhase i s with
    | done t =>
      have htr : t.run = true := (congrArg State.run (operandPhase_done hp)).trans hr
      have htf : t.fault = .none := (congrArg State.fault (operandPhase_done hp)).trans hf
      rw [hp, finish_done] at hm
      simp only [resumeOperand, hi, hp]
      exact .more hm (stepEnded_eq_false htr htf nofun)
        (executeStep_loopEnds (s := { t with uc := .execute }) htr htf n rfl)
    | raised t =>
      rw [hp, finish_raised] at hm
      simp only [resumeOperand, hi, hp]
      exact .raised hm (by rw [operandPhase_raised hp, afterBoundsFault_idle])
    | stuck e =>
      rw [hp, finish_stuck] at hm
      simp only [resumeOperand, hi, hp]
      exact .stopped hm

theorem runDecode_loopEnds (hu : s.uc = .decode) : LoopEnds (n + 3) s (runDecode s) := by
  have hm := microStep_decode hr hf hu
  rcases decodeStep_cases s with ⟨i, hi, e⟩ | ⟨hi, e⟩ <;> rw [e] at hm
  · simp only [runDecode, hi, exec_eq_resumeOperand]
    exact .more hm (stepEnded_eq_false (s := latch i s) hr hf nofun) (resumeOperand_loopEnds (s := latch i s) hr hf n rfl)
  · simp only [runDecode, hi]
    exact .raised hm (raise_idle ..)

theorem runFetchData_loopEnds (hu : s.uc = .fetchData) : LoopEnds (n + 4) s (runFetchData s) := by
  have hm := microStep_fetchData hr hf hu
  cases hp : fetchData s with
  | done t =>
    have htr : t.run = true := (congrArg State.run (fetchData_done hp)).trans hr
    have htf : t.fault = .none := (congrArg State.fault (fetchData_done hp)).trans hf
    rw [hp, finish_done] at hm
    simp only [runFetchData, hp]
    exact .more hm (stepEnded_eq_false htr htf nofun) (runDecode_loopEnds (s := { t with uc := .decode }) htr htf n rfl)
  | raised t =>
    rw [hp, finish_raised] at hm
    simp only [runFetchData, hp]
    exact .raised hm (by rw [fetchData_raised hp, afterBoundsFault_idle])
  | stuck e =>
    rw [hp, finish_stuck] at hm
    simp only [runFetchData, hp]
    exact .stopped hm

/-- From every position the instruction step is what is left of the loop, at most five micro-steps. -/
theorem step_loopEnds : LoopEnds 5 s (step s) := by
  have hid := idle_eq_false hr hf
  cases hu : s.uc with
  | fetchAddr =>
    have hstep : step s = runFetchData (fetchAddr s) := by simp [step, runInstruction, hid, hu]
    rw [hstep]
    exact .more (microStep_fetchAddr hr hf hu) (stepEnded_eq_false (s := fetchAddr s) hr hf nofun)
      (runFetchData_loopEnds (s := fetchAddr s) hr hf 0 rfl)
  | fetchData => simpa [step, runInstruction, hid, hu] using runFetchData_loopEnds hr hf 1 hu
  | decode => simpa [step, runInstruction, hid, hu] using runDecode_loopEnds hr hf 2 hu
  | operand => simpa [step, runInstruction, hid, hu] using resumeOperand_loopEnds hr hf 3 hu
  | execute => simpa [step, runInstruction, hid, hu] using executeStep_loopEnds hr hf 4 hu

end

/-! ### Step, step N and free-run by micro-steps (R131 to R135) -/

theorem untilWrap_eq_step {s : State} (h : s.idle = false) {k : Nat} (hk : 5 ≤ k) : untilWrap k s = step s := by
  obtain ⟨hf, hr⟩ := (idle_eq_false_iff s).mp h
  exact (step_loopEnds hr hf).untilWrap_eq hk

theorem step_eq_instructionStep (s : State) : step s = instructionStep s := by
  cases h : s.idle with
  | true => simp [instructionStep, h, step_of_idle h]
  | false => simp [instructionStep, h, untilWrap_eq_step h]

theorem exists_step_eq_stepMicro (s : State) : ∃ k, k ≤ 5 ∧ step s = stepMicro k s := by
  rcases idle_or_running s with h | ⟨hr, hf⟩
  · exact ⟨0, by omega, step_of_idle h⟩
  · exact (step_loopEnds hr hf).eq_stepMicro

theorem step_stepEnded {s t : State} (h : step s = .next t) : t.stepEnded = true := by
  rcases idle_or_running s with hid | ⟨hr, hf⟩
  · rw [step_of_idle hid] at h; cases h; exact stepEnded_of_idle hid
  · exact (step_loopEnds hr hf).stepEnded h

theorem stepEnded_iff (s : State) : s.stepEnded = true ↔ s.uc = .fetchAddr ∨ s.fault ≠ .none ∨ s.run = false := by
  simp [State.stepEnded, State.idle]

/-- Step N instruction steps are micro-steps, by induction on N: each step is some, and micro-steps add up. -/
theorem exists_stepInstructions_eq_stepMicro (n : Nat) (s : State) : ∃ k, stepInstructions n s = stepMicro k s := by
  induction n generalizing s with
  | zero => exact ⟨0, rfl⟩
  | succ n ih =>
    obtain ⟨j, -, hj⟩ := exists_step_eq_stepMicro s
    cases hs : step s with
    | next t =>
      obtain ⟨k, hk⟩ := ih t
      refine ⟨j + k, ?_⟩
      rw [stepInstructions, repeatStep_succ_of_next hs, ← stepInstructions, hk]
      exact (repeatStep_add (hj.symm.trans hs) k).symm
    | fault e | refused e => exact ⟨j, by simp [stepInstructions, repeatStep, hs, ← hj]⟩

/-- Free-run ends after some number of instruction steps, by induction on its bound. -/
theorem exists_stepInstructions_of_freeRun {fuel : Nat} {stops : List Bool} {s t : State} {r : StopReason}
    (h : freeRun fuel stops s = .next (t, r)) : ∃ n, stepInstructions n s = .next t := by
  fun_induction freeRun fuel stops s
  case case1 | case2 | case3 => cases h; exact ⟨0, rfl⟩ -- no step is made
  case case4 | case5 => cases h -- the step does not answer
  case case6 | case7 | case8 | case9 => -- the boundary after the step ends the run
    cases h; exact ⟨1, repeatStep_one.trans ‹step _ = _›⟩
  case case10 hs _ _ _ _ ih => -- free-run passes that boundary
    obtain ⟨n, hn⟩ := ih h
    exact ⟨n + 1, (repeatStep_succ_of_next hs n).trans hn⟩

/-- Settles O16: in a running machine the step is R132's loop from its position on, so what is built on the step is built on
micro-steps. -/
theorem stepIsRepeatedMicroSteps : Obligations.StepIsRepeatedMicroSteps := by
  refine ⟨step_eq_instructionStep, exists_step_eq_stepMicro, fun s t h => (stepEnded_iff t).mp (step_stepEnded h),
    fun s k hid hk => (untilWrap_eq_step hid hk).trans (untilWrap_eq_step hid (Nat.le_refl 5)).symm,
    exists_stepInstructions_eq_stepMicro, fun fuel stops s t r h => ?_⟩
  obtain ⟨n, hn⟩ := exists_stepInstructions_of_freeRun h
  obtain ⟨k, hk⟩ := exists_stepInstructions_eq_stepMicro n s
  exact ⟨k, hk ▸ hn⟩

end Sys2Proof.Machine

/-!
A row of the opcode table for each basic opcode, an instruction with a direct operand by how its read ends, and the five ALU
instructions as one family of those; from these, the statements on ADD, AND, OR, XOR and EQL (41_arith_logic R150 to R157).
-/

namespace Sys2Proof

/-! ### A basic row of the opcode table (30_encoding R82, R91) -/

/-- Masking a word to its upper 12 bits leaves the code and the reserved field, in front of an empty operand. -/
theorem and_basicMask_eq_iff {w : Word} {c : BitVec 4} :
    w &&& 0xFFF00000 = c ++ (0 : BitVec 8) ++ (0 : BitVec 20) ↔ bits w 28 4 = c ∧ bits w 20 8 = 0 := by
  have hcode : bits (w &&& 0xFFF00000) 28 4 = bits w 28 4 :=
    BitVec.extractLsb'_and.trans (BitVec.and_allOnes (x := bits w 28 4))
  have hreserved : bits (w &&& 0xFFF00000) 20 8 = bits w 20 8 :=
    BitVec.extractLsb'_and.trans (BitVec.and_allOnes (x := bits w 20 8))
  have hoperand : bits (w &&& 0xFFF00000) 0 20 = 0 :=
    BitVec.extractLsb'_and.trans (BitVec.and_zero (x := bits w 0 20))
  rw [eq_basic_format_iff, hcode, hreserved, hoperand]
  simp only [and_true]

/-- The bits outside that mask are the operand, zero-extended (R85). -/
theorem and_not_basicMask (w : Word) : w &&& ~~~0xFFF00000 = zext32 (bits w 0 20) := by
  apply BitVec.eq_of_toNat_eq
  rw [zext32_bits_toNat w 20 (by decide), BitVec.toNat_and]
  exact Nat.and_two_pow_sub_one_eq_mod w.toNat 20

theorem OpcodeMap.default_valid : OpcodeMap.default.valid = true := by decide

/-- No basic opcode has the extended marker as its code (R92). -/
theorem OpcodeMap.code_ne_extMarker {m : OpcodeMap} (hm : m.valid = true) {op : Opcode} (hop : op ∈ basicOpcodes) :
    m.code op ≠ 0xF := by
  obtain ⟨-, hmarker, -⟩ := OpcodeMap.valid_iff.mp hm
  exact fun h => hmarker (h ▸ List.mem_map_of_mem hop)

/-- The words that decode to an instruction with a basic opcode are those of its code and a clear reserved field (R91, R95). -/
theorem decodeWith_eq_ok_instr_iff {m : OpcodeMap} (hm : m.valid = true) {op : Opcode} (hop : op ∈ basicOpcodes)
    {w a : Word} :
    decodeWith m w = .ok (op.instr a) ↔ bits w 28 4 = m.code op ∧ bits w 20 8 = 0 ∧ a = zext32 (bits w 0 20) := by
  have hmarker := OpcodeMap.code_ne_extMarker hm hop
  have op_eq {op' : Opcode} {b : Word} (h : op.instr a = op'.instr b) : op' = op := by
    simpa using (congrArg Instr.op h).symm
  rw [decodeWith_eq_ok]
  constructor
  · rintro (⟨-, -, op', hfind, hi⟩ | ⟨-, hr, op', hfind, hi⟩)
    · obtain rfl := op_eq hi
      have hext := (Opcode.mem_extOpcodes op').mp (OpcodeMap.find_sound hfind).1
      simp [(Opcode.mem_basicOpcodes op').mp hop] at hext
    · obtain rfl := op_eq hi
      exact ⟨(OpcodeMap.find_sound hfind).2.symm, hr, by simpa using congrArg Instr.operand hi⟩
  · rintro ⟨hc, hr, rfl⟩
    rw [hc]
    exact .inr ⟨hmarker, hr, op, OpcodeMap.find_complete (OpcodeMap.valid_iff.mp hm).1 hop, rfl⟩

end Sys2Proof

namespace Sys2Proof.Machine

/-- The table's row of a basic opcode: its code, then zeros (R91). -/
theorem decodesRow_basic {op : Opcode} (hop : op ∈ basicOpcodes) :
    DecodesRow (OpcodeMap.default.code op ++ (0 : BitVec 8) ++ (0 : BitVec 20)) 0xFFF00000 op.instr := by
  refine ⟨fun w hw => ?_, fun w a hw => ?_⟩
  · obtain ⟨hc, hr⟩ := and_basicMask_eq_iff.mp hw
    exact (decodeWith_eq_ok_instr_iff OpcodeMap.default_valid hop).mpr ⟨hc, hr, and_not_basicMask w⟩
  · obtain ⟨hc, hr, -⟩ := (decodeWith_eq_ok_instr_iff OpcodeMap.default_valid hop).mp hw
    exact and_basicMask_eq_iff.mpr ⟨hc, hr⟩

/-! ### An instruction with a direct operand, by how its read ends (40_microcycle R125) -/

section
variable {i : Instr} {s : State} (hi : ∀ u, operandPhase i u = operandDirect i.operand u)
include hi

theorem exec_direct_legal (h : i.operand.toNat < s.cfg.memSize) (hc : ReadAnswers s i.operand) :
    exec i s = (executePhase i { afterDataRead (latch i s) i.operand with uc := .execute }).finish .fetchAddr :=
  (exec_eq_runPhases i s).trans (runPhases_done ((hi _).trans (operandDirect_legal h hc)))

theorem exec_direct_hangs (h : i.operand.toNat < s.cfg.memSize) (hc : ¬ReadAnswers s i.operand) :
    exec i s = .fault .callbackNeverReturns :=
  (exec_eq_runPhases i s).trans (runPhases_stuck ((hi _).trans (operandDirect_hangs h hc)))

theorem exec_direct_illegal (h : s.cfg.memSize ≤ i.operand.toNat) :
    exec i s = .next (afterBoundsFault { latch i s with sar := i.operand }) :=
  (exec_eq_runPhases i s).trans (runPhases_raised ((hi _).trans (operandDirect_illegal h)))

end

/-! ### The five ALU instructions (41_arith_logic R150 to R156) -/

/-- The opcodes the ALU computes (R150). -/
def aluOpcodes : List Opcode := [.add, .and, .or, .xor, .eql]

section
variable {op : Opcode} (hop : op ∈ aluOpcodes)
include hop

theorem mem_basicOpcodes_of_alu : op ∈ basicOpcodes := by
  revert op; decide

theorem operandPhase_of_alu (a : Word) (s : State) : operandPhase (op.instr a) s = operandDirect a s := by
  cases op with
  | add | and | or | xor | eql => rfl
  | _ => simp [aluOpcodes] at hop

theorem executePhase_of_alu (a : Word) (s : State) : executePhase (op.instr a) s = executeAlu s := by
  cases op with
  | add | and | or | xor | eql => rfl
  | _ => simp [aluOpcodes] at hop

theorem traOf_of_alu (a : Word) : traOf (op.instr a) = false := by
  cases op with
  | add | and | or | xor | eql => rfl
  | _ => simp [aluOpcodes] at hop

end

/-- When ALUOP selects an operation, EXECUTE writes X, Y, Z and ACC (R150). -/
theorem executeAlu_of_alu {s : State} {v : Word} (h : alu s.aluop s.acc s.sir = some v) :
    executeAlu s = .done { s with x := s.acc, y := s.sir, z := v, acc := v } := by
  simp only [executeAlu, h]

/-- An ALU opcode whose selector computes `f` is an instruction of the shape of R152 to R156, at its own row. -/
theorem aluInstruction_of_alu {op : Opcode} {sel : AluSel} {f : Word → Word → Word} (hop : op ∈ aluOpcodes)
    (hsel : ∀ a, aluSelOf (op.instr a) = sel) (halu : ∀ x y, alu sel x y = some (f x y)) :
    AluInstruction (OpcodeMap.default.code op ++ (0 : BitVec 8) ++ (0 : BitVec 20)) op.instr sel f := by
  refine ⟨decodesRow_basic (mem_basicOpcodes_of_alu hop), fun a s => ?_⟩
  have hdirect : ∀ u, operandPhase (op.instr a) u = operandDirect (op.instr a).operand u := by
    simpa using operandPhase_of_alu hop a
  have hlatch : latch (op.instr a) s = { s with ci := some (op.instr a), tra := false, aluop := sel, uc := .operand } := by
    rw [latch, traOf_of_alu hop, hsel]
  refine ⟨fun h hc => ?_, fun h hc => ?_, fun h => ?_⟩
  · rw [exec_direct_legal hdirect (by simpa using h) (by simpa using hc), executePhase_of_alu hop, Opcode.instr_operand,
      hlatch, executeAlu_of_alu (halu _ _)]
    rfl
  · exact exec_direct_hangs hdirect (by simpa using h) (by simpa using hc)
  · rw [exec_direct_illegal hdirect (by simpa using h), Opcode.instr_operand, hlatch]

/-- Settles O20: ADD is the ALU instruction that adds. -/
theorem addAddsModulo : Obligations.AddAddsModulo :=
  aluInstruction_of_alu (op := .add) (by decide) (fun _ => rfl) (fun _ _ => rfl)

/-- Settles O21: AND is the ALU instruction of the bitwise AND. -/
theorem andIsBitwise : Obligations.AndIsBitwise :=
  aluInstruction_of_alu (op := .and) (by decide) (fun _ => rfl) (fun _ _ => rfl)

/-- Settles O22: OR is the ALU instruction of the bitwise OR. -/
theorem orIsBitwise : Obligations.OrIsBitwise :=
  aluInstruction_of_alu (op := .or) (by decide) (fun _ => rfl) (fun _ _ => rfl)

/-- Settles O23: XOR is the ALU instruction of the bitwise exclusive OR. -/
theorem xorIsBitwise : Obligations.XorIsBitwise :=
  aluInstruction_of_alu (op := .xor) (by decide) (fun _ => rfl) (fun _ _ => rfl)

/-! ### EQL and the branch after it (41_arith_logic R156; 43_control R194) -/

/-- EQL is the ALU instruction that compares (R156). -/
theorem aluInstruction_eql :
    AluInstruction 0x70000000 Instr.eql .eql (fun x y => if x = y then 0xFFFFFFFF else 0) :=
  aluInstruction_of_alu (op := .eql) (by decide) (fun _ => rfl) (fun _ _ => rfl)

/-- JMN completes in every state, with the target in SAR, and in IAR when ACC is negative (R194). -/
theorem exec_jmn (j : Word) (s : State) :
    exec (.jmn j) s = .next { latch (.jmn j) s with
      sar := j, uc := .fetchAddr, iar := if s.acc.msb then j else s.iar } := by
  rw [exec_eq_runPhases, runPhases_done (t := { latch (.jmn j) s with sar := j }) rfl]
  cases hn : s.acc.msb <;> simp [executePhase, executeJmn, State.negative, hn, jumpTo]

/-- EQL of a legal address that answers leaves the comparison in ACC, and IAR as it was (R156). -/
theorem exec_eql_acc_iar {a : Word} {s t : State} (hl : a.toNat < s.cfg.memSize) (h : exec (.eql a) s = .next t) :
    t.acc = (if s.acc = (dataRead s a).1 then 0xFFFFFFFF else 0) ∧ t.iar = s.iar := by
  obtain ⟨hanswers, hhangs, -⟩ := aluInstruction_eql.2 a s
  by_cases hc : ReadAnswers s a
  · rw [hanswers hl hc] at h; cases h; exact ⟨rfl, rfl⟩
  · rw [hhangs hl hc] at h; cases h

/-- Settles O24: EQL is the ALU instruction that compares, and bit 31 of what it leaves in ACC says whether JMN branches. -/
theorem eqlComparesWords : Obligations.EqlComparesWords := by
  refine ⟨aluInstruction_eql, fun a j s t u hl ht hu => ?_⟩
  obtain ⟨hacc, hiar⟩ := exec_eql_acc_iar hl ht
  rw [exec_jmn] at hu
  cases hu
  have hones : (0xFFFFFFFF : Word).msb = true := by decide
  by_cases heq : s.acc = (dataRead s a).1
  · simp only [hacc, heq, if_true, hones]
  · simp [hacc, hiar, heq]

end Sys2Proof.Machine

/-!
An instruction by how its OPERAND transfers end, and STV as the write of ACC at its operand; from these, the statements on
LDV, LDIV and STV (42_load_store R174 to R178).
-/

namespace Sys2Proof.Machine

/-! ### An instruction by how its OPERAND transfers end (40_microcycle R125, R126) -/

section
variable (i : Instr) (s : State)

theorem exec_of_operand_done {t : State} (h : operandPhase i (latch i s) = .done t) :
    exec i s = (executePhase i { t with uc := .execute }).finish .fetchAddr :=
  (exec_eq_runPhases i s).trans (runPhases_done h)

theorem exec_of_operand_raised {t : State} (h : operandPhase i (latch i s) = .raised t) : exec i s = .next t :=
  (exec_eq_runPhases i s).trans (runPhases_raised h)

theorem exec_of_operand_stuck {e : Fault} (h : operandPhase i (latch i s) = .stuck e) : exec i s = .fault e :=
  (exec_eq_runPhases i s).trans (runPhases_stuck h)

end

/-! ### The loads (42_load_store R174, R176) -/

/-- Settles O26: LDV has a direct operand, and its EXECUTE copies the word read to ACC. -/
theorem ldvLoadsMemory : Obligations.LdvLoadsMemory := by
  refine ⟨decodesRow_basic (op := .ldv) (by decide), fun a s => ?_⟩
  have hdirect : ∀ u, operandPhase (.ldv a) u = operandDirect (Instr.ldv a).operand u := fun _ => rfl
  exact ⟨exec_direct_legal hdirect, exec_direct_hangs hdirect, exec_direct_illegal hdirect⟩

/-- Settles O27: LDIV's OPERAND is two reads, each of which answers, hangs or faults, and its EXECUTE copies the second word
read to ACC. -/
theorem ldivLoadsIndirect : Obligations.LdivLoadsIndirect := by
  refine ⟨decodesRow_basic (op := .ldiv) (by decide), fun p s => ⟨?_, ?_, ?_, ?_, ?_⟩⟩
  · exact fun hp hread ha hread' => exec_of_operand_done (.ldiv p) s (operandIndirect_legal hp hread ha hread')
  · exact fun hp hhang => exec_of_operand_stuck (.ldiv p) s (operandIndirect_hangsPointer hp hhang)
  · exact fun hp hread ha hhang => exec_of_operand_stuck (.ldiv p) s (operandIndirect_hangsPointee hp hread ha hhang)
  · exact fun hp hread ha => exec_of_operand_raised (.ldiv p) s (operandIndirect_illegalPointee hp hread ha)
  · exact fun hp => exec_of_operand_raised (.ldiv p) s (operandIndirect_illegal hp)

/-! ### The store (42_load_store R178) -/

theorem writesDevice_iff (s : State) (a : Word) : s.writesDevice a = true ↔ a ∈ s.cfg.writeDev := by
  simp [State.writesDevice]

/-- A write leaves every other address as it was, however it ends (20_memory R57, R63, R73). -/
theorem memWrite_finish_read_other {s t : State} {u : MicroPos} {b : Nat} (h : (memWrite s).finish u = .next t)
    (hb : b ≠ s.sar.toNat) : Memory.read t.mem b = Memory.read s.mem b := by
  rcases memWrite_cases s with ⟨-, -, e⟩ | ⟨-, -, -, e⟩ | ⟨-, -, -, e⟩ | ⟨-, e⟩ <;> rw [e] at h <;> cases h
  · exact Memory.read_write_other _ _ _ _ hb
  · rfl
  · rfl

/-- STV just before its write: the operand is in SAR, and ACC in SIR (R178). -/
def beforeStore (a : Word) (s : State) : State :=
  { latch (.stv a) s with sar := a, sir := s.acc, uc := .execute }

/-- STV is the write of ACC at its operand (R178). -/
theorem exec_stv (a : Word) (s : State) : exec (.stv a) s = (memWrite (beforeStore a s)).finish .fetchAddr :=
  exec_of_operand_done (.stv a) s rfl

section
variable {a : Word} {s : State}

theorem exec_stv_plain (h : a.toNat < s.cfg.memSize) (hd : a ∉ s.cfg.writeDev) :
    exec (.stv a) s = .next { beforeStore a s with uc := .fetchAddr, mem := Memory.write s.mem a.toNat s.acc } := by
  rw [exec_stv, memWrite_plain (s := beforeStore a s) ((legal_iff _ a).mpr h)
    (Bool.eq_false_iff.mpr (mt (writesDevice_iff _ a).mp hd))]
  rfl

theorem exec_stv_device (h : a.toNat < s.cfg.memSize) (hd : a ∈ s.cfg.writeDev) (hc : s.stallsAt ≠ some s.draws) :
    exec (.stv a) s = .next { deviceWrite a (beforeStore a s) with uc := .fetchAddr } := by
  rw [exec_stv, memWrite_device (s := beforeStore a s) ((legal_iff _ a).mpr h) ((writesDevice_iff _ a).mpr hd)
    ((callbackReturns_iff _).mpr hc)]
  rfl

theorem exec_stv_hangs (h : a.toNat < s.cfg.memSize) (hd : a ∈ s.cfg.writeDev) (hc : s.stallsAt = some s.draws) :
    exec (.stv a) s = .fault .callbackNeverReturns := by
  rw [exec_stv, memWrite_stalls (s := beforeStore a s) ((legal_iff _ a).mpr h) ((writesDevice_iff _ a).mpr hd)
    ((callbackReturns_eq_false _).mpr hc), finish_stuck]

theorem exec_stv_illegal (h : s.cfg.memSize ≤ a.toNat) :
    exec (.stv a) s = .next (afterBoundsFault (beforeStore a s)) := by
  rw [exec_stv, memWrite_outOfBounds (s := beforeStore a s) (Bool.eq_false_iff.mpr (mt (legal_iff _ a).mp h.not_gt))]
  rfl

end

/-- Settles O28: STV by how its write ends; the memory clauses are the laws of a read after a write. -/
theorem stvStoresAccumulator : Obligations.StvStoresAccumulator := by
  refine ⟨decodesRow_basic (op := .stv) (by decide), fun a s =>
    ⟨exec_stv_plain, exec_stv_device, exec_stv_hangs, exec_stv_illegal, fun t ht b hb => ?_, fun hwf h hd t ht => ?_⟩⟩
  · rw [exec_stv] at ht
    exact memWrite_finish_read_other (s := beforeStore a s) ht hb
  · rw [exec_stv_plain h hd] at ht
    cases ht
    exact Memory.read_write_same s.mem hwf a.toNat s.acc

end Sys2Proof.Machine

/-!
A row of the opcode table for each extended opcode, and the step of a machine whose IAR is out of range; from these, the
statements on JMP, JMN and HLT (43_control R192 to R197).
-/

namespace Sys2Proof

/-! ### An extended row of the opcode table (30_encoding R83, R91) -/

theorem Opcode.instr_inj {op op' : Opcode} {a b : Word} : op.instr a = op'.instr b ↔ op = op' ∧ a = b := by
  constructor
  · intro h
    exact ⟨by simpa using congrArg Instr.op h, by simpa using congrArg Instr.operand h⟩
  · rintro ⟨rfl, rfl⟩; rfl

/-- Masking a word to its upper 16 bits leaves the marker, the code and the reserved field, in front of an empty operand. -/
theorem and_extendedMask_eq_iff {w : Word} {x c : BitVec 4} :
    w &&& 0xFFFF0000 = x ++ c ++ (0 : BitVec 8) ++ (0 : BitVec 16) ↔
      bits w 28 4 = x ∧ bits w 24 4 = c ∧ bits w 16 8 = 0 := by
  have hmarker : bits (w &&& 0xFFFF0000) 28 4 = bits w 28 4 :=
    BitVec.extractLsb'_and.trans (BitVec.and_allOnes (x := bits w 28 4))
  have hcode : bits (w &&& 0xFFFF0000) 24 4 = bits w 24 4 :=
    BitVec.extractLsb'_and.trans (BitVec.and_allOnes (x := bits w 24 4))
  have hreserved : bits (w &&& 0xFFFF0000) 16 8 = bits w 16 8 :=
    BitVec.extractLsb'_and.trans (BitVec.and_allOnes (x := bits w 16 8))
  have hoperand : bits (w &&& 0xFFFF0000) 0 16 = 0 :=
    BitVec.extractLsb'_and.trans (BitVec.and_zero (x := bits w 0 16))
  rw [eq_extended_format_iff, hmarker, hcode, hreserved, hoperand]
  simp only [and_true]

/-- The bits outside that mask are the operand, zero-extended (R85). -/
theorem and_not_extendedMask (w : Word) : w &&& ~~~0xFFFF0000 = zext32 (bits w 0 16) := by
  apply BitVec.eq_of_toNat_eq
  rw [zext32_bits_toNat w 16 (by decide), BitVec.toNat_and]
  exact Nat.and_two_pow_sub_one_eq_mod w.toNat 16

/-- The words that decode to an instruction with an extended opcode are those of the marker, its code and a clear reserved field
(R91, R95). -/
theorem decodeWith_eq_ok_instr_iff_of_extended {m : OpcodeMap} (hm : m.valid = true) {op : Opcode} (hop : op ∈ extOpcodes)
    {w a : Word} :
    decodeWith m w = .ok (op.instr a) ↔
      bits w 28 4 = 0xF ∧ bits w 24 4 = m.code op ∧ bits w 16 8 = 0 ∧ a = zext32 (bits w 0 16) := by
  rw [decodeWith_eq_ok]
  constructor
  · rintro (⟨hx, hr, op', hfind, hi⟩ | ⟨-, -, op', hfind, hi⟩) <;> obtain ⟨rfl, rfl⟩ := Opcode.instr_inj.mp hi
    · exact ⟨hx, (OpcodeMap.find_sound hfind).2.symm, hr, rfl⟩
    · have hbasic := (Opcode.mem_basicOpcodes op).mp (OpcodeMap.find_sound hfind).1
      simp [(Opcode.mem_extOpcodes op).mp hop] at hbasic
  · rintro ⟨hx, hc, hr, rfl⟩
    rw [hc]
    exact .inl ⟨hx, hr, op, OpcodeMap.find_complete (OpcodeMap.valid_iff.mp hm).2.2 hop, rfl⟩

end Sys2Proof

namespace Sys2Proof.Machine

/-- The table's row of an extended opcode: the marker, its code, then zeros (R91). -/
theorem decodesRow_extended {op : Opcode} (hop : op ∈ extOpcodes) :
    DecodesRow (extMarker ++ OpcodeMap.default.code op ++ (0 : BitVec 8) ++ (0 : BitVec 16)) 0xFFFF0000 op.instr := by
  refine ⟨fun w hw => ?_, fun w a hw => ?_⟩
  · obtain ⟨hx, hc, hr⟩ := and_extendedMask_eq_iff.mp hw
    exact (decodeWith_eq_ok_instr_iff_of_extended OpcodeMap.default_valid hop).mpr ⟨hx, hc, hr, and_not_extendedMask w⟩
  · obtain ⟨hx, hc, hr, -⟩ := (decodeWith_eq_ok_instr_iff_of_extended OpcodeMap.default_valid hop).mp hw
    exact and_extendedMask_eq_iff.mpr ⟨hx, hc, hr⟩

/-! ### The next fetch (43_control R192; 40_microcycle R122) -/

theorem step_of_ready {s : State} (h : Ready s) : step s = runFetchData (fetchAddr s) := by
  simp [step, runInstruction, idle_eq_false h.running h.noFault, h.boundary]

/-- A step that fetches from an address out of range records OUT_OF_BOUNDS for it at FETCH_DATA. -/
theorem step_of_iar_outOfBounds {s : State} (h : Ready s) (hl : s.cfg.memSize ≤ s.iar.toNat) :
    step s = .next (raise .outOfBounds s.iar (fetchAddr s)) := by
  have hillegal : (fetchAddr s).legal (fetchAddr s).sar = false :=
    Bool.eq_false_iff.mpr (mt (legal_iff _ _).mp hl.not_gt)
  simp [step_of_ready h, runFetchData, fetchData_outOfBounds hillegal]

/-! ### The control instructions (43_control R192 to R197) -/

/-- The machine after a jump to `j` by the instruction `i`: the target is in IAR and still staged in SAR (R192). -/
def afterJump (i : Instr) (j : Word) (s : State) : State :=
  { latch i s with uc := .fetchAddr, sar := j, iar := j }

/-- A jump out of range by a running machine faults at the next fetch, where SAR already holds the target (R192). -/
theorem step_afterJump_outOfBounds (i : Instr) {j : Word} {s : State} (hr : s.run = true) (hf : s.fault = .none)
    (hl : s.cfg.memSize ≤ j.toNat) :
    step (afterJump i j s) = .next { afterJump i j s with
      uc := .fetchData, fault := .outOfBounds, faultInfo := j, run := false } :=
  step_of_iar_outOfBounds (s := afterJump i j s) ⟨hr, hf, rfl⟩ hl

/-- JMP is a jump in every state (R192). -/
theorem exec_jmp (j : Word) (s : State) : exec (.jmp j) s = .next (afterJump (.jmp j) j s) :=
  exec_of_operand_done (.jmp j) s rfl

/-- JMN of a negative ACC is a jump (R194). -/
theorem exec_jmn_of_negative {j : Word} {s : State} (hn : s.acc.msb = true) :
    exec (.jmn j) s = .next (afterJump (.jmn j) j s) := by
  rw [exec_jmn, hn]; rfl

/-- JMN of any other ACC only stages its target (R194). -/
theorem exec_jmn_of_not_negative {j : Word} {s : State} (hn : s.acc.msb = false) :
    exec (.jmn j) s = .next { latch (.jmn j) s with uc := .fetchAddr, sar := j } := by
  rw [exec_jmn, hn]; rfl

/-- HLT clears RUN, and UC wraps as after every instruction (R197). -/
theorem exec_hlt (n : Word) (s : State) :
    exec (.hlt n) s = .next { latch (.hlt n) s with uc := .fetchAddr, run := false } :=
  exec_of_operand_done (.hlt n) s rfl

theorem stepMicro_of_idle {s : State} (h : s.idle = true) (k : Nat) : stepMicro k s = .next s :=
  repeatStep_of_fixed (microStep_of_idle h) k

/-- Settles O29: JMP is a jump, and the step after a jump out of range faults. -/
theorem jmpJumps : Obligations.JmpJumps := by
  refine ⟨decodesRow_basic (op := .jmp) (by decide), fun j s => ⟨exec_jmp j s, fun hr hf hl t ht => ?_⟩⟩
  rw [exec_jmp] at ht
  cases ht
  exact step_afterJump_outOfBounds (.jmp j) hr hf hl

/-- Settles O30: bit 31 is the sign of ACC, by which JMN is a jump or leaves IAR alone. -/
theorem jmnJumpsIfNegative : Obligations.JmnJumpsIfNegative := by
  refine ⟨decodesRow_basic (op := .jmn) (by decide), fun j s => ?_⟩
  have hsign : s.acc.getLsbD 31 = s.acc.msb := (BitVec.msb_eq_getLsbD_last s.acc).symm
  rw [hsign]
  refine ⟨exec_jmn_of_negative, exec_jmn_of_not_negative, fun hr hf hn hl t ht => ?_⟩
  rw [exec_jmn_of_negative hn] at ht
  cases ht
  exact step_afterJump_outOfBounds (.jmn j) hr hf hl

/-- Settles O31: HLT clears RUN, and a machine with RUN clear is idle. -/
theorem hltClearsRun : Obligations.HltClearsRun := by
  refine ⟨decodesRow_extended (op := .hlt) (by decide), fun n s => ⟨exec_hlt n s, fun t k ht => ?_⟩⟩
  rw [exec_hlt] at ht
  cases ht
  exact stepMicro_of_idle (idle_of_halted_or_faulted (.inl rfl)) k

end Sys2Proof.Machine

/-!
Rotation bit by bit, and how rotations add up; from these, the statements on NOT, RAR and RRN (44_accumulator_ops R211 to
R216).
-/

namespace Sys2Proof.Machine

/-! ### Rotation (00_scope R9) -/

/-- Rotating right by `k` moves bit `k + i`, its position counted modulo the word width, to bit `i`. -/
theorem getLsbD_rotateRight_eq_mod (v : Word) (k : Nat) {i : Nat} (hi : i < 32) :
    (v.rotateRight k).getLsbD i = v.getLsbD ((k + i) % 32) := by
  rw [BitVec.getLsbD_rotateRight, Bool.cond_decide]
  split
  · congr 1; omega
  · rw [decide_eq_true hi, Bool.true_and]; congr 1; omega

/-- Two rotations are one, by the sum of their counts. -/
theorem rotateRight_rotateRight (v : Word) (j k : Nat) : (v.rotateRight j).rotateRight k = v.rotateRight (j + k) := by
  apply BitVec.eq_of_getLsbD_eq
  intro i hi
  rw [getLsbD_rotateRight_eq_mod _ k hi, getLsbD_rotateRight_eq_mod v j (Nat.mod_lt _ (by decide)),
    getLsbD_rotateRight_eq_mod v (j + k) hi, Nat.add_mod_mod, Nat.add_assoc]

/-- Rotating by a multiple of the word width is the identity (R211). -/
theorem rotateRight_of_mod_eq_zero (v : Word) {k : Nat} (hk : k % 32 = 0) : v.rotateRight k = v := by
  apply BitVec.eq_of_getLsbD_eq
  intro i hi
  rw [getLsbD_rotateRight_eq_mod v k hi]
  congr 1
  omega

/-- Rotating by one puts bit 0 in front of the other bits (R214). -/
theorem rotateRight_one (v : Word) : v.rotateRight 1 = v.extractLsb' 0 1 ++ v.extractLsb' 1 31 := by
  apply BitVec.eq_of_getLsbD_eq
  intro i hi
  rw [getLsbD_rotateRight_eq_mod v 1 hi, BitVec.getLsbD_append]
  split
  next hlow => rw [BitVec.getLsbD_extractLsb', decide_eq_true hlow, Bool.true_and, Nat.mod_eq_of_lt (by omega)]
  next hhigh =>
    obtain rfl : i = 31 := by omega
    simp

/-! ### The accumulator instructions (44_accumulator_ops R212 to R216) -/

/-- NOT complements ACC in every state (R212). -/
theorem exec_not (n : Word) (s : State) :
    exec (.not n) s = .next { latch (.not n) s with uc := .fetchAddr, acc := ~~~s.acc } :=
  exec_of_operand_done (.not n) s rfl

/-- RAR rotates ACC by one in every state (R214). -/
theorem exec_rar (n : Word) (s : State) :
    exec (.rar n) s = .next { latch (.rar n) s with uc := .fetchAddr, acc := s.acc.rotateRight 1 } := by
  rw [← ror32_eq_rotateRight s.acc (by decide)]
  exact exec_of_operand_done (.rar n) s rfl

theorem rotateCount_lt (n : Word) : rotateCount n < 32 := Nat.mod_lt _ (by decide)

/-- RRN rotates ACC by its count in every state (R216). -/
theorem exec_rrn (n : Word) (s : State) :
    exec (.rrn n) s = .next { latch (.rrn n) s with uc := .fetchAddr, acc := s.acc.rotateRight (rotateCount n) } := by
  rw [← ror32_eq_rotateRight s.acc (rotateCount_lt n)]
  exact exec_of_operand_done (.rrn n) s rfl

/-- RAR repeated `k` times rotates ACC by `k`. -/
theorem repeatStep_exec_rar (n : Word) (k : Nat) (s : State) :
    ∃ t, repeatStep (exec (.rar n)) k s = .next t ∧ t.acc = s.acc.rotateRight k := by
  induction k generalizing s with
  | zero => exact ⟨s, rfl, (rotateRight_of_mod_eq_zero s.acc rfl).symm⟩
  | succ k ih =>
    rw [repeatStep_succ_of_next (exec_rar n s), Nat.add_comm k 1, ← rotateRight_rotateRight]
    exact ih _

/-- Settles O35: a rotation moves each bit by its count modulo 32, and RAR repeated 32 times is the rotation by 32. -/
theorem rotationWraps : Obligations.RotationWraps := by
  have hror (v : Word) : ror32 v 1 = v.rotateRight 1 := ror32_eq_rotateRight v (by decide)
  refine ⟨fun v i hpos hlt => ?_, fun v => ?_, fun n s t hn ht => ?_, fun n s => ?_⟩
  · have hbit : (1 + (i - 1)) % 32 = i := by omega
    rw [hror, getLsbD_rotateRight_eq_mod v 1 (by omega), hbit]
  · rw [hror, getLsbD_rotateRight_eq_mod v 1 (by decide)]
  · have hcount : rotateCount n = 0 := by rcases hn with rfl | rfl <;> rfl
    rw [exec_rrn, hcount] at ht
    cases ht
    exact rotateRight_of_mod_eq_zero s.acc rfl
  · obtain ⟨t, ht, hacc⟩ := repeatStep_exec_rar n 32 s
    exact ⟨t, ht, hacc.trans (rotateRight_of_mod_eq_zero s.acc rfl)⟩

/-- Settles O32: NOT complements ACC, and the complement of the complement is the word itself. -/
theorem notComplements : Obligations.NotComplements := by
  refine ⟨decodesRow_extended (op := .not) (by decide), fun n s => ⟨exec_not n s, fun t u ht hu => ?_⟩⟩
  rw [exec_not] at ht
  cases ht
  rw [exec_not] at hu
  cases hu
  exact BitVec.not_not

/-- Settles O33: RAR is the rotation by one, which puts bit 0 in front of the other bits. -/
theorem rarRotatesByOne : Obligations.RarRotatesByOne := by
  refine ⟨decodesRow_extended (op := .rar) (by decide), fun n s => ?_⟩
  rw [← rotateRight_one]
  exact exec_rar n s

/-- Settles O34: RRN is the rotation by its count, taken modulo 32. -/
theorem rrnRotatesByCount : Obligations.RrnRotatesByCount :=
  ⟨decodesRow_extended (op := .rrn) (by decide), exec_rrn⟩

end Sys2Proof.Machine

/-!
Decode and encode as inverse of each other under a valid opcode map, in one equivalence; from it, the statements on the round
trip and on the valid instructions, and beside it the one on operands (30_encoding R85, R92 to R98).
-/

namespace Sys2Proof

/-! ### An operand and its field (30_encoding R85) -/

/-- A word is the zero-extension of a field exactly when it fits the field and its low bits are the field's. -/
theorem eq_zext32_bits_iff {a w : Word} {n : Nat} (hn : n ≤ 32) :
    a = zext32 (bits w 0 n) ↔ a.toNat < 2 ^ n ∧ bits w 0 n = bits a 0 n := by
  have hlow : bits w 0 n = bits a 0 n ↔ w.toNat % 2 ^ n = a.toNat % 2 ^ n := by
    simp [← BitVec.toNat_inj, bits]
  rw [hlow, ← BitVec.toNat_inj, zext32_bits_toNat w n hn]
  constructor
  · intro h
    have hlt : a.toNat < 2 ^ n := h ▸ Nat.mod_lt _ (Nat.two_pow_pos n)
    exact ⟨hlt, by rw [Nat.mod_eq_of_lt hlt, h]⟩
  · rintro ⟨hlt, h⟩
    rw [h, Nat.mod_eq_of_lt hlt]

/-- An instruction is valid when its operand fits the field of its family (R98). -/
theorem Instr.wf_iff (i : Instr) : i.wf = true ↔ i.operand.toNat < 2 ^ operandBits i.ext := by simp [Instr.wf]

theorem Instr.mem_extOpcodes (i : Instr) : i.op ∈ extOpcodes ↔ i.ext = true := Opcode.mem_extOpcodes i.op
theorem Instr.mem_basicOpcodes (i : Instr) : i.op ∈ basicOpcodes ↔ i.ext = false := Opcode.mem_basicOpcodes i.op

/-! ### The round trip (30_encoding section 4) -/

/-- Both laws in one: under a valid map a word decodes to an instruction exactly when the instruction encodes to the word. -/
theorem decodeWith_eq_ok_iff_encodeWith {m : OpcodeMap} (hm : m.valid = true) {w : Word} {i : Instr} :
    decodeWith m w = .ok i ↔ encodeWith m i = .ok w := by
  rw [encodeWith_eq_ok, Instr.wf_iff]
  conv_lhs => rw [← Instr.eta i]
  cases he : i.ext with
  | true =>
    rw [decodeWith_eq_ok_instr_iff_of_extended hm (i.mem_extOpcodes.mpr he), eq_zext32_bits_iff (by decide), if_pos rfl,
      eq_extended_format_iff]
    simp only [operandBits, extMarker, if_true]
    tauto
  | false =>
    rw [decodeWith_eq_ok_instr_iff hm (i.mem_basicOpcodes.mpr he), eq_zext32_bits_iff (by decide), if_neg (by decide),
      eq_basic_format_iff]
    simp only [operandBits, Bool.false_eq_true, if_false]
    tauto

/-- The valid instructions are those encode accepts (D33). -/
theorem exists_encodeWith_iff (m : OpcodeMap) (i : Instr) : (∃ w, encodeWith m i = .ok w) ↔ i.wf = true := by
  simp only [encodeWith_eq_ok, exists_and_left, exists_eq, and_true]

/-- A lookup finds an opcode exactly when some opcode of the list has the code. -/
theorem OpcodeMap.exists_find_iff {m : OpcodeMap} {ops : List Opcode} {c : BitVec 4} :
    (∃ op, m.find ops c = some op) ↔ ∃ op ∈ ops, m.code op = c := by
  rw [← Option.ne_none_iff_exists', ne_eq, OpcodeMap.find_eq_none]
  simp

/-- Which words decode: the reserved bits are clear and the code is one of the word's family (R93, R95). -/
theorem exists_decodeWith_iff (m : OpcodeMap) (w : Word) :
    (∃ i, decodeWith m w = .ok i) ↔
      if bits w 28 4 = 0xF then bits w 16 8 = 0 ∧ ∃ op ∈ extOpcodes, m.code op = bits w 24 4
      else bits w 20 8 = 0 ∧ ∃ op ∈ basicOpcodes, m.code op = bits w 28 4 := by
  rw [← not_iff_not, ← decodeWith_eq_error_iff]
  split
  · rw [decodeWith_eq_error_of_extended ‹_›, not_and_or, ← OpcodeMap.exists_find_iff, ← Option.ne_none_iff_exists', not_not]
  · rw [decodeWith_eq_error_of_basic ‹_›, not_and_or, ← OpcodeMap.exists_find_iff, ← Option.ne_none_iff_exists', not_not]

/-- Settles O2: decoding and encoding are one relation between words and instructions, and encode accepts every valid
instruction. -/
theorem decodeEncodeRoundTrip : Obligations.DecodeEncodeRoundTrip := by
  refine fun m hm => ⟨fun i hi => ?_, fun w i h => (decodeWith_eq_ok_iff_encodeWith hm).mp h, exists_decodeWith_iff m⟩
  obtain ⟨w, hw⟩ := (exists_encodeWith_iff m i).mpr hi
  exact ⟨w, hw, (decodeWith_eq_ok_iff_encodeWith hm).mpr hw⟩

/-- What an extended or a basic word decodes to: the operand is its field, which it fits (R85). -/
theorem decodeWith_operand {m : OpcodeMap} {w : Word} {i : Instr} (h : decodeWith m w = .ok i) :
    (i.ext = true ↔ bits w 28 4 = 0xF) ∧ i.operand = zext32 (bits w 0 (operandBits i.ext)) := by
  rcases decodeWith_eq_ok.mp h with ⟨hx, -, op, hfind, rfl⟩ | ⟨hx, -, op, hfind, rfl⟩
  · have hext : (op.instr (zext32 (bits w 0 16))).ext = true :=
      (Instr.mem_extOpcodes _).mp (by simpa using (OpcodeMap.find_sound hfind).1)
    rw [hext]
    exact ⟨iff_of_true rfl hx, op.instr_operand _⟩
  · have hext : (op.instr (zext32 (bits w 0 20))).ext = false :=
      (Instr.mem_basicOpcodes _).mp (by simpa using (OpcodeMap.find_sound hfind).1)
    rw [hext]
    exact ⟨iff_of_false (by decide) hx, op.instr_operand _⟩

theorem operandBits_le (ext : Bool) : operandBits ext ≤ 32 := by cases ext <;> decide

/-- What decodes is valid, under any map (R98). -/
theorem wf_of_decodeWith {m : OpcodeMap} {w : Word} {i : Instr} (h : decodeWith m w = .ok i) : i.wf = true :=
  (i.wf_iff).mpr ((eq_zext32_bits_iff (operandBits_le _)).mp (decodeWith_operand h).2).1

/-- Settles O4: decode zero-extends the field of the word's family. -/
theorem operandsZeroExtend : Obligations.OperandsZeroExtend := by
  intro m w i h
  obtain ⟨hext, hoperand⟩ := decodeWith_operand h
  refine ⟨hext, ?_, wf_of_decodeWith h⟩
  rw [hoperand, zext32_bits_toNat w _ (operandBits_le _)]
  cases i.ext <;> rfl

/-! ### The source's record (30_encoding R98) -/

/-- A record of its opcode's family encodes as the instruction it stands for. -/
theorem encodeRecord_of_family {m : OpcodeMap} {r : InstrRecord} (h : r.ext = r.op.ext) :
    encodeRecord m r = encodeWith m (r.op.instr r.operand) := by
  simp [encodeRecord, InstrRecord.toInstr, h]

theorem encodeRecord_of_mismatch {m : OpcodeMap} {r : InstrRecord} (h : r.ext ≠ r.op.ext) :
    encodeRecord m r = .error .familyMismatch := by
  simp [encodeRecord, InstrRecord.toInstr, h]

/-- Settles O5: a valid instruction is what encode accepts, so what some word decodes to; a record adds its family bit. -/
theorem validInstructionsAreDecodable : Obligations.ValidInstructionsAreDecodable := by
  refine fun m hm => ⟨fun i => ?_, fun r => ?_, fun r => encodeRecord_of_mismatch⟩
  · simp only [← exists_encodeWith_iff m, decodeWith_eq_ok_iff_encodeWith hm]
  · by_cases h : r.ext = r.op.ext
    · rw [encodeRecord_of_family h, exists_encodeWith_iff]
      simp [Instr.wf, Instr.ext, InstrRecord.valid, h]
    · simp [encodeRecord_of_mismatch h, InstrRecord.valid, h]

/-- Settles O1: the nine words, evaluated. -/
theorem specWordsDecode : Obligations.SpecWordsDecode := by
  unfold Obligations.SpecWordsDecode
  decide

end Sys2Proof

/-!
The canonical listing through the assembler: a line of a mnemonic and a decimal operand is read as it was written, and its
statement encodes the listed instruction (30_encoding R101 to R113).
-/

namespace Sys2Proof.Machine

/-! ### Decimal operands (R101, R113) -/

theorem isDigit_of_mem_decimal {n : Nat} {c : Char} (h : c ∈ Nat.toDigits 10 n) : c.isDigit = true :=
  Nat.isDigit_of_mem_toDigits (by decide) (by decide) h

theorem isWordChar_of_isDigit {c : Char} (h : c.isDigit = true) : isWordChar c = true := by
  simp [isWordChar, Char.isAlphanum, h]

theorem digitValue_of_isDigit {c : Char} (h : c.isDigit = true) : digitValue c = c.toNat - '0'.toNat := by
  simp [digitValue, h]

/-- No digit starts a name. -/
theorem isNameStart_of_isDigit {c : Char} (h : c.isDigit = true) : isNameStart c = false := by
  have hle : c.toNat ≤ '9'.toNat := by
    simpa [Char.isDigit, UInt32.le_iff_toNat_le] using (Bool.and_eq_true_iff.mp h).2
  have hupper : c.isUpper = false := by
    simp only [Char.isUpper, Bool.decide_and, Bool.and_eq_false_iff, decide_eq_false_iff_not, ge_iff_le,
      UInt32.le_iff_toNat_le, not_le]
    exact .inl (Nat.lt_of_le_of_lt hle (by decide))
  have hlower : c.isLower = false := by
    simp only [Char.isLower, Bool.and_eq_false_iff, decide_eq_false_iff_not, ge_iff_le, UInt32.le_iff_toNat_le, not_le]
    exact .inl (Nat.lt_of_le_of_lt hle (by decide))
  have hunderscore : c ≠ '_' := fun e => by rw [e] at h; exact absurd h (by decide)
  simp [isNameStart, Char.isAlpha, hupper, hlower, hunderscore]

/-- The decimal digits of a number spell it. -/
theorem digitsValue_decimal (n : Nat) : digitsValue 10 (Nat.toDigits 10 n) = n := by
  have hvalue : digitsValue 10 (Nat.toDigits 10 n) = Nat.ofDigitChars 10 (Nat.toDigits 10 n) 0 := by
    rw [digitsValue, Nat.ofDigitChars_eq_foldl]
    refine List.foldl_ext _ _ _ fun k c hc => ?_
    rw [digitValue_of_isDigit (isDigit_of_mem_decimal hc), Nat.mul_comm]
  rw [hvalue, Nat.ofDigitChars_toDigits (by decide) (by decide)]

/-- A run of digits is read as a decimal literal: it is no name, and no digit is the x of a hexadecimal. -/
theorem parseOperand_of_digits {ds : Text} (h : ∀ c ∈ ds, c.isDigit = true) :
    parseOperand ds = literal 10 Char.isDigit ds := by
  have hname : isName ds = false := by
    cases ds with
    | nil => rfl
    | cons c cs => exact isNameStart_of_isDigit (h c (by simp))
  rw [parseOperand, hname, if_neg (by decide)]
  · rintro cs rfl; exact absurd (h 'x' (by simp)) (by decide)
  · rintro cs rfl; exact absurd (h 'X' (by simp)) (by decide)

theorem parseOperand_decimal (n : Nat) : parseOperand (Nat.toDigits 10 n) = some (.lit n) := by
  have hall : (Nat.toDigits 10 n).all Char.isDigit = true := List.all_eq_true.mpr fun _ => isDigit_of_mem_decimal
  rw [parseOperand_of_digits fun _ => isDigit_of_mem_decimal]
  simp [literal, Nat.toDigits_ne_nil, hall, digitsValue_decimal]

/-! ### The line of a listing (R101) -/

/-- What a listing puts after the mnemonic (R113). -/
def operandSuffix : Option Nat → Text
  | none => []
  | some n => ' ' :: Nat.toDigits 10 n

/-- The operand a listing shows, if it shows one (R113). -/
def listedOperand (i : Instr) : Option Nat :=
  if i.operand = 0 ∧ Mnemonic.needsOperand i.op = false then none else some i.operand.toNat

theorem listing_eq (i : Instr) : listing i = Mnemonic.text i.op ++ operandSuffix (listedOperand i) := by
  rw [listing, listedOperand]
  split
  · exact (List.append_nil _).symm
  · rfl

theorem isWordChar_of_mem_mnemonic {op : Opcode} {c : Char} (h : c ∈ Mnemonic.text op) : isWordChar c = true := by
  have hall : (Mnemonic.text op).all isWordChar = true := by cases op <;> decide
  exact List.all_eq_true.mp hall c h

theorem isName_mnemonic (op : Opcode) : isName (Mnemonic.text op) = true := by cases op <;> decide

/-- The listed spelling of a mnemonic names it (R102). -/
theorem find_mnemonic (op : Opcode) : Mnemonic.find (Mnemonic.text op) = some op := by cases op <;> decide

/-- A listing is made of word characters and blanks, so it has no line end and no comment. -/
theorem isWordChar_or_blank_of_mem {op : Opcode} {o : Option Nat} {c : Char}
    (h : c ∈ Mnemonic.text op ++ operandSuffix o) : isWordChar c = true ∨ c = ' ' := by
  rcases List.mem_append.mp h with h | h
  · exact .inl (isWordChar_of_mem_mnemonic h)
  · cases o with
    | none => cases h
    | some n =>
      rcases List.mem_cons.mp h with rfl | h
      · exact .inr rfl
      · exact .inl (isWordChar_of_isDigit (isDigit_of_mem_decimal h))

theorem ne_of_mem_listing {op : Opcode} {o : Option Nat} {c d : Char} (h : c ∈ Mnemonic.text op ++ operandSuffix o)
    (hd : isWordChar d = false) (hblank : d ≠ ' ') : c ≠ d := by
  rintro rfl
  rcases isWordChar_or_blank_of_mem h with h | h
  · simp [h] at hd
  · exact hblank h

theorem dropWhile_isWs_decimal (n : Nat) : (Nat.toDigits 10 n).dropWhile isWs = Nat.toDigits 10 n := by
  refine List.dropWhile_eq_self_iff.mpr fun hl => ?_
  have hd := isDigit_of_mem_decimal (List.getElem_mem hl)
  intro hws
  simp only [isWs, Bool.or_eq_true, decide_eq_true_eq] at hws
  rcases hws with h | h <;> rw [h] at hd <;> exact absurd hd (by decide)

theorem takeWhile_isWordChar_decimal (n : Nat) : (Nat.toDigits 10 n).takeWhile isWordChar = Nat.toDigits 10 n :=
  List.takeWhile_eq_self_iff.mpr fun _ hc => isWordChar_of_isDigit (isDigit_of_mem_decimal hc)

theorem dropWhile_isWordChar_decimal (n : Nat) : (Nat.toDigits 10 n).dropWhile isWordChar = [] :=
  List.dropWhile_eq_nil_iff.mpr fun _ hc => isWordChar_of_isDigit (isDigit_of_mem_decimal hc)

theorem parseRest_operandSuffix (o : Option Nat) : parseRest (operandSuffix o) = some (o.map .lit) := by
  cases o with
  | none => rfl
  | some n =>
    have hblank : isWs ' ' = true := by decide
    simp only [operandSuffix, parseRest, hblank, if_true, dropWhile_isWs_decimal]
    split
    · exact absurd ‹_› Nat.toDigits_ne_nil
    · simp [dropWhile_isWordChar_decimal, takeWhile_isWordChar_decimal, parseOperand_decimal]

theorem takeWhile_isWordChar_suffix (o : Option Nat) : (operandSuffix o).takeWhile isWordChar = [] := by
  cases o <;> rfl

theorem dropWhile_isWordChar_suffix (o : Option Nat) : (operandSuffix o).dropWhile isWordChar = operandSuffix o := by
  cases o <;> rfl

section
variable (op : Opcode) (o : Option Nat)

theorem takeWhile_isWordChar_listing :
    (Mnemonic.text op ++ operandSuffix o).takeWhile isWordChar = Mnemonic.text op := by
  rw [List.takeWhile_append_of_pos fun _ => isWordChar_of_mem_mnemonic, takeWhile_isWordChar_suffix, List.append_nil]

theorem dropWhile_isWordChar_listing :
    (Mnemonic.text op ++ operandSuffix o).dropWhile isWordChar = operandSuffix o := by
  rw [List.dropWhile_append_of_pos fun _ => isWordChar_of_mem_mnemonic, dropWhile_isWordChar_suffix]

/-- The line is a statement without a label: its mnemonic and its operand as a literal. -/
theorem parseBody_listing : parseBody (Mnemonic.text op ++ operandSuffix o) =
    some (.stmt none (Mnemonic.text op) (o.map .lit)) := by
  have hstmt : parseStatement none (Mnemonic.text op ++ operandSuffix o) =
      some (.stmt none (Mnemonic.text op) (o.map .lit)) := by
    rw [parseStatement, takeWhile_isWordChar_listing, dropWhile_isWordChar_listing, if_pos (isName_mnemonic op),
      parseRest_operandSuffix, Option.map_some]
  rw [← hstmt, parseBody]
  · rw [dropWhile_isWordChar_listing]
    cases o <;> rfl
  · cases op <;> simp [Mnemonic.text]

theorem parseLine_listing : parseLine (Mnemonic.text op ++ operandSuffix o) =
    some (.stmt none (Mnemonic.text op) (o.map .lit)) := by
  have hcomment : (Mnemonic.text op ++ operandSuffix o).takeWhile (fun c => c ≠ ';') = Mnemonic.text op ++ operandSuffix o :=
    List.takeWhile_eq_self_iff.mpr fun _ hc => by simpa using ne_of_mem_listing hc (by decide) (by decide)
  have hblanks : (Mnemonic.text op ++ operandSuffix o).dropWhile isWs = Mnemonic.text op ++ operandSuffix o := by
    cases op <;> rfl
  rw [parseLine, hcomment, hblanks, parseBody_listing]

end

/-- A text without a line end is one line. -/
theorem splitLinesFrom_of_no_lineEnd {t : Text} (h : ∀ c ∈ t, c ≠ '\n') (acc : Text) :
    splitLinesFrom acc t = [acc.reverse ++ t] := by
  induction t generalizing acc with
  | nil => simp [splitLinesFrom]
  | cons c cs ih =>
    rw [splitLinesFrom, if_neg (h c (by simp)), ih fun d hd => h d (by simp [hd])]
    simp

/-! ### The statement of a listing (R104 to R107) -/

/-- The statement pass 1 reads from the listing of an instruction. -/
def listedStmt (i : Instr) : AsmStmt := { line := 1, op := i.op, operand := (listedOperand i).map .lit }

/-- A listing leaves the operand away only where the grammar lets it (R104, R113). -/
theorem needsOperand_of_listedOperand_eq_none {i : Instr} (h : listedOperand i = none) :
    Mnemonic.needsOperand i.op = false := by
  unfold listedOperand at h
  split at h
  · exact (‹_ ∧ _›).2
  · cases h

theorem pass1_listing (i : Instr) : pass1 1 0 [] (splitLines (listing i)) = .ok ([], [listedStmt i]) := by
  have hlines : splitLines (listing i) = [listing i] := by
    rw [splitLines, listing_eq]
    exact splitLinesFrom_of_no_lineEnd (fun _ hc => ne_of_mem_listing hc (by decide) (by decide)) []
  have hline : pass1Line 1 0 [] (listing i) = .ok ([], some (listedStmt i)) := by
    simpa [pass1Line, listing_eq, parseLine_listing, find_mnemonic, defineLabel, listedStmt] using
      needsOperand_of_listedOperand_eq_none
  simp [hlines, pass1, hline]

/-- The operand's value is the one listed, 0 where none is (R104, R105). -/
theorem operandValue_listedStmt (syms : Symbols) (i : Instr) :
    operandValue syms (listedStmt i).line (listedStmt i).operand = .ok i.operand.toNat := by
  simp only [listedStmt, listedOperand]
  split
  · simp [operandValue, (‹_ ∧ _› : _ ∧ _).1]
  · simp [operandValue]

/-- Pass 2 encodes a listed statement as the instruction listed. -/
theorem encodeStmt_listedStmt {m : OpcodeMap} {i : Instr} {w : Word} (h : encodeWith m i = .ok w) (syms : Symbols) :
    encodeStmt m syms (listedStmt i) = .ok w := by
  have hfits : ¬2 ^ operandBits i.op.ext ≤ i.operand.toNat := Nat.not_le.mpr (i.wf_iff.mp (encodeWith_eq_ok.mp h).1)
  have hinstr : (listedStmt i).op.instr (BitVec.ofNat 32 i.operand.toNat) = i := by
    rw [BitVec.ofNat_toNat, BitVec.setWidth_eq]; exact i.eta
  rw [encodeStmt, operandValue_listedStmt]
  simp only [hinstr, h]
  exact if_neg hfits

/-- Settles O58: the listing is one statement, which pass 2 encodes as the instruction, so as the word it was decoded from. -/
theorem listingAssemblesBack : Obligations.ListingAssemblesBack := by
  refine fun m w hm => ⟨fun i hi => ⟨by simp [listWord, hi], ?_⟩, fun e he => by simp [listWord, he]⟩
  have henc := encodeStmt_listedStmt ((decodeWith_eq_ok_iff_encodeWith hm).mp hi) []
  simp [assemble, pass1_listing, pass2, henc]

end Sys2Proof.Machine

/-!
The memory unit and the micro-step, position by position and instruction by instruction, as exact next states; from these, the
statements on memory accesses, on FETCH_DATA, DECODE, OPERAND and EXECUTE, and on the step that runs what was fetched
(20_memory R56 to R64; 40_microcycle R120 to R132).
-/

namespace Sys2Proof.Machine

/-- Settles O7: a halted or faulted machine is idle. -/
theorem idleMachineStays : Obligations.IdleMachineStays := fun _ h =>
  have hidle := idle_of_halted_or_faulted h.symm
  ⟨microStep_of_idle hidle, step_of_idle hidle⟩

/-! ### The memory unit (20_memory R52, R56, R57) -/

section
variable {s : State}

theorem legal_eq_false_iff (s : State) (a : Word) : s.legal a = false ↔ s.cfg.memSize ≤ a.toNat := by
  rw [Bool.eq_false_iff, ne_eq, legal_iff, Nat.not_lt]

theorem memRead_illegal (h : s.cfg.memSize ≤ s.sar.toNat) (fetch : Bool) :
    memRead fetch s = .raised (afterBoundsFault s) :=
  memRead_outOfBounds ((legal_eq_false_iff s s.sar).mpr h)

theorem memWrite_illegal (h : s.cfg.memSize ≤ s.sar.toNat) : memWrite s = .raised (afterBoundsFault s) :=
  memWrite_outOfBounds ((legal_eq_false_iff s s.sar).mpr h)

/-- A fetch goes to a device where a data read does, when fetches consult devices at all (R56; conflict C3). -/
theorem readsDevice_fetch_iff (s : State) (a : Word) :
    s.readsDevice true a = true ↔ a ∈ s.cfg.readDev ∧ s.cfg.ioReadOnFetch = true := by
  simp [State.readsDevice]

theorem readsDevice_fetch_eq_data (h : s.cfg.ioReadOnFetch = true) (a : Word) :
    s.readsDevice true a = s.readsDevice false a := by
  simp [State.readsDevice, h]

theorem memRead_fetch_eq_data (h : s.cfg.ioReadOnFetch = true) : memRead true s = memRead false s := by
  rw [memRead, memRead, readsDevice_fetch_eq_data h]

end

/-- Settles O52: the bounds check decides first, then the device table, then whether the callback returns. -/
theorem memoryUnitAccesses : Obligations.MemoryUnitAccesses := by
  refine fun s => ⟨fun h => ⟨memRead_illegal h, memWrite_illegal h⟩, fun h =>
    ⟨operandDirect_legal h, operandDirect_hangs h, memRead_fetch_eq_data, fun hio => ?_, fun hd => ?_, fun hd hc => ?_,
      fun hd hc => ?_⟩⟩
  all_goals have hl := (legal_iff s s.sar).mpr h
  · exact memRead_plain hl (by simp [State.readsDevice, hio])
  · exact memWrite_plain hl (Bool.eq_false_iff.mpr (mt (writesDevice_iff s _).mp hd))
  · exact memWrite_device hl ((writesDevice_iff s _).mpr hd) ((callbackReturns_iff s).mpr hc)
  · exact memWrite_stalls hl ((writesDevice_iff s _).mpr hd) ((callbackReturns_eq_false s).mpr hc)

/-! ### FETCH_DATA and DECODE (40_microcycle R122, R124) -/

/-- Settles O9: FETCH_DATA by how its read ends. -/
theorem fetchDataMicroStep : Obligations.FetchDataMicroStep := by
  intro s hr hf hu
  rw [microStep_fetchData hr hf hu, ← readsDevice_fetch_iff]
  refine ⟨fun h hd => ?_, fun h hd hc => ?_, fun h hd hc => ?_, fun h => ?_⟩
  · rw [fetchData_plain ((legal_iff s _).mpr h) (Bool.eq_false_iff.mpr hd)]; rfl
  · rw [fetchData_device ((legal_iff s _).mpr h) hd ((callbackReturns_iff s).mpr hc)]; rfl
  · rw [fetchData_stalls ((legal_iff s _).mpr h) hd ((callbackReturns_eq_false s).mpr hc)]; rfl
  · rw [fetchData_outOfBounds ((legal_eq_false_iff s _).mpr h)]; rfl

theorem decodeStep_of_ok {s : State} {i : Instr} (h : decodeWith s.cfg.opcodeMap s.ir = .ok i) :
    decodeStep s = latch i s := by
  simp only [decodeStep, h]

theorem traOf_eq (i : Instr) : traOf i = decide (i.op = .ldiv ∨ i.ext = true) := by simp [traOf]

/-- Settles O10: DECODE latches what IR decodes to, or raises. -/
theorem decodeMicroStep : Obligations.DecodeMicroStep := by
  intro s hr hf hu
  rw [microStep_decode hr hf hu]
  refine ⟨fun i hi => ?_, fun e he => ?_⟩
  · rw [decodeStep_of_ok hi, latch, traOf_eq]
    cases i <;> rfl
  · rw [decodeStep_of_error he]; rfl

/-! ### OPERAND by addressing mode (40_microcycle R125) -/

/-- The opcodes without an OPERAND transfer. -/
def noOperandOpcodes : List Opcode := [.ldc, .hlt, .not, .rar, .rrn]

/-- The opcodes that stage their operand in SAR without a read. -/
def stagedOpcodes : List Opcode := [.stv, .jmp, .jmn]

/-- The opcodes that read the word at their operand. -/
def directOpcodes : List Opcode := [.add, .and, .or, .xor, .eql, .ldv]

section
variable {i : Instr}

theorem operandPhase_of_noOperand (h : i.op ∈ noOperandOpcodes) (s : State) : operandPhase i s = .done s := by
  cases i with
  | ldc | hlt | not | rar | rrn => rfl
  | _ => simp [Instr.op, noOperandOpcodes] at h

theorem operandPhase_of_staged (h : i.op ∈ stagedOpcodes) (s : State) :
    operandPhase i s = .done { s with sar := i.operand } := by
  cases i with
  | stv | jmp | jmn => rfl
  | _ => simp [Instr.op, stagedOpcodes] at h

theorem operandPhase_of_direct (h : i.op ∈ directOpcodes) (s : State) : operandPhase i s = operandDirect i.operand s := by
  cases i with
  | add | and | or | xor | eql | ldv => rfl
  | _ => simp [Instr.op, directOpcodes] at h

/-- An instruction with a given opcode is that opcode's, with some operand. -/
theorem Instr.exists_of_op {op : Opcode} (h : i.op = op) : ∃ a, i = op.instr a := ⟨i.operand, h ▸ i.eta.symm⟩

end

/-- A direct operand, by the bounds check and by whether the callback returns. -/
theorem operandDirect_eq (a : Word) (s : State) :
    operandDirect a s =
      if a.toNat < s.cfg.memSize then
        if ReadAnswers s a then .done (afterDataRead s a) else .stuck .callbackNeverReturns
      else .raised (afterBoundsFault { s with sar := a }) := by
  by_cases hl : a.toNat < s.cfg.memSize
  · by_cases hc : ReadAnswers s a
    · rw [if_pos hl, if_pos hc, operandDirect_legal hl hc]
    · rw [if_pos hl, if_neg hc, operandDirect_hangs hl hc]
  · rw [if_neg hl, operandDirect_illegal (Nat.not_lt.mp hl)]

/-- LDIV's two reads: the second is a direct operand at the word the first read. -/
theorem operandIndirect_eq (p : Word) (s : State) :
    operandIndirect p s =
      if p.toNat < s.cfg.memSize then
        if ReadAnswers s p then operandDirect (dataRead s p).1 (afterDataRead s p) else .stuck .callbackNeverReturns
      else .raised (afterBoundsFault { s with sar := p }) := by
  rw [operandIndirect, operandDirect_eq p s]
  split
  · split <;> rfl
  · rfl

/-- Settles O11: OPERAND by addressing mode, each read by its bounds check and its callback. -/
theorem operandMicroStep : Obligations.OperandMicroStep := by
  intro s hr hf hu i hi
  rw [microStep_operand hr hf hu hi]
  refine ⟨fun h => ?_, fun h => ?_, fun h => ?_, fun h => ?_⟩
  · rw [operandPhase_of_noOperand h]; rfl
  · rw [operandPhase_of_staged h]; rfl
  · rw [operandPhase_of_direct h, operandDirect_eq]
    simp only [apply_ite (Micro.finish · .execute), finish_done, finish_stuck, finish_raised]
  · obtain ⟨p, rfl⟩ := Instr.exists_of_op h
    change (operandIndirect p s).finish .execute = _
    rw [operandIndirect_eq, operandDirect_eq]
    simp only [apply_ite (Micro.finish · .execute), finish_done, finish_stuck, finish_raised]
    rfl

/-! ### EXECUTE (40_microcycle R126, R127) -/

/-- STV's EXECUTE is the write of ACC at SAR (42_load_store R178). -/
theorem executePhase_of_stv {i : Instr} (h : i.op = .stv) (s : State) :
    executePhase i s = memWrite { s with sir := s.acc } := by
  obtain ⟨a, rfl⟩ := Instr.exists_of_op h; rfl

/-- Settles O12: EXECUTE opcode by opcode; STV by how its write ends. -/
theorem executeMicroStep : Obligations.ExecuteMicroStep := by
  intro s hr hf hu i hi
  rw [microStep_execute hr hf hu hi]
  refine ⟨fun h => ?ldc, fun h => ?loads, fun h v hv => ?alu, fun h hl hd => ?plain, fun h hl hd hc => ?device,
    fun h hl hd hc => ?hangs, fun h hl => ?illegal, fun h => ?jmp, fun h => ?jmn, fun h => ?hlt, fun h => ?not,
    fun h => ?rar, fun h => ?rrn⟩
  case ldc => obtain ⟨a, rfl⟩ := Instr.exists_of_op h; rfl
  case loads => rcases h with h | h <;> obtain ⟨a, rfl⟩ := Instr.exists_of_op h <;> rfl
  case alu =>
    have hexec : executePhase i s = executeAlu s := i.eta ▸ executePhase_of_alu h i.operand s
    have halu : alu s.aluop s.acc s.sir = some v := by
      rcases hv with ⟨h, rfl⟩ | ⟨h, rfl⟩ | ⟨h, rfl⟩ | ⟨h, rfl⟩ | ⟨h, rfl⟩ <;> rw [h] <;> rfl
    rw [hexec, executeAlu_of_alu halu]; rfl
  case plain =>
    rw [executePhase_of_stv h, memWrite_plain (s := { s with sir := s.acc }) ((legal_iff _ _).mpr hl)
      (Bool.eq_false_iff.mpr (mt (writesDevice_iff _ _).mp hd))]
    rfl
  case device =>
    rw [executePhase_of_stv h, memWrite_device (s := { s with sir := s.acc }) ((legal_iff _ _).mpr hl)
      ((writesDevice_iff _ _).mpr hd) ((callbackReturns_iff _).mpr hc)]
    rfl
  case hangs =>
    rw [executePhase_of_stv h, memWrite_stalls (s := { s with sir := s.acc }) ((legal_iff _ _).mpr hl)
      ((writesDevice_iff _ _).mpr hd) ((callbackReturns_eq_false _).mpr hc)]
    rfl
  case illegal => rw [executePhase_of_stv h, memWrite_illegal (s := { s with sir := s.acc }) hl]; rfl
  case jmp => obtain ⟨a, rfl⟩ := Instr.exists_of_op h; rfl
  case jmn =>
    obtain ⟨a, rfl⟩ := Instr.exists_of_op h
    have hsign : s.acc.getLsbD 31 = s.negative := (BitVec.msb_eq_getLsbD_last s.acc).symm
    rw [hsign]
    change (Micro.done (if s.negative then jumpTo a s else s)).finish _ = _
    cases s.negative <;> rfl
  case hlt => obtain ⟨a, rfl⟩ := Instr.exists_of_op h; rfl
  case not => obtain ⟨a, rfl⟩ := Instr.exists_of_op h; rfl
  case rar =>
    obtain ⟨a, rfl⟩ := Instr.exists_of_op h
    rw [← ror32_eq_rotateRight s.acc (by decide)]; rfl
  case rrn =>
    obtain ⟨a, rfl⟩ := Instr.exists_of_op h
    rw [← ror32_eq_rotateRight s.acc (Nat.mod_lt _ (by decide))]; rfl

/-! ### The step runs what was fetched (40_microcycle R131, R132) -/

theorem runDecode_of_ok {s : State} {i : Instr} (h : decodeWith s.cfg.opcodeMap s.ir = .ok i) : runDecode s = exec i s := by
  simp only [runDecode, h]

theorem runDecode_of_error {s : State} {e : DecodeError} (h : decodeWith s.cfg.opcodeMap s.ir = .error e) :
    runDecode s = .next (raise .illegalInstruction s.ir s) := by
  obtain rfl := decodeWith_eq_error h
  simp only [runDecode, h]

theorem runFetchData_of_done {s t : State} (h : fetchData s = .done t) :
    runFetchData s = runDecode { t with uc := .decode } := by
  simp only [runFetchData, h]

section
variable {s : State} (hready : Ready s) (hl : s.iar.toNat < s.cfg.memSize)
include hready hl

/-- A step that fetches a word from memory runs from DECODE on with that word in IR. -/
theorem step_of_plain_fetch (hd : s.readsDevice true s.iar = false) :
    step s = runDecode { s with
      sar := s.iar, sir := Memory.read s.mem s.iar.toNat, ir := Memory.read s.mem s.iar.toNat, iar := s.iar + 1,
      uc := .decode } := by
  rw [step_of_ready hready, runFetchData_of_done (fetchData_plain (s := fetchAddr s) ((legal_iff _ _).mpr hl) hd)]
  rfl

/-- The same for a word that a device supplies. -/
theorem step_of_device_fetch (hd : s.readsDevice true s.iar = true) (hc : s.stallsAt ≠ some s.draws) :
    step s = runDecode { s with
      sar := s.iar, sir := Config.freeWord s.draws, ir := Config.freeWord s.draws, iar := s.iar + 1, uc := .decode,
      draws := s.draws + 1, devLog := s.devLog ++ [.read s.iar (Config.freeWord s.draws)] } := by
  rw [step_of_ready hready, runFetchData_of_done
    (fetchData_device (s := fetchAddr s) ((legal_iff _ _).mpr hl) hd ((callbackReturns_iff _).mpr hc))]
  rfl

theorem step_of_stalled_fetch (hd : s.readsDevice true s.iar = true) (hc : s.stallsAt = some s.draws) :
    step s = .fault .callbackNeverReturns := by
  have hstuck : fetchData (fetchAddr s) = .stuck .callbackNeverReturns :=
    fetchData_stalls (s := fetchAddr s) ((legal_iff _ _).mpr hl) hd ((callbackReturns_eq_false _).mpr hc)
  rw [step_of_ready hready, runFetchData, hstuck]

end

/-- Settles O17: the step by how the fetch ends and by what the word decodes to. -/
theorem stepRunsDecodedInstruction : Obligations.StepRunsDecodedInstruction := by
  refine fun s hready => ⟨fun i hl hd hi => ?_, fun i hl hd hc hi => ?_, fun e hl hd he => ?_, fun e hl hd hc he => ?_,
    step_of_stalled_fetch hready, step_of_iar_outOfBounds hready⟩
  · exact (step_of_plain_fetch hready hl hd).trans (runDecode_of_ok hi)
  · exact (step_of_device_fetch hready hl hd hc).trans (runDecode_of_ok hi)
  · exact (step_of_plain_fetch hready hl hd).trans (runDecode_of_error he)
  · exact (step_of_device_fetch hready hl hd hc).trans (runDecode_of_error he)

/-- Settles O49: the word just stored is the one the next step fetches. -/
theorem storeSeenByNextFetch : Obligations.StoreSeenByNextFetch := by
  intro a i s t hwf hr hf hiar hl hwrite hread ht hi
  subst hiar
  rw [exec_stv_plain hl hwrite] at ht
  cases ht
  have hword := Memory.read_write_same s.mem hwf s.iar.toNat s.acc
  have hstep := step_of_plain_fetch (s := { beforeStore s.iar s with
    uc := .fetchAddr, mem := Memory.write s.mem s.iar.toNat s.acc }) ⟨hr, hf, rfl⟩ hl hread
  simp only [beforeStore, latch_iar, hword] at hstep
  exact hstep.trans (runDecode_of_ok hi)

/-- Settles O25: LDC has no OPERAND transfer, and its EXECUTE writes ACC. -/
theorem ldcLoadsConstant : Obligations.LdcLoadsConstant :=
  ⟨decodesRow_basic (op := .ldc) (by decide), fun c s => exec_of_operand_done (.ldc c) s rfl⟩

end Sys2Proof.Machine

/-!
Where a micro-step raises, where it hangs, and what it and each instruction leave unchanged; from these, the statements on
frames, on the fault sites, on faults that are not resumed and on callbacks that never return (10_state R30, R39; 20_memory R64;
60_exceptions R230 to R240).
-/

namespace Sys2Proof.Machine

/-! ### Frames of the micro-step (10_state R39) -/

theorem fetchData_finish_frame {s t : State} {u : MicroPos} (h : (fetchData s).finish u = .next t) :
    t = { s with iar := t.iar, ir := t.ir, sir := t.sir, uc := t.uc, fault := t.fault, faultInfo := t.faultInfo,
                 run := t.run, draws := t.draws, devLog := t.devLog } := by
  rcases finish_eq_next_iff.mp h with ⟨v, hv, rfl⟩ | hv
  · rw [fetchData_done hv]
  · rw [fetchData_raised hv]; rfl

theorem decodeStep_frame (s : State) :
    decodeStep s = { s with ci := (decodeStep s).ci, tra := (decodeStep s).tra, aluop := (decodeStep s).aluop,
                            uc := (decodeStep s).uc, fault := (decodeStep s).fault, faultInfo := (decodeStep s).faultInfo,
                            run := (decodeStep s).run } := by
  rcases decodeStep_cases s with ⟨i, -, e⟩ | ⟨-, e⟩ <;> rw [e] <;> rfl

theorem operandPhase_finish_frame {i : Instr} {s t : State} {u : MicroPos} (h : (operandPhase i s).finish u = .next t) :
    t = { s with sar := t.sar, sir := t.sir, uc := t.uc, fault := t.fault, faultInfo := t.faultInfo, run := t.run,
                 draws := t.draws, devLog := t.devLog } := by
  rcases finish_eq_next_iff.mp h with ⟨v, hv, rfl⟩ | hv
  · rw [operandPhase_done hv]
  · rw [operandPhase_raised hv]; rfl

theorem executePhase_finish_frame {i : Instr} {s t : State} {u : MicroPos} (h : (executePhase i s).finish u = .next t) :
    t = { s with acc := t.acc, x := t.x, y := t.y, z := t.z, iar := t.iar, sir := t.sir, mem := t.mem, uc := t.uc,
                 fault := t.fault, faultInfo := t.faultInfo, run := t.run, draws := t.draws, devLog := t.devLog } := by
  rcases finish_eq_next_iff.mp h with ⟨v, hv, rfl⟩ | hv
  · rw [executePhase_done hv]
  · rw [executePhase_raised hv]; rfl

/-- Settles O45: an idle micro-step changes nothing, and any other is one phase, with that phase's frame. -/
theorem microStepFrames : Obligations.MicroStepFrames := by
  intro s t h
  rcases microStep_next h with ⟨-, rfl⟩ | ⟨-, ⟨hu, rfl⟩ | ⟨hu, h⟩ | ⟨hu, rfl⟩ | ⟨hu, i, -, h⟩ | ⟨hu, i, -, h⟩⟩
  · exact ⟨fun _ => rfl, fun _ => rfl, fun _ => rfl, fun _ => rfl, fun _ => rfl⟩
  all_goals simp only [hu, reduceCtorEq, false_implies, true_implies, true_and, and_true]
  · rfl
  · exact fetchData_finish_frame h
  · exact decodeStep_frame s
  · exact operandPhase_finish_frame h
  · exact executePhase_finish_frame h

/-! ### The position (10_state R30) -/

theorem MicroPos.code_eq_zero_iff {u : MicroPos} : u.code = 0 ↔ u = .fetchAddr := by cases u <;> decide
theorem MicroPos.code_lt_four_iff {u : MicroPos} : u.code < 4 ↔ u ≠ .execute := by cases u <;> decide
theorem MicroPos.next_code_eq_zero_iff {u : MicroPos} : (u.code + 1) % 5 = 0 ↔ u = .execute := by cases u <;> decide

/-- A micro-step of a running machine moves UC to the next position, or records a fault and leaves UC. -/
theorem microStep_position {s t : State} (hr : s.run = true) (hf : s.fault = .none) (h : microStep s = .next t) :
    (t.fault = .none ∧ t.uc.code = (s.uc.code + 1) % 5) ∨ (t.fault ≠ .none ∧ t.uc = s.uc) := by
  rcases microStep_next h with ⟨hid, -⟩ | ⟨-, ⟨hu, rfl⟩ | ⟨hu, h⟩ | ⟨hu, rfl⟩ | ⟨hu, i, -, h⟩ | ⟨hu, i, -, h⟩⟩
  · simp [idle_eq_false hr hf] at hid
  · left; rw [hu]; exact ⟨hf, rfl⟩
  · rcases finish_eq_next_iff.mp h with ⟨v, hv, rfl⟩ | hv
    · left; rw [hu, fetchData_done hv]; exact ⟨hf, rfl⟩
    · right; rw [fetchData_raised hv]; exact ⟨nofun, rfl⟩
  · rcases decodeStep_cases s with ⟨i, -, e⟩ | ⟨-, e⟩ <;> rw [e]
    · left; rw [hu]; exact ⟨hf, rfl⟩
    · right; exact ⟨nofun, rfl⟩
  · rcases finish_eq_next_iff.mp h with ⟨v, hv, rfl⟩ | hv
    · left; rw [hu, operandPhase_done hv]; exact ⟨hf, rfl⟩
    · right; rw [operandPhase_raised hv]; exact ⟨nofun, rfl⟩
  · rcases finish_eq_next_iff.mp h with ⟨v, hv, rfl⟩ | hv
    · left; rw [hu, executePhase_done hv]; exact ⟨hf, rfl⟩
    · right; rw [executePhase_raised hv]; exact ⟨nofun, rfl⟩

/-- Settles O13: the positions are numbered in order, and a phase that ends without a raise moves on to the next. -/
theorem microPositionAdvances : Obligations.MicroPositionAdvances := by
  refine ⟨⟨rfl, rfl, rfl, rfl, rfl⟩, rfl, fun s t hr hf h => ?_⟩
  rcases microStep_position hr hf h with ⟨hfault, huc⟩ | ⟨hfault, huc⟩
  · exact ⟨fun _ => huc, fun hn => absurd hfault hn⟩
  · exact ⟨fun hn => absurd hn hfault, fun _ => huc⟩

/-! ### Where OPERAND raises and hangs (60_exceptions R234; 20_memory R64) -/

/-- The opcodes that read memory in OPERAND. -/
def readingOpcodes : List Opcode := [.add, .and, .or, .xor, .eql, .ldv, .ldiv]

section
variable {a p : Word} {i : Instr} {s t : State}

theorem not_readAnswers_iff : ¬ReadAnswers s a ↔ a ∈ s.cfg.readDev ∧ s.stallsAt = some s.draws := by
  rw [ReadAnswers, Classical.not_imp, not_not]

theorem operandDirect_raised_iff :
    operandDirect a s = .raised t ↔ s.cfg.memSize ≤ a.toNat ∧ t = afterBoundsFault { s with sar := a } := by
  rw [operandDirect_eq, ← Nat.not_lt]
  split_ifs with ha hc
  · exact iff_of_false nofun fun h => h.1 ha
  · exact iff_of_false nofun fun h => h.1 ha
  · simp [ha, eq_comm]

theorem operandDirect_stuck_iff :
    operandDirect a s = .stuck .callbackNeverReturns ↔
      a.toNat < s.cfg.memSize ∧ a ∈ s.cfg.readDev ∧ s.stallsAt = some s.draws := by
  rw [operandDirect_eq, ← not_readAnswers_iff]
  split_ifs with ha hc
  · exact iff_of_false nofun fun h => h.2 hc
  · exact iff_of_true rfl ⟨ha, hc⟩
  · exact iff_of_false nofun fun h => ha h.1

theorem operandIndirect_raised_iff :
    operandIndirect p s = .raised t ↔
      (s.cfg.memSize ≤ p.toNat ∧ t = afterBoundsFault { s with sar := p }) ∨
      (p.toNat < s.cfg.memSize ∧ ReadAnswers s p ∧ s.cfg.memSize ≤ (dataRead s p).1.toNat ∧
        t = afterBoundsFault { afterDataRead s p with sar := (dataRead s p).1 }) := by
  rw [operandIndirect_eq, ← Nat.not_lt]
  split_ifs with hp hc
  · rw [operandDirect_raised_iff]
    exact ⟨fun h => .inr ⟨hp, hc, h⟩, fun | .inl h => absurd hp h.1 | .inr ⟨_, _, h⟩ => h⟩
  · exact iff_of_false nofun fun | .inl h => h.1 hp | .inr ⟨_, h, _⟩ => hc h
  · simp [hp, eq_comm]

theorem operandIndirect_stuck_iff :
    operandIndirect p s = .stuck .callbackNeverReturns ↔
      (p.toNat < s.cfg.memSize ∧ p ∈ s.cfg.readDev ∧ s.stallsAt = some s.draws) ∨
      (p.toNat < s.cfg.memSize ∧ ReadAnswers s p ∧ (dataRead s p).1.toNat < s.cfg.memSize ∧
        (dataRead s p).1 ∈ s.cfg.readDev ∧ s.stallsAt = some (dataRead s p).2.1) := by
  rw [operandIndirect_eq, ← not_readAnswers_iff]
  split_ifs with hp hc
  · rw [operandDirect_stuck_iff]
    exact ⟨fun h => .inr ⟨hp, hc, h⟩, fun | .inl h => absurd hc h.2 | .inr ⟨_, _, h⟩ => h⟩
  · exact iff_of_true rfl (.inl ⟨hp, hc⟩)
  · exact iff_of_false nofun fun | .inl h => hp h.1 | .inr h => hp h.1

/-- OPERAND raises where a read is out of range: the operand's, or LDIV's second. -/
theorem operandPhase_raised_iff :
    operandPhase i s = .raised t ↔
      (i.op ∈ readingOpcodes ∧ s.cfg.memSize ≤ i.operand.toNat ∧ t = afterBoundsFault { s with sar := i.operand }) ∨
      (∃ p, i = .ldiv p ∧ p.toNat < s.cfg.memSize ∧ ReadAnswers s p ∧ s.cfg.memSize ≤ (dataRead s p).1.toNat ∧
        t = afterBoundsFault { afterDataRead s p with sar := (dataRead s p).1 }) := by
  cases i with
  | ldiv p =>
    change operandIndirect p s = _ ↔ _
    rw [operandIndirect_raised_iff]
    simp [Instr.op, Instr.operand, readingOpcodes]
  | add | and | or | xor | eql | ldv =>
    change operandDirect _ s = _ ↔ _
    rw [operandDirect_raised_iff]
    simp [Instr.op, Instr.operand, readingOpcodes]
  | ldc | stv | jmp | jmn | hlt | not | rar | rrn =>
    simp [operandPhase, operandLdc, operandStv, operandJmp, operandJmn, operandHlt, operandNot, operandRar, operandRrn,
      operandStage, operandNone, Instr.op, readingOpcodes]

/-- OPERAND hangs where a read calls the callback that never returns: the operand's, or LDIV's second. -/
theorem operandPhase_stuck_iff :
    operandPhase i s = .stuck .callbackNeverReturns ↔
      (i.op ∈ readingOpcodes ∧ i.operand.toNat < s.cfg.memSize ∧ i.operand ∈ s.cfg.readDev ∧ s.stallsAt = some s.draws) ∨
      (∃ p, i = .ldiv p ∧ p.toNat < s.cfg.memSize ∧ ReadAnswers s p ∧ (dataRead s p).1.toNat < s.cfg.memSize ∧
        (dataRead s p).1 ∈ s.cfg.readDev ∧ s.stallsAt = some (dataRead s p).2.1) := by
  cases i with
  | ldiv p =>
    change operandIndirect p s = _ ↔ _
    rw [operandIndirect_stuck_iff]
    simp [Instr.op, Instr.operand, readingOpcodes]
  | add | and | or | xor | eql | ldv =>
    change operandDirect _ s = _ ↔ _
    rw [operandDirect_stuck_iff]
    simp [Instr.op, Instr.operand, readingOpcodes]
  | ldc | stv | jmp | jmn | hlt | not | rar | rrn =>
    simp [operandPhase, operandLdc, operandStv, operandJmp, operandJmn, operandHlt, operandNot, operandRar, operandRrn,
      operandStage, operandNone, Instr.op, readingOpcodes]

end

/-! ### The places a micro-step raises (60_exceptions R234) -/

theorem fetchData_raised_iff {s t : State} :
    fetchData s = .raised t ↔ s.cfg.memSize ≤ s.sar.toNat ∧ t = afterBoundsFault s := by
  constructor
  · intro h
    refine ⟨?_, fetchData_raised h⟩
    rcases fetchData_cases s with ⟨_, _, _, -, e⟩ | ⟨-, -, -, e⟩ | ⟨hl, -⟩
    · rw [e] at h; cases h
    · rw [e] at h; cases h
    · exact hl
  · rintro ⟨hl, rfl⟩
    exact fetchData_outOfBounds ((legal_eq_false_iff s _).mpr hl)

theorem executePhase_raised_iff {i : Instr} {s t : State} :
    executePhase i s = .raised t ↔
      (∃ a, i = .stv a) ∧ s.cfg.memSize ≤ s.sar.toNat ∧ t = afterBoundsFault { s with sir := s.acc } := by
  constructor
  · intro h
    rcases executePhase_cases i s with ⟨-, _, _, _, _, _, _, e⟩ | ⟨_, _, _, _, _, -, -, -, e, -⟩ | ⟨_, -, -, -, -, e⟩ |
      ⟨a, ha, hl, e⟩ | ⟨-, -, e⟩ <;> rw [e] at h <;> cases h
    exact ⟨⟨a, ha⟩, hl, rfl⟩
  · rintro ⟨⟨a, rfl⟩, hl, rfl⟩
    exact memWrite_illegal (s := { s with sir := s.acc }) hl

/-- Of a running machine's transfers, only a raise leaves a fault. -/
theorem raised_of_finish_fault {m : Micro} {u : MicroPos} {t : State} (hdone : ∀ v, m = .done v → v.fault = .none)
    (h : m.finish u = .next t) (ht : t.fault ≠ .none) : m = .raised t := by
  rcases finish_eq_next_iff.mp h with ⟨v, hv, rfl⟩ | hv
  · exact absurd (hdone v hv) ht
  · exact hv

/-- Settles O50: the phases that can raise, and what each has done before it does. -/
theorem faultSitesArePrecise : Obligations.FaultSitesArePrecise := by
  intro s t hr hf h ht
  rcases microStep_next h with ⟨hid, -⟩ | ⟨-, ⟨hu, rfl⟩ | ⟨hu, h⟩ | ⟨hu, rfl⟩ | ⟨hu, i, hi, h⟩ | ⟨hu, i, hi, h⟩⟩
  · simp [idle_eq_false hr hf] at hid
  · exact absurd hf ht
  · have hraised := raised_of_finish_fault (fun v hv => by rw [fetchData_done hv]; exact hf) h ht
    exact .inl ⟨hu, fetchData_raised_iff.mp hraised⟩
  · rcases decodeStep_cases s with ⟨i, -, e⟩ | ⟨-, e⟩ <;> rw [e] at ht ⊢
    · exact absurd hf ht
    · exact .inr (.inl ⟨hu, rfl⟩)
  · have hraised := raised_of_finish_fault (fun v hv => by rw [operandPhase_done hv]; exact hf) h ht
    rcases operandPhase_raised_iff.mp hraised with hsite | ⟨p, rfl, -, -, hl, rfl⟩
    · exact .inr (.inr (.inl ⟨hu, i, hi, hsite⟩))
    · exact .inr (.inr (.inr (.inl ⟨hu, p, hi, rfl, hl, rfl⟩)))
  · have hraised := raised_of_finish_fault (fun v hv => by rw [executePhase_done hv]; exact hf) h ht
    obtain ⟨⟨a, rfl⟩, hl, rfl⟩ := executePhase_raised_iff.mp hraised
    exact .inr (.inr (.inr (.inr ⟨hu, ⟨a, hi⟩, hl, rfl⟩)))

/-! ### The places a micro-step hangs (20_memory R64) -/

theorem finish_eq_fault_iff {m : Micro} {u : MicroPos} {e : Fault} : m.finish u = .fault e ↔ m = .stuck e := by
  cases m <;> simp

theorem fetchData_stuck_iff {s : State} :
    fetchData s = .stuck .callbackNeverReturns ↔
      s.sar.toNat < s.cfg.memSize ∧ s.readsDevice true s.sar = true ∧ s.stallsAt = some s.draws := by
  constructor
  · intro h
    rcases fetchData_cases s with ⟨_, _, _, -, e⟩ | ⟨hc, hd, hl, -⟩ | ⟨-, e⟩
    · rw [e] at h; cases h
    · exact ⟨hl, hd, hc⟩
    · rw [e] at h; cases h
  · rintro ⟨hl, hd, hc⟩
    exact fetchData_stalls ((legal_iff s _).mpr hl) hd ((callbackReturns_eq_false s).mpr hc)

theorem executePhase_stuck_iff {i : Instr} {s : State} :
    executePhase i s = .stuck .callbackNeverReturns ↔
      (∃ a, i = .stv a) ∧ s.sar.toNat < s.cfg.memSize ∧ s.sar ∈ s.cfg.writeDev ∧ s.stallsAt = some s.draws := by
  constructor
  · intro h
    rcases executePhase_cases i s with ⟨-, _, _, _, _, _, _, e⟩ | ⟨_, _, _, _, _, -, -, -, e, -⟩ | ⟨a, ha, hl, hd, hc, -⟩ |
      ⟨_, -, -, e⟩ | ⟨-, -, e⟩
    · rw [e] at h; cases h
    · rw [e] at h; cases h
    · exact ⟨⟨a, ha⟩, hl, hd, hc⟩
    · rw [e] at h; cases h
    · rw [e] at h; cases h
  · rintro ⟨⟨a, rfl⟩, hl, hd, hc⟩
    exact memWrite_stalls (s := { s with sir := s.acc }) ((legal_iff _ _).mpr hl) ((writesDevice_iff _ _).mpr hd)
      ((callbackReturns_eq_false _).mpr hc)

/-- In OPERAND a micro-step hangs exactly when the transfers of the active instruction do. -/
theorem operandStep_hangs_iff {s : State} :
    operandStep s = .fault .callbackNeverReturns ↔ ∃ i, s.ci = some i ∧ operandPhase i s = .stuck .callbackNeverReturns := by
  unfold operandStep
  split
  · simp [*, finish_eq_fault_iff]
  · simp [*]

theorem executeStep_hangs_iff {s : State} :
    executeStep s = .fault .callbackNeverReturns ↔ ∃ i, s.ci = some i ∧ executePhase i s = .stuck .callbackNeverReturns := by
  unfold executeStep
  split
  · simp [*, finish_eq_fault_iff]
  · simp [*]

theorem idle_eq_false_of_microStep_fault {s : State} {e : Fault} (h : microStep s = .fault e) : s.idle = false := by
  cases hid : s.idle with
  | false => rfl
  | true => rw [microStep_of_idle hid] at h; cases h

/-- There is no timeout: the step's first micro-step hangs, so the step does. -/
theorem step_fault_of_microStep_fault {s : State} {e : Fault} (h : microStep s = .fault e) : step s = .fault e := by
  rw [step_eq_instructionStep, instructionStep, idle_eq_false_of_microStep_fault h, untilWrap, h]
  rfl

theorem repeatStep_succ_of_fault {f : State → Host.Outcome State Fault Refusal} {s : State} {e : Fault}
    (h : f s = .fault e) (k : Nat) : repeatStep f (k + 1) s = .fault e := by
  simp only [repeatStep, h]

theorem freeRun_succ_of_fault {s : State} {e : Fault} (hid : s.idle = false) (h : step s = .fault e) (fuel : Nat)
    (stops : List Bool) : freeRun (fuel + 1) stops s = .fault e := by
  obtain ⟨hf, hr⟩ := (idle_eq_false_iff s).mp hid
  simp [freeRun, hf, hr, h]

/-- Settles O53: a micro-step hangs where the transfers of its position do, and what is built on it hangs with it. -/
theorem stallingCallbackHangs : Obligations.StallingCallbackHangs := by
  refine ⟨fun s hr hf => ?_, fun s h => ?_⟩
  · cases hu : s.uc with
    | fetchAddr => simp [microStep_fetchAddr hr hf hu]
    | fetchData => simp [microStep_fetchData hr hf hu, finish_eq_fault_iff, fetchData_stuck_iff]
    | decode => simp [microStep_decode hr hf hu]
    | operand =>
      have hm : microStep s = operandStep s := by simp [microStep, idle_eq_false hr hf, hu]
      simp only [hm, operandStep_hangs_iff, operandPhase_stuck_iff, and_or_left, exists_or, reduceCtorEq, false_and,
        true_and, false_or, or_false]
      exact or_congr_right ⟨fun ⟨_, hi, p, hp, h⟩ => ⟨p, hp ▸ hi, h⟩, fun ⟨p, hi, h⟩ => ⟨_, hi, p, rfl, h⟩⟩
    | execute =>
      have hm : microStep s = executeStep s := by simp [microStep, idle_eq_false hr hf, hu]
      simp only [hm, executeStep_hangs_iff, executePhase_stuck_iff, reduceCtorEq, false_and, true_and, false_or]
      exact ⟨fun ⟨_, hi, ⟨a, ha⟩, h⟩ => ⟨⟨a, ha ▸ hi⟩, h⟩, fun ⟨⟨a, hi⟩, h⟩ => ⟨_, hi, ⟨a, rfl⟩, h⟩⟩
  · have hstep := step_fault_of_microStep_fault h
    exact ⟨hstep, fun k => ⟨repeatStep_succ_of_fault h k, repeatStep_succ_of_fault hstep k⟩,
      freeRun_succ_of_fault (idle_eq_false_of_microStep_fault h) hstep⟩

end Sys2Proof.Machine

/-!
What each instruction leaves unchanged, and what a recorded fault does; from these, the statements on the frames of the
instructions and on faults that are not resumed (10_state sections 2 to 6; 60_exceptions R233, R240).
-/

namespace Sys2Proof.Machine

/-! ### What the transfers of each opcode leave unchanged -/

/-- An OPERAND without a read leaves SIR and the device port alone, and one without a transfer SAR too (R125). -/
theorem operandPhase_done_port {i : Instr} {s t : State} (hop : i.op ∈ noOperandOpcodes ∨ i.op ∈ stagedOpcodes)
    (h : operandPhase i s = .done t) :
    t.sir = s.sir ∧ t.draws = s.draws ∧ t.devLog = s.devLog ∧ (i.op ∈ noOperandOpcodes → t.sar = s.sar) := by
  rcases hop with hop | hop
  · rw [operandPhase_of_noOperand hop] at h; cases h; exact ⟨rfl, rfl, rfl, fun _ => rfl⟩
  · rw [operandPhase_of_staged hop] at h; cases h
    exact ⟨rfl, rfl, rfl, fun hno => absurd hop (by generalize i.op = op at hno; revert op; decide)⟩

theorem executeAlu_done_frame {s t : State} (h : executeAlu s = .done t) :
    t = { s with acc := t.acc, x := t.x, y := t.y, z := t.z } := by
  unfold executeAlu at h
  split at h
  · cases h; rfl
  · cases h

theorem memWrite_done_frame {s t : State} (h : memWrite s = .done t) :
    t = { s with sir := t.sir, mem := t.mem, draws := t.draws, devLog := t.devLog } := by
  rcases memWrite_cases s with ⟨-, -, e⟩ | ⟨-, -, -, e⟩ | ⟨-, -, -, e⟩ | ⟨-, e⟩ <;> rw [e] at h <;> cases h
  all_goals rfl

/-- The EXECUTE transfers of an opcode leave alone what its rule does not name (R127). -/
theorem executePhase_done_unchanged {i : Instr} {s t : State} (h : executePhase i s = .done t) :
    (i.op ∉ [.jmp, .jmn] → t.iar = s.iar) ∧
    (i.op ∉ aluOpcodes → t.x = s.x ∧ t.y = s.y ∧ t.z = s.z) ∧
    (i.op ∈ [.stv, .jmp, .jmn, .hlt] → t.acc = s.acc) ∧
    (i.op ≠ .stv → t.sir = s.sir ∧ t.draws = s.draws ∧ t.devLog = s.devLog ∧ t.mem = s.mem) ∧
    (i.op ≠ .hlt → t.run = s.run) := by
  cases i with
  | add | and | or | xor | eql => rw [executeAlu_done_frame h]; simp [Instr.op, aluOpcodes]
  | stv => rw [memWrite_done_frame h]; simp [Instr.op]
  | jmn => cases h; split <;> simp [Instr.op]
  | ldc | ldv | jmp | ldiv | hlt | not | rar | rrn => cases h; simp [Instr.op]

theorem op_eq_stv_iff {i : Instr} : i.op = .stv ↔ ∃ a, i = .stv a :=
  ⟨Instr.exists_of_op, fun ⟨_, h⟩ => h ▸ rfl⟩

/-- Every instruction leaves alone what its rule does not name. -/
structure InstrFrame (i : Instr) (s t : State) : Prop where
  ir : t.ir = s.ir
  cfg : t.cfg = s.cfg
  iar : i.op ∉ [.jmp, .jmn] → t.iar = s.iar
  scratch : i.op ∉ aluOpcodes → t.x = s.x ∧ t.y = s.y ∧ t.z = s.z
  acc : i.op ∈ [.stv, .jmp, .jmn, .hlt] → t.acc = s.acc
  sar : i.op ∈ noOperandOpcodes → t.sar = s.sar
  port : i.op ∈ [.ldc, .jmp, .jmn, .hlt, .not, .rar, .rrn] →
    t.sir = s.sir ∧ t.draws = s.draws ∧ t.devLog = s.devLog ∧ t.fault = s.fault ∧ t.faultInfo = s.faultInfo
  run : i.op ≠ .hlt → t.run = s.run ∨ (t.fault = .outOfBounds ∧ t.run = false)
  mem : i.op ≠ .stv → t.mem = s.mem

/-- The opcodes that change neither SIR nor the device port: they neither read nor write memory. -/
theorem noAccess_of_mem {op : Opcode} (h : op ∈ [.ldc, .jmp, .jmn, .hlt, .not, .rar, .rrn]) :
    (op ∈ noOperandOpcodes ∨ op ∈ stagedOpcodes) ∧ op ∉ readingOpcodes ∧ op ≠ .stv := by
  revert op; decide

theorem noOperand_not_reading {op : Opcode} (h : op ∈ noOperandOpcodes) : op ∉ readingOpcodes := by
  revert op; decide

theorem operandPhase_raised_reading {i : Instr} {s t : State} (h : operandPhase i s = .raised t) :
    i.op ∈ readingOpcodes := by
  rcases operandPhase_raised_iff.mp h with ⟨hop, -⟩ | ⟨p, rfl, -⟩
  · exact hop
  · simp [Instr.op, readingOpcodes]

/-- An instruction that ends with a raise in OPERAND keeps its frame: only reading opcodes raise there. -/
theorem instrFrame_of_operand_raised {i : Instr} {s t : State} (h : operandPhase i (latch i s) = .raised t) :
    InstrFrame i s t := by
  have hreading := operandPhase_raised_reading h
  rw [operandPhase_raised h]
  exact {
    ir := rfl, cfg := rfl, iar := fun _ => rfl, scratch := fun _ => ⟨rfl, rfl, rfl⟩, acc := fun _ => rfl,
    sar := fun hop => absurd hreading (noOperand_not_reading hop),
    port := fun hop => absurd hreading (noAccess_of_mem hop).2.1,
    run := fun _ => .inr ⟨rfl, rfl⟩, mem := fun _ => rfl }

/-- An instruction that completes OPERAND keeps its frame: EXECUTE leaves alone what its rule does not name, or STV raises. -/
theorem instrFrame_of_execute {i : Instr} {s u t : State} (hu : operandPhase i (latch i s) = .done u)
    (h : (executePhase i { u with uc := .execute }).finish .fetchAddr = .next t) : InstrFrame i s t := by
  have hport := fun hop => operandPhase_done_port hop hu
  obtain ⟨sar, sir, draws, devLog, rfl⟩ : ∃ a v d l, u = { latch i s with sar := a, sir := v, draws := d, devLog := l } :=
    ⟨_, _, _, _, operandPhase_done hu⟩
  rcases finish_eq_next_iff.mp h with ⟨v, hv, rfl⟩ | hv
  · have hframe := executePhase_done hv
    obtain ⟨hiar, hscratch, hacc, hnoStore, hrun⟩ := executePhase_done_unchanged hv
    exact {
      ir := (congrArg State.ir hframe :), cfg := (congrArg State.cfg hframe :), iar := hiar, scratch := hscratch, acc := hacc,
      sar := fun hop => (congrArg State.sar hframe :).trans ((hport (.inl hop)).2.2.2 hop),
      port := fun hop => by
        obtain ⟨hstaged, -, hne⟩ := noAccess_of_mem hop
        obtain ⟨psir, pdraws, plog, -⟩ := hport hstaged
        obtain ⟨vsir, vdraws, vlog, -⟩ := hnoStore hne
        exact ⟨vsir.trans psir, vdraws.trans pdraws, vlog.trans plog, (congrArg State.fault hframe :),
          (congrArg State.faultInfo hframe :)⟩,
      run := fun hne => .inl (hrun hne), mem := fun hne => (hnoStore hne).2.2.2 }
  · obtain ⟨⟨a, rfl⟩, -, rfl⟩ := executePhase_raised_iff.mp hv
    exact {
      ir := rfl, cfg := rfl, iar := fun _ => rfl, scratch := fun _ => ⟨rfl, rfl, rfl⟩, acc := fun _ => rfl,
      sar := fun hop => absurd hop (by simp [Instr.op, noOperandOpcodes]),
      port := fun hop => absurd hop (by simp [Instr.op]),
      run := fun _ => .inr ⟨rfl, rfl⟩, mem := fun _ => rfl }

theorem exec_frame {i : Instr} {s t : State} (h : exec i s = .next t) : InstrFrame i s t := by
  rcases exec_next h with ⟨u, hu, h⟩ | h
  · exact instrFrame_of_execute hu h
  · exact instrFrame_of_operand_raised h

/-- Every address that is not an STV's operand reads as before. -/
theorem exec_read_other {i : Instr} {s t : State} (h : exec i s = .next t) {b : Nat} (hb : ∀ a, i = .stv a → b ≠ a.toNat) :
    Memory.read t.mem b = Memory.read s.mem b := by
  by_cases hop : i.op = .stv
  · obtain ⟨a, rfl⟩ := op_eq_stv_iff.mp hop
    rw [exec_stv] at h
    exact memWrite_finish_read_other (s := beforeStore a s) h (hb a rfl)
  · rw [(exec_frame h).mem hop]

/-- Settles O46: the frames of an instruction's two phases. -/
theorem instructionFrames : Obligations.InstructionFrames := by
  intro i s t h
  have hframe := exec_frame h
  exact ⟨⟨hframe.ir, hframe.cfg⟩, hframe.iar, hframe.scratch, hframe.acc, hframe.sar, hframe.port,
    fun hop => hframe.run (by simpa using hop), fun hop => hframe.mem (by simpa using hop), fun b => exec_read_other h⟩

/-! ### A recorded fault (60_exceptions R240; the spec's D15) -/

section
variable {s : State} (hf : s.fault ≠ .none)
include hf

theorem idle_of_fault : s.idle = true := idle_of_halted_or_faulted (.inr hf)

theorem setRun_of_fault (v : Bool) : setRun v s = s := if_neg hf

theorem hostCall_setRun_of_fault (v : Bool) : hostCall (.setRun v) s = .next (s, .refused) := by
  rw [hostCall, setRun_of_fault hf, if_neg hf]

theorem stepInstructions_of_fault (k : Nat) : stepInstructions k s = .next s :=
  repeatStep_of_fixed (step_of_idle (idle_of_fault hf)) k

theorem runFree_of_fault (fuel : Nat) (stops : List Bool) : runFree fuel stops s = .next (s, .faulted) := by
  rw [runFree, setRun_of_fault hf, freeRun_faulted hf]

/-- A faulted machine is not before execution. -/
theorem beforeExecution_of_fault : s.beforeExecution = false := by
  simp [State.beforeExecution, State.fresh, hf]

theorem loadCompiled_of_fault (r : Except AsmError ProgramImage) : loadCompiled r s = (s, .refused) :=
  beforeExecutionOnly_refused (beforeExecution_of_fault hf) _

/-- On a faulted machine no host call but initialise touches the fault record, RUN or UC. -/
theorem hostCall_of_fault {c : HostCall} {t : State} {r : HostReply} (h : hostCall c s = .next (t, r)) :
    (∃ n, c = .initialise n) ∨ (t.fault = s.fault ∧ t.faultInfo = s.faultInfo ∧ t.run = s.run ∧ t.uc = s.uc) := by
  have hrefused := fun call => beforeExecutionOnly_refused (beforeExecution_of_fault hf) call
  cases c with
  | initialise n => exact .inl ⟨n, rfl⟩
  | compileFromText | compileFromFile => rw [hostCall, loadCompiled_of_fault hf] at h; cases h; simp
  | loadImage => rw [hostCall, loadImage, hrefused] at h; cases h; simp
  | registerRead => rw [hostCall, registerRead, hrefused] at h; cases h; simp
  | registerWrite => rw [hostCall, registerWrite, hrefused] at h; cases h; simp
  | setRun v => rw [hostCall_setRun_of_fault hf] at h; cases h; simp
  | microStep => rw [hostCall, microStep_of_idle (idle_of_fault hf)] at h; cases h; simp
  | instructionStep => rw [hostCall, step_of_idle (idle_of_fault hf)] at h; cases h; simp
  | stepMicro k => rw [hostCall, stepMicro_of_idle (idle_of_fault hf)] at h; cases h; simp
  | stepInstructions k => rw [hostCall, stepInstructions_of_fault hf] at h; cases h; simp
  | freeRun fuel stops => rw [hostCall, freeRun_faulted hf] at h; cases h; simp
  | run fuel stops => rw [hostCall, runFree_of_fault hf] at h; cases h; simp
  | setBreakpoints | callbackStalls | queryBreakpoint | inspect => cases h; simp

end

/-- A raise keeps what was done before it: the fault record and RUN apart, only the staging registers and the device port are
the raising micro-step's (60_exceptions R233). -/
theorem microStep_raise_frame {s t : State} (hf : s.fault = .none) (h : microStep s = .next t) (ht : t.fault ≠ .none) :
    t = { s with sar := t.sar, sir := t.sir, draws := t.draws, devLog := t.devLog, fault := t.fault,
                 faultInfo := t.faultInfo, run := false } ∧
    (s.uc = .operand → t.sar = t.faultInfo) ∧ (s.uc = .execute → t.sar = s.sar ∧ t.sir = s.acc) := by
  rcases idle_or_running s with hid | ⟨hr, -⟩
  · rw [microStep_of_idle hid] at h; cases h; exact absurd hf ht
  rcases faultSitesArePrecise s t hr hf h ht with ⟨hu, -, rfl⟩ | ⟨hu, rfl⟩ | ⟨hu, i, -, -, -, rfl⟩ | ⟨hu, p, -, -, -, rfl⟩ |
    ⟨hu, -, -, rfl⟩ <;> refine ⟨rfl, ?_⟩ <;> simp only [hu, reduceCtorEq, false_implies, true_implies, and_true, true_and]
  · rfl
  · rfl
  · exact ⟨rfl, rfl⟩

/-- Settles O51: a faulted machine is idle and its host's calls but initialise leave it so; the fault sites say what a raise
keeps. -/
theorem faultsAreNotResumed : Obligations.FaultsAreNotResumed := by
  refine ⟨fun s hf => ⟨fun k => ?_, fun fuel stops => ?_, hostCall_setRun_of_fault hf, fun c t r h => hostCall_of_fault hf h⟩,
    fun s t hf h ht => microStep_raise_frame hf h ht⟩
  · exact ⟨stepMicro_of_idle (idle_of_fault hf) k, stepInstructions_of_fault hf k⟩
  · exact ⟨freeRun_faulted hf fuel stops, runFree_of_fault hf fuel stops⟩

end Sys2Proof.Machine

/-!
The invariant of the legal states: every phase of the micro-cycle keeps it, so a micro-step, a step and every repetition do, and
none of them stops outside a callback; from this, the statements on legal states under steps and on what memory a step writes
(10_state sections 1 to 6; 60_exceptions sections 1 and 5; 20_memory section 4).
-/

namespace Sys2Proof.Machine

/-! ### What repetitions keep and how they end -/

section
variable {f : State → Host.Outcome State Fault Refusal} {P : State → Prop} {s t : State}

/-- The last of some repetitions that answer. -/
theorem repeatStep_succ_next {k : Nat} (h : repeatStep f (k + 1) s = .next t) :
    ∃ u, repeatStep f k s = .next u ∧ f u = .next t := by
  induction k generalizing s with
  | zero => exact ⟨s, rfl, repeatStep_one.symm.trans h⟩
  | succ k ih =>
    cases hs : f s with
    | next v =>
      rw [repeatStep_succ_of_next hs] at h
      obtain ⟨u, hu, hut⟩ := ih h
      exact ⟨u, (repeatStep_succ_of_next hs k).trans hu, hut⟩
    | fault e | refused e => simp [repeatStep, hs] at h

/-- What an operation keeps its repetitions keep. -/
theorem repeatStep_keeps (hkeep : ∀ u v, P u → f u = .next v → P v) {k : Nat} (h : repeatStep f k s = .next t) (hs : P s) :
    P t := by
  induction k generalizing t with
  | zero => cases h; exact hs
  | succ k ih =>
    obtain ⟨u, hu, hut⟩ := repeatStep_succ_next h
    exact hkeep u t (ih hu) hut

/-- What a micro-step keeps a step keeps. -/
theorem step_keeps (hkeep : ∀ u v, P u → microStep u = .next v → P v) (h : step s = .next t) (hs : P s) : P t := by
  obtain ⟨k, -, hk⟩ := exists_step_eq_stepMicro s
  exact repeatStep_keeps hkeep (hk ▸ h) hs

end

/-- An operation from `s` answers, unless a callback never returns; then it hangs there (20_memory R64). -/
def EndsWell (s : State) {α : Type} (o : Host.Outcome α Fault Refusal) : Prop :=
  (∃ a, o = .next a) ∨ (¬CallbacksReturn s ∧ o = .fault .callbackNeverReturns)

theorem EndsWell.answers_or_hangs {s : State} {α : Type} {o : Host.Outcome α Fault Refusal} (h : EndsWell s o) :
    (∃ a, o = .next a) ∨ o = .fault .callbackNeverReturns := h.imp_right And.right

theorem EndsWell.answers {s : State} {α : Type} {o : Host.Outcome α Fault Refusal} (h : EndsWell s o)
    (hs : CallbacksReturn s) : ∃ a, o = .next a := h.resolve_right fun hn => hn.1 hs

theorem EndsWell.of_next {s : State} {α : Type} {o : Host.Outcome α Fault Refusal} {a : α} (h : o = .next a) :
    EndsWell s o := .inl ⟨a, h⟩

/-- Repetitions end well when each of them does. -/
theorem repeatStep_endsWell {f : State → Host.Outcome State Fault Refusal} {P : State → Prop} {s : State}
    (hkeep : ∀ u v, P u → f u = .next v → P v) (hend : ∀ u, P u → EndsWell s (f u)) (k : Nat) {u : State} (hu : P u) :
    EndsWell s (repeatStep f k u) := by
  induction k generalizing u with
  | zero => exact .of_next rfl
  | succ k ih =>
    rcases hend u hu with ⟨v, hv⟩ | ⟨hn, hv⟩
    · rw [repeatStep_succ_of_next hv]; exact ih (hkeep u v hu hv)
    · exact .inr ⟨hn, repeatStep_succ_of_fault hv k⟩

/-! ### A micro-step ends well (10_state R27, R31) -/

/-- Past DECODE an instruction is active, and ALUOP is its own (10_state R27, R31). -/
def HasActive (s : State) : Prop := s.uc.afterDecode = true → ∃ i, s.ci = some i ∧ s.aluop = aluSelOf i

/-- For an ALU instruction ALUOP selects an operation (41_arith_logic R150). -/
theorem alu_aluSelOf_ne_none {i : Instr} (h : i.op ∈ aluOpcodes) (x y : Word) : alu (aluSelOf i) x y ≠ none := by
  cases i with
  | add | and | or | xor | eql => exact nofun
  | _ => simp [Instr.op, aluOpcodes] at h

theorem fetchData_stuck {s : State} {e : Fault} (h : fetchData s = .stuck e) : e = .callbackNeverReturns := by
  rcases fetchData_cases s with ⟨_, _, _, -, e'⟩ | ⟨-, -, -, e'⟩ | ⟨-, e'⟩ <;> rw [e'] at h <;> cases h
  rfl

theorem executePhase_stuck {i : Instr} {s : State} {e : Fault} (ha : s.aluop = aluSelOf i)
    (h : executePhase i s = .stuck e) : e = .callbackNeverReturns := by
  rcases executePhase_cases i s with ⟨-, _, _, _, _, _, _, e'⟩ | ⟨_, _, _, _, _, -, -, -, e', -⟩ | ⟨_, -, -, -, -, e'⟩ |
    ⟨_, -, -, e'⟩ | ⟨hop, hnone, -⟩
  · rw [e'] at h; cases h
  · rw [e'] at h; cases h
  · rw [e'] at h; cases h; rfl
  · rw [e'] at h; cases h
  · exact absurd (ha ▸ hnone) (alu_aluSelOf_ne_none hop _ _)

/-- A machine whose callbacks return does not hang. -/
theorem not_callbacksReturn_of_hang {s : State} (h : microStep s = .fault .callbackNeverReturns) : ¬CallbacksReturn s := by
  obtain ⟨hf, hr⟩ := (idle_eq_false_iff s).mp (idle_eq_false_of_microStep_fault h)
  intro hreturn
  rcases (stallingCallbackHangs.1 s hr hf).mp h with ⟨-, -, -, hc⟩ | ⟨-, _, -, -, -, -, hc⟩ | ⟨-, p, -, -, -, -, -, hc⟩ |
    ⟨-, -, -, -, hc⟩
  · exact hreturn _ (Nat.le_refl _) hc
  · exact hreturn _ (Nat.le_refl _) hc
  · exact hreturn _ (draws_le_dataRead s p) hc
  · exact hreturn _ (Nat.le_refl _) hc

theorem finish_answers_or_hangs {m : Micro} (hm : ∀ e, m = .stuck e → e = .callbackNeverReturns) (u : MicroPos) :
    (∃ t, m.finish u = .next t) ∨ m.finish u = .fault .callbackNeverReturns := by
  cases m with
  | done s => exact .inl ⟨_, rfl⟩
  | raised s => exact .inl ⟨_, rfl⟩
  | stuck e => exact .inr (by rw [hm e rfl]; rfl)

theorem microStep_endsWell {s : State} (hs : HasActive s) : EndsWell s (microStep s) := by
  have hends : (∃ t, microStep s = .next t) ∨ microStep s = .fault .callbackNeverReturns := by
    rcases idle_or_running s with hid | ⟨hr, hf⟩
    · exact .inl ⟨s, microStep_of_idle hid⟩
    cases hu : s.uc with
    | fetchAddr => exact .inl ⟨_, microStep_fetchAddr hr hf hu⟩
    | fetchData =>
      rw [microStep_fetchData hr hf hu]
      exact finish_answers_or_hangs (fun _ => fetchData_stuck) _
    | decode => exact .inl ⟨_, microStep_decode hr hf hu⟩
    | operand =>
      obtain ⟨i, hi, -⟩ := hs (by rw [hu]; rfl)
      rw [microStep_operand hr hf hu hi]
      exact finish_answers_or_hangs (fun _ => operandPhase_stuck) _
    | execute =>
      obtain ⟨i, hi, ha⟩ := hs (by rw [hu]; rfl)
      rw [microStep_execute hr hf hu hi]
      exact finish_answers_or_hangs (fun _ => executePhase_stuck ha) _
  exact hends.imp_right fun h => ⟨not_callbacksReturn_of_hang h, h⟩

theorem microStep_callbacksReturn {s t : State} (h : microStep s = .next t) (hs : CallbacksReturn s) : CallbacksReturn t :=
  hs.mono (microStep_draws h).1 (microStep_draws h).2

/-! ### The fresh machine (log 26) -/

/-- A micro-step that is not idle ends freshness: it leaves the start value of UC, or it is an EXECUTE, with CI set. -/
theorem microStep_not_fresh {s t : State} (hid : s.idle = false) (h : microStep s = .next t) : t.fresh = false := by
  obtain ⟨hf, hr⟩ := (idle_eq_false_iff s).mp hid
  refine Bool.eq_false_iff.mpr fun hfresh => ?_
  obtain ⟨huc, hci, hfault⟩ := (fresh_iff t).mp hfresh
  rcases microStep_position hr hf h with ⟨-, hcode⟩ | ⟨hn, -⟩
  · have hexec : s.uc = .execute :=
      MicroPos.next_code_eq_zero_iff.mp (hcode.symm.trans (MicroPos.code_eq_zero_iff.mpr huc))
    obtain ⟨-, -, -, -, hframe⟩ := microStepFrames s t h
    have hci' : t.ci = s.ci := (congrArg State.ci (hframe hexec) :)
    have hm : microStep s = executeStep s := by simp [microStep, hid, hexec]
    obtain ⟨i, hi, -⟩ := executeStep_next (hm ▸ h)
    simp [hci', hi] at hci
  · exact hn hfault

theorem microStep_fresh_iff {s t : State} (h : microStep s = .next t) :
    t.fresh = true ↔ s.fresh = true ∧ s.idle = true := by
  cases hid : s.idle with
  | true => rw [microStep_of_idle hid] at h; cases h; simp
  | false => simp [microStep_not_fresh hid h]

theorem step_fresh_iff {s t : State} (h : step s = .next t) : t.fresh = true ↔ s.fresh = true ∧ s.idle = true := by
  cases hid : s.idle with
  | true => rw [step_of_idle hid] at h; cases h; simp
  | false =>
    have hkeep : ∀ u v, u.fresh = false → microStep u = .next v → v.fresh = false := fun u v hu hv => by
      simpa [hu] using microStep_fresh_iff hv
    obtain ⟨hf, hr⟩ := (idle_eq_false_iff s).mp hid
    have hnot : t.fresh = false := by
      have hloop := step_loopEnds hr hf
      rw [h] at hloop
      cases hloop with
      | last hm => exact microStep_not_fresh hid hm
      | more hm _ hrest =>
        obtain ⟨k, -, hk⟩ := hrest.eq_stepMicro
        exact repeatStep_keeps hkeep hk.symm (microStep_not_fresh hid hm)
    simp [hnot]

/-! ### The invariant, phase by phase -/

namespace LegalState

/-- Without a fault the clauses on the fault record hold of themselves. -/
theorem of_noFault {t : State} (hf : t.fault = .none) (cfg_ok : ConfigOk t.cfg) (mem_wf : Memory.wf t.mem)
    (mem_within : Memory.within t.mem t.cfg.memSize) (ci_wf : ∀ i, t.ci = some i → i.wf = true)
    (active : t.uc.afterDecode = true →
      ∃ i, t.ci = some i ∧ decodeWith t.cfg.opcodeMap t.ir = .ok i ∧ t.tra = traOf i ∧ t.aluop = aluSelOf i)
    (addressed : t.uc = .execute → ∀ i, t.ci = some i → i.op ∈ stagedOpcodes ++ directOpcodes → t.sar = i.operand)
    (staged : t.uc = .fetchData → t.sar = t.iar) (latched : t.uc = .decode → t.sir = t.ir) : LegalState t where
  cfg_ok := cfg_ok
  mem_wf := mem_wf
  mem_within := mem_within
  ci_wf := ci_wf
  active := active
  addressed := addressed
  staged := staged
  latched := latched
  halted := fun h => absurd hf h
  illegal := fun h => by simp [hf] at h
  bounds := fun h => by simp [hf] at h

/-- The invariant does not read the device port. -/
theorem with_port {s : State} (h : LegalState s) (draws : Nat) (devLog : List DevEvent) (stallsAt : Option Nat) :
    LegalState { s with draws := draws, devLog := devLog, stallsAt := stallsAt } where
  cfg_ok := h.cfg_ok
  mem_wf := h.mem_wf
  mem_within := h.mem_within
  ci_wf := h.ci_wf
  active := h.active
  addressed := h.addressed
  staged := h.staged
  latched := h.latched
  halted := h.halted
  illegal := h.illegal
  bounds := h.bounds

variable {s t : State}

theorem hasActive (h : LegalState s) : HasActive s := fun hu =>
  let ⟨i, hi, _, _, ha⟩ := h.active hu; ⟨i, hi, ha⟩

/-- A bounds fault at the SAR of a legal state, where an access can have been made. -/
theorem afterBoundsFault (h : LegalState s) (hu : s.uc = .fetchData ∨ s.uc = .operand ∨ s.uc = .execute)
    (hl : s.cfg.memSize ≤ s.sar.toNat) : LegalState (afterBoundsFault s) where
  cfg_ok := h.cfg_ok
  mem_wf := h.mem_wf
  mem_within := h.mem_within
  ci_wf := h.ci_wf
  active := h.active
  addressed := h.addressed
  staged := h.staged
  latched := h.latched
  halted := fun _ => rfl
  illegal := nofun
  bounds := fun _ => ⟨hu, rfl, (legal_eq_false_iff s s.sar).mpr hl⟩

section
variable (h : LegalState s) (hf : s.fault = .none)
include h hf

theorem fetchAddr : LegalState (fetchAddr s) :=
  of_noFault hf h.cfg_ok h.mem_wf h.mem_within h.ci_wf nofun nofun (fun _ => rfl) nofun

theorem fetchData_done (hd : fetchData s = .done t) : LegalState { t with uc := .decode } := by
  rw [Machine.fetchData_done hd]
  exact of_noFault hf h.cfg_ok h.mem_wf h.mem_within h.ci_wf nofun nofun nofun fun _ => rfl

theorem latch {i : Instr} (hi : decodeWith s.cfg.opcodeMap s.ir = .ok i) : LegalState (latch i s) :=
  of_noFault hf h.cfg_ok h.mem_wf h.mem_within (fun j hj => by cases hj; exact wf_of_decodeWith hi)
    (fun _ => ⟨i, rfl, hi, rfl, rfl⟩) nofun nofun nofun

omit hf in
theorem raise_illegal (hu : s.uc = .decode) (he : decodeWith s.cfg.opcodeMap s.ir = .error (.invalidOpcode s.ir)) :
    LegalState (raise .illegalInstruction s.ir s) where
  cfg_ok := h.cfg_ok
  mem_wf := h.mem_wf
  mem_within := h.mem_within
  ci_wf := h.ci_wf
  active := h.active
  addressed := h.addressed
  staged := h.staged
  latched := h.latched
  halted := fun _ => rfl
  illegal := fun _ => ⟨hu, rfl, he⟩
  bounds := nofun

/-- In OPERAND the invariant does not read SAR and SIR. -/
theorem with_staging (hu : s.uc = .operand) (sar sir : Word) (draws : Nat) (devLog : List DevEvent) :
    LegalState { s with sar := sar, sir := sir, draws := draws, devLog := devLog } :=
  of_noFault hf h.cfg_ok h.mem_wf h.mem_within h.ci_wf h.active (fun hx => by simp [hu] at hx)
    (fun hx => by simp [hu] at hx) (fun hx => by simp [hu] at hx)

theorem operandPhase_done (hu : s.uc = .operand) {i : Instr} (hi : s.ci = some i) (hd : operandPhase i s = .done t) :
    LegalState { t with uc := .execute } := by
  have hsar : i.op ∈ stagedOpcodes ++ directOpcodes → t.sar = i.operand := fun hop => by
    rcases List.mem_append.mp hop with hop | hop
    · rw [operandPhase_of_staged hop] at hd; cases hd; rfl
    · rw [operandPhase_of_direct hop, operandDirect_eq] at hd
      split_ifs at hd
      cases hd; rfl
  obtain ⟨sar, sir, draws, devLog, rfl⟩ : ∃ a v d l, t = { s with sar := a, sir := v, draws := d, devLog := l } :=
    ⟨_, _, _, _, Machine.operandPhase_done hd⟩
  refine of_noFault hf h.cfg_ok h.mem_wf h.mem_within h.ci_wf (fun _ => h.active (by rw [hu]; rfl)) (fun _ j hj hop => ?_)
    nofun nofun
  obtain rfl : i = j := Option.some.inj (hi.symm.trans hj)
  exact hsar hop

theorem operandPhase_raised (hu : s.uc = .operand) {i : Instr} (hr : operandPhase i s = .raised t) : LegalState t := by
  rcases operandPhase_raised_iff.mp hr with ⟨-, hl, rfl⟩ | ⟨p, -, -, -, hl, rfl⟩
  · exact (h.with_staging hf hu i.operand s.sir s.draws s.devLog).afterBoundsFault (.inr (.inl hu)) hl
  · exact (h.with_staging hf hu _ _ _ _).afterBoundsFault (.inr (.inl hu)) hl

end

end LegalState

/-- What EXECUTE does to memory: nothing, or STV's store of ACC at SAR (R127). -/
theorem executePhase_done_mem {i : Instr} {s t : State} (h : executePhase i s = .done t) :
    t.mem = s.mem ∨
      ((∃ a, i = .stv a) ∧ s.sar.toNat < s.cfg.memSize ∧ t.mem = Memory.write s.mem s.sar.toNat s.acc) := by
  rcases executePhase_cases i s with ⟨-, _, _, _, _, _, _, e⟩ | ⟨a, _, _, _, _, ha, -, hl, e, hm⟩ | ⟨_, -, -, -, -, e⟩ |
    ⟨_, -, -, e⟩ | ⟨-, -, e⟩ <;> rw [e] at h <;> cases h
  · exact .inl rfl
  · exact hm.imp_right fun hm => ⟨⟨a, ha⟩, hl, hm⟩

namespace LegalState
variable {s t : State} (h : LegalState s) (hf : s.fault = .none)
include h hf

theorem executePhase_done {i : Instr} (hd : executePhase i s = .done t) : LegalState { t with uc := .fetchAddr } := by
  have hframe := Machine.executePhase_done hd
  have hcfg : t.cfg = s.cfg := (congrArg State.cfg hframe :)
  have hci : t.ci = s.ci := (congrArg State.ci hframe :)
  have hmem : Memory.wf t.mem ∧ Memory.within t.mem s.cfg.memSize := by
    rcases executePhase_done_mem hd with hm | ⟨-, hl, hm⟩ <;> rw [hm]
    · exact ⟨h.mem_wf, h.mem_within⟩
    · exact ⟨Memory.write_wf h.mem_wf _ _, Memory.write_within h.mem_within hl⟩
  exact of_noFault ((congrArg State.fault hframe :).trans hf) (hcfg ▸ h.cfg_ok) hmem.1 (hcfg ▸ hmem.2) (hci ▸ h.ci_wf)
    nofun nofun nofun nofun

theorem executePhase_raised (hu : s.uc = .execute) {i : Instr} (hr : executePhase i s = .raised t) : LegalState t := by
  obtain ⟨-, hl, rfl⟩ := executePhase_raised_iff.mp hr
  have hsir : LegalState { s with sir := s.acc } :=
    of_noFault hf h.cfg_ok h.mem_wf h.mem_within h.ci_wf h.active h.addressed h.staged (fun hx => by simp [hu] at hx)
  exact hsir.afterBoundsFault (.inr (.inr hu)) hl

omit hf in
/-- The invariant: every micro-step keeps it. -/
theorem microStep (hm : microStep s = .next t) : LegalState t := by
  rcases microStep_next hm with ⟨-, rfl⟩ | ⟨hid, hphase⟩
  · exact h
  have hf := ((idle_eq_false_iff s).mp hid).1
  rcases hphase with ⟨-, rfl⟩ | ⟨hu, hm⟩ | ⟨hu, rfl⟩ | ⟨hu, i, hi, hm⟩ | ⟨hu, i, hi, hm⟩
  · exact h.fetchAddr hf
  · rcases finish_eq_next_iff.mp hm with ⟨v, hv, rfl⟩ | hv
    · exact h.fetchData_done hf hv
    · obtain ⟨hl, rfl⟩ := fetchData_raised_iff.mp hv
      exact h.afterBoundsFault (.inl hu) hl
  · rcases decodeStep_cases s with ⟨i, hi, e⟩ | ⟨he, e⟩ <;> rw [e]
    · exact h.latch hf hi
    · exact h.raise_illegal hu he
  · rcases finish_eq_next_iff.mp hm with ⟨v, hv, rfl⟩ | hv
    · exact h.operandPhase_done hf hu hi hv
    · exact h.operandPhase_raised hf hu hv
  · rcases finish_eq_next_iff.mp hm with ⟨v, hv, rfl⟩ | hv
    · exact h.executePhase_done hf hv
    · exact h.executePhase_raised hf hu hv

end LegalState

/-! ### Everything reached from a legal state -/

/-- What holds of every state that micro-steps reach from `s`: it is legal, its callbacks return if those of `s` do, and it is
fresh only if `s` is. -/
structure LegalFrom (s t : State) : Prop where
  legal : LegalState t
  returns : CallbacksReturn s → CallbacksReturn t
  fresh : t.fresh = true → s.fresh = true

namespace LegalFrom
variable {s u t : State}

theorem refl (h : LegalState s) : LegalFrom s s := ⟨h, id, id⟩

theorem microStep (h : LegalFrom s u) (hm : microStep u = .next t) : LegalFrom s t :=
  ⟨h.legal.microStep hm, fun hs => microStep_callbacksReturn hm (h.returns hs),
    fun ht => h.fresh ((microStep_fresh_iff hm).mp ht).1⟩

theorem microStep_endsWell (h : LegalFrom s u) : EndsWell s (Machine.microStep u) :=
  (Machine.microStep_endsWell h.legal.hasActive).imp_right fun hn => ⟨mt h.returns hn.1, hn.2⟩

theorem stepMicro_endsWell (h : LegalFrom s u) (k : Nat) : EndsWell s (stepMicro k u) :=
  repeatStep_endsWell (fun _ _ => microStep) (fun _ => microStep_endsWell) k h

theorem step (h : LegalFrom s u) (hm : step u = .next t) : LegalFrom s t := step_keeps (fun _ _ => microStep) hm h

theorem step_endsWell (h : LegalFrom s u) : EndsWell s (Machine.step u) := by
  obtain ⟨k, -, hk⟩ := exists_step_eq_stepMicro u
  rw [hk]
  exact h.stepMicro_endsWell k

end LegalFrom

/-- Settles O38: the invariant, freshness and the callbacks' returning, kept by a micro-step and so by a step. -/
theorem stepsKeepLegalStates : Obligations.StepsKeepLegalStates := by
  intro s hs
  have hfrom := LegalFrom.refl hs
  refine ⟨fun t ht => ?_, fun t ht => ?_, hfrom.microStep_endsWell.answers_or_hangs, hfrom.step_endsWell.answers_or_hangs,
    fun hc => ⟨hfrom.microStep_endsWell.answers hc, hfrom.step_endsWell.answers hc⟩⟩
  · exact ⟨(hfrom.microStep ht).legal, (hfrom.microStep ht).returns, microStep_fresh_iff ht⟩
  · exact ⟨(hfrom.step ht).legal, (hfrom.step ht).returns, step_fresh_iff ht⟩

end Sys2Proof.Machine

/-!
The micro-steps of one instruction, counted from its boundary, and the memory a step writes; from these, the statements on the
five micro-steps, on the instruction's address and on where stores go (40_microcycle R123, R129; 20_memory section 4).
-/

namespace Sys2Proof.Machine

/-! ### The position after k micro-steps (40_microcycle R129) -/

/-- A micro-step before EXECUTE leaves a running machine running at the next position, or records a fault past FETCH_ADDR. -/
theorem microStep_before_execute {s t : State} (hr : s.run = true) (hf : s.fault = .none) (hlt : s.uc.code < 4)
    (h : microStep s = .next t) :
    (t.fault = .none ∧ t.run = true ∧ t.uc.code = s.uc.code + 1) ∨ (t.fault ≠ .none ∧ t.uc = s.uc ∧ 0 < s.uc.code) := by
  rcases microStep_position hr hf h with ⟨htf, hnext⟩ | ⟨htf, hstay⟩
  · have hrun : t.run = true := by
      rcases microStep_advances_or_faults hr hf h with ⟨-, -, hrun⟩ | ⟨hn, -⟩
      · simpa [MicroPos.code_lt_four_iff.mp hlt] using hrun
      · exact absurd htf hn
    exact .inl ⟨htf, hrun, by omega⟩
  · have hne : s.uc.code ≠ 0 := fun e => by
      rw [microStep_fetchAddr hr hf (MicroPos.code_eq_zero_iff.mp e)] at h
      cases h; exact htf hf
    exact .inr ⟨htf, hstay, Nat.pos_of_ne_zero hne⟩

/-- After `k` micro-steps from a boundary, fewer than five, the machine runs at position `k`, or a fault stopped it on the way. -/
theorem stepMicro_position {s t : State} (hs : Ready s) {k : Nat} (hk : k < 5) (h : stepMicro k s = .next t) :
    (t.fault = .none ∧ t.run = true ∧ t.uc.code = k) ∨ (t.fault ≠ .none ∧ 0 < t.uc.code ∧ t.uc.code ≤ k) := by
  induction k generalizing t with
  | zero => cases h; exact .inl ⟨hs.noFault, hs.running, MicroPos.code_eq_zero_iff.mpr hs.boundary⟩
  | succ k ih =>
    obtain ⟨u, hu, hut⟩ := repeatStep_succ_next h
    rcases ih (by omega) hu with ⟨hf, hr, hcode⟩ | ⟨hf, hpos, hle⟩
    · rcases microStep_before_execute hr hf (by omega) hut with ⟨htf, htr, hnext⟩ | ⟨htf, hstay, hpos⟩
      · exact .inl ⟨htf, htr, by omega⟩
      · exact .inr ⟨htf, by rw [hstay]; omega, by rw [hstay]; omega⟩
    · rw [microStep_of_idle (idle_of_fault hf)] at hut
      cases hut
      exact .inr ⟨hf, hpos, by omega⟩

/-- The fifth micro-step wraps UC, unless a fault stopped the machine. -/
theorem stepMicro_five_boundary {s t : State} (hs : Ready s) (h : stepMicro 5 s = .next t) (ht : t.fault = .none) :
    t.uc = .fetchAddr := by
  obtain ⟨u, hu, hut⟩ := repeatStep_succ_next h
  rcases stepMicro_position hs (by decide) hu with ⟨hf, hr, hcode⟩ | ⟨hf, -, -⟩
  · rcases microStep_position hr hf hut with ⟨-, hnext⟩ | ⟨hn, -⟩
    · exact MicroPos.code_eq_zero_iff.mp (by omega)
    · exact absurd ht hn
  · rw [microStep_of_idle (idle_of_fault hf)] at hut
    cases hut; exact absurd ht hf

/-! ### Five micro-steps answer -/

/-- Past DECODE the active instruction and ALUOP stay: OPERAND and EXECUTE write neither. -/
theorem microStep_hasActive {s t : State} (hs : HasActive s) (h : microStep s = .next t) : HasActive t := by
  rcases microStep_next h with ⟨-, rfl⟩ | ⟨-, ⟨hu, rfl⟩ | ⟨hu, h⟩ | ⟨hu, rfl⟩ | ⟨hu, i, hi, h⟩ | ⟨hu, i, hi, h⟩⟩
  · exact hs
  · exact nofun
  · rcases finish_eq_next_iff.mp h with ⟨v, hv, rfl⟩ | hv
    · exact nofun
    · rw [fetchData_raised hv]; exact hs
  · rcases decodeStep_cases s with ⟨i, -, e⟩ | ⟨-, e⟩ <;> rw [e]
    · exact fun _ => ⟨i, rfl, rfl⟩
    · exact hs
  · have hactive := hs (by rw [hu]; rfl)
    rcases finish_eq_next_iff.mp h with ⟨v, hv, rfl⟩ | hv
    · rw [operandPhase_done hv]; exact fun _ => hactive
    · rw [operandPhase_raised hv]; exact hs
  · rcases finish_eq_next_iff.mp h with ⟨v, hv, rfl⟩ | hv
    · exact nofun
    · rw [executePhase_raised hv]; exact hs

theorem stepMicro_endsWell {s : State} (hs : HasActive s) (k : Nat) : EndsWell s (stepMicro k s) := by
  refine repeatStep_endsWell (P := fun u => HasActive u ∧ (CallbacksReturn s → CallbacksReturn u)) (fun u v hu huv => ?_)
    (fun u hu => ?_) k ⟨hs, id⟩
  · exact ⟨microStep_hasActive hu.1 huv, fun hc => microStep_callbacksReturn huv (hu.2 hc)⟩
  · exact (microStep_endsWell hu.1).imp_right fun hn => ⟨mt hu.2 hn.1, hn.2⟩

theorem Ready.hasActive {s : State} (hs : Ready s) : HasActive s := fun h => by simp [hs.boundary, MicroPos.afterDecode] at h

/-- Settles O14: the micro-steps of a machine whose callbacks return answer, and the position counts them. -/
theorem fiveMicroStepsAnInstruction : Obligations.FiveMicroStepsAnInstruction := by
  intro s hs hc
  have hanswers := fun k => (stepMicro_endsWell hs.hasActive k).answers hc
  refine ⟨?_, fun k hpos hlt => ?_⟩
  · obtain ⟨t, ht⟩ := hanswers 5
    exact ⟨t, ht, stepMicro_five_boundary hs ht⟩
  · obtain ⟨t, ht⟩ := hanswers k
    refine ⟨t, ht, fun huc => ?_⟩
    have hcode := MicroPos.code_eq_zero_iff.mpr huc
    rcases stepMicro_position hs hlt ht with ⟨-, -, h⟩ | ⟨-, h, -⟩ <;> omega

/-! ### The address of the instruction being executed (40_microcycle R123) -/

/-- IAR names the instruction fetched from `a`: still before the fetch, one past it from DECODE on. -/
def FetchesFrom (a : Word) (s : State) : Prop :=
  if s.uc = .fetchAddr ∨ s.uc = .fetchData then s.iar = a else s.instructionAddress = a

/-- Every micro-step keeps that, up to the wrap after EXECUTE. -/
theorem microStep_fetchesFrom {a : Word} {s t : State} (hs : FetchesFrom a s) (h : microStep s = .next t) :
    FetchesFrom a t ∨ (s.uc = .execute ∧ t.uc = .fetchAddr) := by
  rcases microStep_next h with ⟨-, rfl⟩ | ⟨-, ⟨hu, rfl⟩ | ⟨hu, h⟩ | ⟨hu, rfl⟩ | ⟨hu, i, hi, h⟩ | ⟨hu, i, hi, h⟩⟩
  · exact .inl hs
  · left; simpa [FetchesFrom, hu] using hs
  · left
    have ha : s.iar = a := by simpa [FetchesFrom, hu] using hs
    rcases finish_eq_next_iff.mp h with ⟨v, hv, rfl⟩ | hv
    · rw [fetchData_done hv]; simp [FetchesFrom, State.instructionAddress, ha]
    · rw [fetchData_raised hv]; exact hs
  · left
    have ha : s.instructionAddress = a := by simpa [FetchesFrom, hu] using hs
    rcases decodeStep_cases s with ⟨i, -, e⟩ | ⟨-, e⟩ <;> rw [e]
    · simpa [FetchesFrom, State.instructionAddress] using ha
    · exact hs
  · left
    have ha : s.instructionAddress = a := by simpa [FetchesFrom, hu] using hs
    rcases finish_eq_next_iff.mp h with ⟨v, hv, rfl⟩ | hv
    · rw [operandPhase_done hv]; simpa [FetchesFrom, State.instructionAddress] using ha
    · rw [operandPhase_raised hv]; exact hs
  · rcases finish_eq_next_iff.mp h with ⟨v, hv, rfl⟩ | hv
    · exact .inr ⟨hu, rfl⟩
    · left; rw [executePhase_raised hv]; exact hs

/-- Before the fifth micro-step IAR names the instruction the first one began. -/
theorem stepMicro_fetchesFrom {s t : State} (hs : Ready s) {k : Nat} (hk : k < 5) (h : stepMicro k s = .next t) :
    FetchesFrom s.iar t := by
  induction k generalizing t with
  | zero => cases h; simp [FetchesFrom, hs.boundary]
  | succ k ih =>
    obtain ⟨u, hu, hut⟩ := repeatStep_succ_next h
    refine (microStep_fetchesFrom (ih (by omega) hu) hut).resolve_right fun hexec => ?_
    have hcode : u.uc.code = 4 := by rw [hexec.1]; rfl
    rcases stepMicro_position hs (by omega) hu with ⟨-, -, h⟩ | ⟨-, -, h⟩ <;> omega

/-- Settles O15: IAR names the instruction until the wrap, and in the positions of the statement that is one past its address. -/
theorem instructionAddressIsKept : Obligations.InstructionAddressIsKept := by
  intro s hs k t hk h hu
  have hfetches : FetchesFrom s.iar t := by
    rcases Nat.lt_or_eq_of_le hk with hlt | rfl
    · exact stepMicro_fetchesFrom hs hlt h
    · obtain ⟨u, hu', hut⟩ := repeatStep_succ_next h
      refine (microStep_fetchesFrom (stepMicro_fetchesFrom hs (by decide) hu') hut).resolve_right fun hwrap => ?_
      simp [hwrap.2] at hu
  rcases hu with hu | hu | hu <;> simpa [FetchesFrom, hu] using hfetches

/-! ### What a step writes in memory (20_memory section 4) -/

/-- Memory in `t` is that in `s`, or `t` ends an STV that wrote only its operand, below 2^20. -/
def StoresBelow (s t : State) : Prop :=
  t.mem = s.mem ∨ (t.uc = .fetchAddr ∧ ∃ a, t.ci = some (.stv a) ∧ a.toNat < 2 ^ 20 ∧
    ∀ b, b ≠ a.toNat → Memory.read t.mem b = Memory.read s.mem b)

theorem microStep_storesBelow {s t : State} (hs : LegalState s) (h : microStep s = .next t) : StoresBelow s t := by
  rcases microStep_next h with ⟨-, rfl⟩ | ⟨-, ⟨-, rfl⟩ | ⟨-, h⟩ | ⟨-, rfl⟩ | ⟨-, i, -, h⟩ | ⟨hu, i, hi, h⟩⟩
  · exact .inl rfl
  · exact .inl rfl
  · exact .inl (congrArg State.mem (fetchData_finish_frame h) :)
  · exact .inl (congrArg State.mem (decodeStep_frame s) :)
  · exact .inl (congrArg State.mem (operandPhase_finish_frame h) :)
  · rcases finish_eq_next_iff.mp h with ⟨v, hv, rfl⟩ | hv
    · rcases executePhase_done_mem hv with hm | ⟨⟨a, rfl⟩, -, hm⟩
      · exact .inl hm
      · have hsar : s.sar = a := hs.addressed hu _ hi (by simp [Instr.op])
        have hci : v.ci = some (.stv a) := (congrArg State.ci (executePhase_done hv) :).trans hi
        have hlt : a.toNat < 2 ^ 20 := (Instr.wf_iff _).mp (hs.ci_wf _ hi)
        refine .inr ⟨rfl, a, hci, hlt, fun b hb => ?_⟩
        rw [hm, hsar]
        exact Memory.read_write_other _ _ _ _ hb
    · exact .inl (by rw [executePhase_raised hv]; rfl)

/-- A loop of micro-steps stores at most once, in its last: after a store UC is at its start value. -/
theorem LoopEnds.storesBelow {n : Nat} {s : State} {o : Host.Outcome State Fault Refusal} (h : LoopEnds n s o)
    (hs : LegalState s) {t : State} (ht : o = .next t) : StoresBelow s t := by
  induction h with
  | last hm => exact microStep_storesBelow hs (hm.trans ht)
  | more hm hgo _ ih =>
    rcases microStep_storesBelow hs hm with hmem | ⟨huc, -⟩
    · have hrest := ih (hs.microStep hm) ht
      rwa [StoresBelow, hmem] at hrest
    · simp [State.stepEnded, huc] at hgo

theorem step_storesBelow {s t : State} (hs : LegalState s) (h : step s = .next t) : StoresBelow s t := by
  rcases idle_or_running s with hid | ⟨hr, hf⟩
  · rw [step_of_idle hid] at h; cases h; exact .inl rfl
  · exact (step_loopEnds hr hf).storesBelow hs h

/-- Settles O44: the step's one store is STV's, whose operand fits 20 bits. -/
theorem storesStayBelowTwoToTwenty : Obligations.StoresStayBelowTwoToTwenty := by
  intro s t hs h
  rcases step_storesBelow hs h with hmem | ⟨-, a, hci, hlt, hother⟩
  · exact ⟨fun _ _ => by rw [hmem], fun hn => absurd hmem hn⟩
  · exact ⟨fun b hb => hother b (by omega), fun _ => ⟨a, hci, hlt, hother⟩⟩

end Sys2Proof.Machine

/-!
The host control port: initialisation, loads, registration and set_run, free-run by its boundaries, and what every call keeps;
from these, the statements on reset, on the host calls and on free-run (40_microcycle R132 to R142; 60_exceptions R235 to R252;
70_reset_and_hazards section 1).
-/

namespace Sys2Proof.Machine

/-! ### Initialisation (70_reset R260) -/

/-- Dropping the cells from `n` on leaves the words below `n`. -/
theorem Memory.read_filter_lt (m : List Cell) {n a : Nat} (ha : a < n) :
    Memory.read (m.filter fun c => c.1 < n) a = Memory.read m a := by
  induction m with
  | nil => rfl
  | cons c rest ih =>
    by_cases hc : c.1 < n
    · rw [List.filter_cons_of_pos (by simpa using hc), Memory.read, Memory.read, ih]
    · rw [List.filter_cons_of_neg (by simpa using hc), ih, Memory.read, if_neg (by omega)]

theorem initialise_resetRegisters (n : Nat) (s : State) : ResetRegisters (initialise n s) :=
  ⟨⟨rfl, rfl, rfl, rfl⟩, ⟨rfl, rfl, rfl, rfl⟩, ⟨rfl, rfl, rfl, rfl, rfl, rfl⟩, ⟨rfl, rfl⟩⟩

theorem hostCall_initialise {n : Nat} (h : 1 ≤ n ∧ n ≤ 2 ^ 32) (s : State) :
    hostCall (.initialise n) s = .next (initialise n s, .ok) := if_pos h

theorem hostCall_initialise_refused {n : Nat} (h : ¬(1 ≤ n ∧ n ≤ 2 ^ 32)) (s : State) :
    hostCall (.initialise n) s = .next (s, .refused) := if_neg h

/-- Settles O36: initialisation writes every element, and its memory is MEM_INIT below MEM_SIZE. -/
theorem resetLeavesEveryElement : Obligations.ResetLeavesEveryElement :=
  ⟨⟨⟨rfl, rfl, rfl, rfl⟩, ⟨rfl, rfl, rfl, rfl⟩, ⟨rfl, rfl, rfl, rfl, rfl, rfl⟩, ⟨rfl, rfl⟩⟩, fun _ => rfl, fun n s =>
    ⟨initialise_resetRegisters n s, fun _ ha => Memory.read_filter_lt s.cfg.memInit ha, rfl, rfl, rfl, rfl,
      fun h1 h2 => hostCall_initialise ⟨h1, h2⟩ s⟩⟩

theorem init_legal {c : Config} (hc : ConfigOk c) : LegalState (State.init c) :=
  .of_noFault rfl ⟨hc.size_pos, hc.size_le, hc.map_valid, hc.init_wf, List.nodup_nil, List.nodup_nil⟩
    (Memory.filter_wf hc.init_wf _) (Memory.filter_within _ _) nofun nofun nofun nofun nofun

theorem ConfigOk.default : ConfigOk Config.default where
  size_pos := by decide
  size_le := by decide
  map_valid := OpcodeMap.default_valid
  init_wf := by decide
  read_nodup := List.nodup_nil
  write_nodup := List.nodup_nil

/-- Settles O37: the initial state is legal under any admissible configuration, the default one too. -/
theorem resetIsLegal : Obligations.ResetIsLegal := ⟨init_legal ConfigOk.default, fun _ => init_legal⟩

theorem ConfigOk.with_memSize {c : Config} (hc : ConfigOk c) {n : Nat} (h : 1 ≤ n ∧ n ≤ 2 ^ 32) :
    ConfigOk { c with memSize := n } :=
  ⟨h.1, h.2, hc.map_valid, hc.init_wf, hc.read_nodup, hc.write_nodup⟩

theorem initialise_legal {n : Nat} (hn : 1 ≤ n ∧ n ≤ 2 ^ 32) {s : State} (h : ConfigOk s.cfg) : LegalState (initialise n s) :=
  (init_legal (h.with_memSize hn)).with_port s.draws s.devLog s.stallsAt

/-! ### set_run (40_microcycle R141) -/

theorem setRun_of_noFault {s : State} (hf : s.fault = .none) (v : Bool) : setRun v s = { s with run := v } := if_pos hf

theorem hostCall_setRun_of_noFault {s : State} (hf : s.fault = .none) (v : Bool) :
    hostCall (.setRun v) s = .next ({ s with run := v }, .ok) := by
  rw [hostCall, setRun_of_noFault hf, if_pos hf]

/-- Settles O54: set_run writes RUN and nothing else, and a machine with RUN clear is idle. -/
theorem setRunPausesAndContinues : Obligations.SetRunPausesAndContinues := by
  refine ⟨fun s v hf => hostCall_setRun_of_noFault hf v, fun s v hf => hostCall_setRun_of_fault hf v,
    fun s k hf hr => ⟨?_, ?_⟩, fun n s t hf ht => ?_⟩
  · rw [setRun_of_noFault hf]
    exact stepMicro_of_idle (idle_of_halted_or_faulted (.inl rfl)) k
  · rw [setRun_of_noFault hf, setRun_of_noFault (s := { s with run := false }) hf, ← hr]
  · rw [exec_hlt] at ht
    cases ht
    rw [setRun_of_noFault (by exact hf)]
    exact ⟨⟨rfl, hf, rfl⟩, rfl⟩

/-! ### Registration (60_exceptions R251) -/

/-- Settles O55: outside "before execution" both calls are refused; before it each adds an unbound address to its own table. -/
theorem registrationKeepsFirst : Obligations.RegistrationKeepsFirst := by
  refine ⟨fun a s h => ⟨?_, ?_⟩, fun a s h => ⟨fun ha => ?_, fun ha => ?_, fun ha => ?_, fun ha => ?_⟩⟩
  · rw [hostCall, registerRead, beforeExecutionOnly_refused h]
  · rw [hostCall, registerWrite, beforeExecutionOnly_refused h]
  · refine ⟨{ s with cfg := { s.cfg with readDev := a :: s.cfg.readDev } }, ?_, fun b => List.mem_cons, rfl, ?_⟩
    · rw [hostCall, registerRead, beforeExecutionOnly_admitted h]; simp [bindRead, ha]
    · rw [hostCall, registerRead, beforeExecutionOnly_admitted (by exact h)]; simp [bindRead]
  · rw [hostCall, registerRead, beforeExecutionOnly_admitted h]; simp [bindRead, ha]
  · refine ⟨{ s with cfg := { s.cfg with writeDev := a :: s.cfg.writeDev } }, ?_, fun b => List.mem_cons, rfl, ?_⟩
    · rw [hostCall, registerWrite, beforeExecutionOnly_admitted h]; simp [bindWrite, ha]
    · rw [hostCall, registerWrite, beforeExecutionOnly_admitted (by exact h)]; simp [bindWrite]
  · rw [hostCall, registerWrite, beforeExecutionOnly_admitted h]; simp [bindWrite, ha]

/-! ### Images (70_reset R264, R265) -/

theorem fits_iff {im : ProgramImage} {s : State} :
    im.fits s = true ↔ (∀ e ∈ im.writes, e.1 < s.cfg.memSize) ∧ im.entry = 0 := by
  simp [ProgramImage.fits]

theorem placeImage_of_fits {im : ProgramImage} {s : State} (h : im.fits s = true) : placeImage im s = (writeImage im s, .ok) :=
  if_pos h

/-- The memory after a list of writes in order. -/
def writeAll (m : List Cell) (ws : List (Nat × Word)) : List Cell := ws.foldl (fun m w => Memory.write m w.1 w.2) m

theorem writeAll_wf {m : List Cell} (hm : Memory.wf m) (ws : List (Nat × Word)) : Memory.wf (writeAll m ws) := by
  induction ws generalizing m with
  | nil => exact hm
  | cons w ws ih => exact ih (Memory.write_wf hm w.1 w.2)

theorem writeAll_within {m : List Cell} {n : Nat} (hm : Memory.within m n) {ws : List (Nat × Word)}
    (hws : ∀ w ∈ ws, w.1 < n) : Memory.within (writeAll m ws) n := by
  induction ws generalizing m with
  | nil => exact hm
  | cons w ws ih => exact ih (Memory.write_within hm (hws w (by simp))) fun v hv => hws v (by simp [hv])

/-- After writes in order an address reads as its last write, or as before. -/
theorem read_writeAll {m : List Cell} (hm : Memory.wf m) (ws : List (Nat × Word)) (a : Nat) :
    Memory.read (writeAll m ws) a =
      match ws.reverse.find? (fun e => e.1 = a) with
      | some e => e.2
      | none => Memory.read m a := by
  induction ws using List.reverseRecOn with
  | nil => rfl
  | append_singleton ws w ih =>
    have hwrite : writeAll m (ws ++ [w]) = Memory.write (writeAll m ws) w.1 w.2 := List.foldl_append ..
    rw [hwrite, List.reverse_append]
    by_cases ha : w.1 = a
    · subst ha
      simp [Memory.read_write_same _ (writeAll_wf hm ws)]
    · rw [Memory.read_write_other _ _ _ _ (Ne.symm ha), ih]
      simp [ha]

theorem hostCall_loadImage_of_fits {im : ProgramImage} {s : State} (hb : s.beforeExecution = true) (h : im.fits s = true) :
    hostCall (.loadImage im) s = .next (writeImage im s, .ok) := by
  rw [hostCall, loadImage, beforeExecutionOnly_admitted hb, placeImage_of_fits h]

/-- Settles O56: an image is placed as a whole or not at all, and its writes are in order. -/
theorem imageLoadsInOrder : Obligations.ImageLoadsInOrder := by
  refine ⟨fun im s h => ?_, fun im s hwf hb => ⟨fun h => ?_, fun hfit hentry => ?_⟩⟩
  · rw [hostCall, loadImage, beforeExecutionOnly_refused h]
  · have hnot : im.fits s = false := Bool.eq_false_iff.mpr fun hfits => by
      obtain ⟨hbelow, hentry⟩ := fits_iff.mp hfits
      rcases h with ⟨e, he, hle⟩ | hne
      · exact absurd (hbelow e he) hle.not_gt
      · exact hne hentry
    rw [hostCall, loadImage, beforeExecutionOnly_admitted hb, placeImage, hnot]; rfl
  · exact ⟨_, hostCall_loadImage_of_fits hb (fits_iff.mpr ⟨hfit, hentry⟩), rfl, read_writeAll hwf im.writes⟩

/-! ### Programs (30_encoding R108, R111) -/

theorem imageOf_append (ws : List Word) (w : Word) :
    (imageOf (ws ++ [w])).writes = (imageOf ws).writes ++ [(ws.length, w)] := by
  simp [imageOf, List.range_succ, List.zip_append]

theorem length_imageOf (ws : List Word) : (imageOf ws).writes.length = ws.length := by simp [imageOf]

theorem imageOf_fits {ws : List Word} {s : State} (h : ws.length ≤ s.cfg.memSize) : (imageOf ws).fits s = true := by
  refine fits_iff.mpr ⟨fun e he => ?_, rfl⟩
  have hmem := List.mem_range.mp (List.of_mem_zip he).1
  omega

/-- The n-th word of a program stands at address n. -/
theorem read_writeAll_imageOf {m : List Cell} (hm : Memory.wf m) (ws : List Word) (a : Nat) :
    Memory.read (writeAll m (imageOf ws).writes) a = if h : a < ws.length then ws[a] else Memory.read m a := by
  induction ws using List.reverseRecOn with
  | nil => rfl
  | append_singleton ws w ih =>
    have hwrite : writeAll m (imageOf (ws ++ [w])).writes =
        Memory.write (writeAll m (imageOf ws).writes) ws.length w := by
      rw [imageOf_append]; exact List.foldl_append ..
    rw [hwrite]
    by_cases ha : a = ws.length
    · subst ha
      rw [Memory.read_write_same _ (writeAll_wf hm _)]
      simp
    · rw [Memory.read_write_other _ _ _ _ ha, ih]
      by_cases hlt : a < ws.length
      · rw [dif_pos hlt, dif_pos (by simp; omega), List.getElem_append_left hlt]
      · rw [dif_neg hlt, dif_neg (by simp; omega)]

theorem hostCall_compile {src : Text} {s : State} (hb : s.beforeExecution = true) :
    hostCall (.compileFromText src) s = .next (placeCompiled (compileText s.cfg.opcodeMap src) s) := by
  rw [hostCall, loadCompiled, beforeExecutionOnly_admitted hb]

/-- Settles O57: the assembler's result is reported or placed, and a program's image is its words from address 0 on. -/
theorem programLoadsAtZero : Obligations.ProgramLoadsAtZero := by
  refine ⟨fun src s h => ?_, fun src s => rfl, fun src s hwf hb => ⟨fun e he => ?_, fun ws hws hlt => ?_, fun ws hws hle => ?_⟩⟩
  · rw [hostCall, loadCompiled, beforeExecutionOnly_refused h]
  all_goals rw [hostCall_compile hb, compileText]
  · rw [he]; rfl
  · simp [hws, placeCompiled, length_imageOf, hlt]
  · refine ⟨writeImage (imageOf ws) s, ?_, rfl, read_writeAll_imageOf hwf ws⟩
    have hnot : ¬s.cfg.memSize < ws.length := hle.not_gt
    simp [hws, placeCompiled, length_imageOf, hnot, placeImage_of_fits (imageOf_fits hle)]

end Sys2Proof.Machine

/-!
Free-run by its boundaries, what the calls at the host control port report, and the invariant of the legal states under every
host call (40_microcycle R131 to R142; 60_exceptions R235 to R252; 70_reset_and_hazards sections 1 and 2).
-/

namespace Sys2Proof.Machine

/-! ### Free-run by its boundaries (40_microcycle R135; 60_exceptions R237) -/

theorem atBreakpoint_iff (s : State) : s.atBreakpoint = true ↔ s.iar ∈ s.cfg.breakpoints := by
  simp [State.atBreakpoint]

/-- The reason a boundary gives to end, in the order of R237; breakpoints and stop requests count only after a step. -/
def endReason (t : State) (stepped stop : Bool) : StopReason :=
  if t.fault ≠ .none then .faulted
  else if t.run = false then .halted
  else if stepped = true ∧ t.atBreakpoint = true then .breakpoint
  else if stepped = true ∧ stop = true then .stopped
  else .stillRunning

section
variable {t : State} {stepped stop : Bool}

theorem endReason_eq_faulted_iff : endReason t stepped stop = .faulted ↔ t.fault ≠ .none := by
  unfold endReason; split_ifs <;> simp [*]

theorem endReason_eq_halted_iff : endReason t stepped stop = .halted ↔ t.fault = .none ∧ t.run = false := by
  unfold endReason; split_ifs <;> simp_all

theorem endReason_eq_breakpoint_iff :
    endReason t stepped stop = .breakpoint ↔
      t.fault = .none ∧ t.run = true ∧ stepped = true ∧ t.iar ∈ t.cfg.breakpoints := by
  rw [← atBreakpoint_iff]; unfold endReason; split_ifs <;> simp_all

theorem endReason_eq_stopped_iff :
    endReason t stepped stop = .stopped ↔
      t.fault = .none ∧ t.run = true ∧ stepped = true ∧ t.iar ∉ t.cfg.breakpoints ∧ stop = true := by
  rw [← atBreakpoint_iff]; unfold endReason; split_ifs <;> simp_all

theorem endReason_eq_stillRunning_iff :
    endReason t stepped stop = .stillRunning ↔
      t.fault = .none ∧ t.run = true ∧ (stepped = true → t.iar ∉ t.cfg.breakpoints ∧ stop = false) := by
  rw [← atBreakpoint_iff]; unfold endReason; split_ifs <;> simp_all

end

/-- A boundary that free-run passes: the machine runs, at no breakpoint, and no stop was requested. -/
structure PassesBoundary (t : State) (stop : Bool) : Prop where
  fault : t.fault = .none
  run : t.run = true
  breakpoint : t.iar ∉ t.cfg.breakpoints
  stop : stop = false

theorem PassesBoundary.endReason {t : State} {stop : Bool} (h : PassesBoundary t stop) {stepped stop' : Bool}
    (hstop : stepped = true → stop' = stop) : endReason t stepped stop' = .stillRunning :=
  endReason_eq_stillRunning_iff.mpr ⟨h.fault, h.run, fun hs => ⟨h.breakpoint, (hstop hs).trans h.stop⟩⟩

/-- Free-run from `s` ended at `t` for the reason `r`, after `k` instruction steps. -/
structure FreeRunEnds (fuel : Nat) (stops : List Bool) (s t : State) (r : StopReason) (k : Nat) : Prop where
  bound : k ≤ fuel
  ends : stepInstructions k s = .next t
  idle : s.run = false ∨ s.fault ≠ .none → k = 0
  progress : s.run = true → s.fault = .none → 0 < fuel → 0 < k
  passes : ∀ j u, 0 < j → j < k → stepInstructions j s = .next u → PassesBoundary u (stops.getD (j - 1) false)
  reason : r = endReason t (decide (0 < k)) (stops.getD (k - 1) false)
  ranOut : r = .stillRunning → k = fuel

section
variable {fuel : Nat} {stops : List Bool} {s t : State}

/-- Free-run that makes no step: on an idle machine, or without a bound left. -/
theorem FreeRunEnds.no_step {r : StopReason} (hr : r = endReason s false (stops.getD 0 false))
    (hrun : s.idle = true ∨ fuel = 0) (hout : r = .stillRunning → fuel = 0) : FreeRunEnds fuel stops s s r 0 where
  bound := Nat.zero_le _
  ends := rfl
  idle := fun _ => rfl
  progress := fun hs hf hpos => by
    rcases hrun with hid | rfl
    · simp [idle_eq_false hs hf] at hid
    · exact hpos
  passes := fun j _ hpos hlt => absurd hlt (by omega)
  reason := hr
  ranOut := fun h => (hout h).symm

/-- Free-run that ends at the boundary after its first step. -/
theorem FreeRunEnds.one_step {r : StopReason} (hf : s.fault = .none) (hrun : s.run = true) (hs : step s = .next t)
    (hr : r = endReason t true (stops.getD 0 false)) (hout : r ≠ .stillRunning) : FreeRunEnds (fuel + 1) stops s t r 1 where
  bound := by omega
  ends := repeatStep_one.trans hs
  idle := fun h => by simp [hf, hrun] at h
  progress := fun _ _ _ => Nat.one_pos
  passes := fun j _ hpos hlt => absurd hlt (by omega)
  reason := hr
  ranOut := fun h => absurd h hout

theorem getD_tail (stops : List Bool) (k : Nat) : stops.tail.getD k false = stops.getD (k + 1) false := by
  cases stops <;> simp

/-- Free-run that passes the boundary after its first step and goes on. -/
theorem FreeRunEnds.more {u : State} {r : StopReason} {k : Nat} (hf : s.fault = .none) (hrun : s.run = true)
    (hs : step s = .next t) (hpass : PassesBoundary t (stops.getD 0 false)) (h : FreeRunEnds fuel stops.tail t u r k) :
    FreeRunEnds (fuel + 1) stops s u r (k + 1) where
  bound := Nat.succ_le_succ h.bound
  ends := (repeatStep_succ_of_next hs k).trans h.ends
  idle := fun h => by simp [hf, hrun] at h
  progress := fun _ _ _ => Nat.succ_pos k
  passes := fun j v hpos hlt hv => by
    obtain ⟨j, rfl⟩ := Nat.exists_eq_succ_of_ne_zero hpos.ne'
    have hv' : stepInstructions j t = .next v := (repeatStep_succ_of_next hs j).symm.trans hv
    cases j with
    | zero => cases hv'; exact hpass
    | succ j => exact getD_tail stops j ▸ h.passes (j + 1) v (Nat.succ_pos j) (by omega) hv'
  reason := by
    rw [h.reason]
    cases k with
    | zero =>
      obtain rfl : t = u := by simpa [stepInstructions, repeatStep] using h.ends
      exact (hpass.endReason (by simp)).trans (hpass.endReason fun _ => rfl).symm
    | succ k => rw [Nat.add_sub_cancel, Nat.add_sub_cancel, getD_tail]; rfl
  ranOut := fun hr => by rw [h.ranOut hr]

/-- Free-run is some number of instruction steps, by induction on its bound. -/
theorem exists_freeRunEnds {r : StopReason} (h : freeRun fuel stops s = .next (t, r)) :
    ∃ k, FreeRunEnds fuel stops s t r k := by
  have hhead : ∀ l : List Bool, l.headD false = l.getD 0 false := fun l => by cases l <;> rfl
  fun_induction freeRun fuel stops s
  case case1 hf => -- faulted at the start
    cases h
    exact ⟨0, .no_step (endReason_eq_faulted_iff.mpr hf).symm (.inl (idle_of_fault hf)) nofun⟩
  case case2 hf hr => -- halted at the start
    cases h
    have hrun : t.run = false := by simpa using hr
    exact ⟨0, .no_step (endReason_eq_halted_iff.mpr ⟨not_not.mp hf, hrun⟩).symm
      (.inl (idle_of_halted_or_faulted (.inl hrun))) nofun⟩
  case case3 hf hr => -- no step left
    cases h
    exact ⟨0, .no_step (endReason_eq_stillRunning_iff.mpr ⟨not_not.mp hf, by simpa using hr, by simp⟩).symm
      (.inr rfl) fun _ => rfl⟩
  case case4 | case5 => cases h -- the step does not answer
  case case6 hf hr _ _ hs hft => -- faulted after a step
    cases h
    exact ⟨1, .one_step (not_not.mp hf) (by simpa using hr) hs (endReason_eq_faulted_iff.mpr hft).symm nofun⟩
  case case7 hf hr _ _ hs hft hrt => -- halted after a step
    cases h
    exact ⟨1, .one_step (not_not.mp hf) (by simpa using hr) hs
      (endReason_eq_halted_iff.mpr ⟨not_not.mp hft, by simpa using hrt⟩).symm nofun⟩
  case case8 hf hr _ _ hs hft hrt hb => -- a breakpoint after a step
    cases h
    exact ⟨1, .one_step (not_not.mp hf) (by simpa using hr) hs
      (endReason_eq_breakpoint_iff.mpr ⟨not_not.mp hft, by simpa using hrt, rfl, (atBreakpoint_iff _).mp hb⟩).symm nofun⟩
  case case9 hf hr _ _ hs hft hrt hb hq => -- a stop request after a step
    cases h
    exact ⟨1, .one_step (not_not.mp hf) (by simpa using hr) hs
      (endReason_eq_stopped_iff.mpr
        ⟨not_not.mp hft, by simpa using hrt, rfl, mt (atBreakpoint_iff _).mpr hb, by rwa [← hhead]⟩).symm nofun⟩
  case case10 hf hr _ _ hs hft hrt hb hq ih => -- a boundary free-run passes
    obtain ⟨k, hk⟩ := ih h
    exact ⟨k + 1, hk.more (not_not.mp hf) (by simpa using hr) hs
      ⟨not_not.mp hft, by simpa using hrt, mt (atBreakpoint_iff _).mpr hb, by rw [← hhead]; simpa using hq⟩⟩

end

/-- Settles O19: free-run's boundaries, and what its reason says of the last one. -/
theorem freeRunStops : Obligations.FreeRunStops := by
  intro fuel stops s t r h
  obtain ⟨k, hk⟩ := exists_freeRunEnds h
  have hreason := hk.reason
  refine ⟨k, hk.bound, hk.ends, hk.idle, hk.progress, fun j u hpos hlt hu => ?_, hreason ▸ endReason_eq_faulted_iff,
    hreason ▸ endReason_eq_halted_iff, ?_, ?_, fun hr => ?_⟩
  · have hpass := hk.passes j u hpos hlt hu
    exact ⟨hpass.fault, hpass.run, hpass.breakpoint, hpass.stop⟩
  · rw [hreason, endReason_eq_breakpoint_iff, decide_eq_true_iff]
  · rw [hreason, endReason_eq_stopped_iff, decide_eq_true_iff]
  · obtain ⟨hf, hrun, hpassed⟩ := endReason_eq_stillRunning_iff.mp (hreason ▸ hr)
    exact ⟨hf, hrun, hk.ranOut hr, fun hpos => hpassed (decide_eq_true hpos)⟩

/-! ### What the calls report (40_microcycle R142) -/

theorem reportStep_next {o : Host.Outcome State Fault Refusal} {t : State} (h : o = .next t) :
    reportStep o = .next (t, .stepped t.fault t.faultInfo) := by
  subst h; rfl

theorem reportRun_next {o : Host.Outcome (State × StopReason) Fault Refusal} {t : State} {r : StopReason}
    (h : o = .next (t, r)) : reportRun o = .next (t, .returned r t.fault t.faultInfo) := by
  subst h; rfl

/-- Settles O40: the reports of the stepping calls, run as free-run after set_run, and the lifecycle around the calls. -/
theorem hostCallsReport : Obligations.HostCallsReport := by
  refine ⟨fun s t h => reportStep_next h, fun s t h => reportStep_next h, fun k s t h => reportStep_next h,
    fun k s t h => reportStep_next h, fun fuel stops s t r h => reportRun_next h, fun fuel stops s hf => ?_,
    fun fuel stops s hf => reportRun_next (runFree_of_fault hf fuel stops), fun s => ?_, fun s => rfl, fun as s => rfl,
    fun n s hn => hostCall_initialise_refused hn s, fun c s t r h => portCall_next h, fun c s e h => portCall_fault h,
    portCall_teardown, portCall_released⟩
  · rw [hostCall, hostCall, runFree, setRun_of_noFault hf]
  · have hquery : s.atBreakpoint = decide (s.iar ∈ s.cfg.breakpoints) := by
      rw [Bool.eq_iff_iff, atBreakpoint_iff, decide_eq_true_iff]
    rw [hostCall, hquery]

/-! ### The invariant under the host calls (60_exceptions R252) -/

namespace LegalState
variable {s : State} (h : LegalState s)
include h

/-- A new configuration with the same MEM_SIZE and opcode map keeps the invariant. -/
theorem with_cfg {c : Config} (hc : ConfigOk c) (hsize : c.memSize = s.cfg.memSize) (hmap : c.opcodeMap = s.cfg.opcodeMap) :
    LegalState { s with cfg := c } where
  cfg_ok := hc
  mem_wf := h.mem_wf
  mem_within := hsize ▸ h.mem_within
  ci_wf := h.ci_wf
  active := by rw [hmap]; exact h.active
  addressed := h.addressed
  staged := h.staged
  latched := h.latched
  halted := h.halted
  illegal := by rw [hmap]; exact h.illegal
  bounds := by rw [State.legal, hsize]; exact h.bounds

theorem with_breakpoints (as : List Word) : LegalState { s with cfg := { s.cfg with breakpoints := as } } :=
  have hc := h.cfg_ok
  h.with_cfg ⟨hc.size_pos, hc.size_le, hc.map_valid, hc.init_wf, hc.read_nodup, hc.write_nodup⟩ rfl rfl

theorem bindRead (a : Word) : LegalState (bindRead a s).1 := by
  have hc := h.cfg_ok
  rcases bindRead_cases a s with ⟨-, e⟩ | ⟨hnew, e⟩ <;> rw [e]
  · exact h
  · exact h.with_cfg ⟨hc.size_pos, hc.size_le, hc.map_valid, hc.init_wf, hc.read_nodup.cons hnew, hc.write_nodup⟩ rfl rfl

theorem bindWrite (a : Word) : LegalState (bindWrite a s).1 := by
  have hc := h.cfg_ok
  rcases bindWrite_cases a s with ⟨-, e⟩ | ⟨hnew, e⟩ <;> rw [e]
  · exact h
  · exact h.with_cfg ⟨hc.size_pos, hc.size_le, hc.map_valid, hc.init_wf, hc.read_nodup, hc.write_nodup.cons hnew⟩ rfl rfl

/-- Without a fault the invariant does not read RUN. -/
theorem with_run (hf : s.fault = .none) (v : Bool) : LegalState { s with run := v } :=
  of_noFault hf h.cfg_ok h.mem_wf h.mem_within h.ci_wf h.active h.addressed h.staged h.latched

theorem setRun (v : Bool) : LegalState (setRun v s) := by
  by_cases hf : s.fault = .none
  · rw [setRun_of_noFault hf]; exact h.with_run hf v
  · rw [setRun_of_fault hf]; exact h

theorem writeImage {im : ProgramImage} (hfits : im.fits s = true) : LegalState (writeImage im s) where
  cfg_ok := h.cfg_ok
  mem_wf := writeAll_wf h.mem_wf _
  mem_within := writeAll_within h.mem_within (fits_iff.mp hfits).1
  ci_wf := h.ci_wf
  active := h.active
  addressed := h.addressed
  staged := h.staged
  latched := h.latched
  halted := h.halted
  illegal := h.illegal
  bounds := h.bounds

theorem placeImage (im : ProgramImage) : LegalState (placeImage im s).1 := by
  rcases placeImage_cases im s with ⟨hfits, e⟩ | ⟨-, e⟩ <;> rw [e]
  · exact h.writeImage hfits
  · exact h

theorem placeCompiled (r : Except AsmError ProgramImage) : LegalState (placeCompiled r s).1 := by
  rcases placeCompiled_state r s with e | ⟨im, hfits, e⟩ <;> rw [e]
  · exact h
  · exact h.writeImage hfits

/-- A call that only a fresh machine admits, and that keeps the invariant, leaves a legal state and makes none fresh. -/
theorem beforeExecutionOnly {call : State → State × HostReply} (hcall : LegalState (call s).1) :
    LegalState (beforeExecutionOnly call s).1 ∧ ((beforeExecutionOnly call s).1.fresh = true → s.fresh = true) := by
  rcases beforeExecutionOnly_cases call s with ⟨hb, e⟩ | ⟨-, e⟩ <;> rw [e]
  · exact ⟨hcall, fun _ => ((beforeExecution_iff s).mp hb).1⟩
  · exact ⟨h, id⟩

end LegalState

/-! ### Free-run from a legal state -/

namespace LegalFrom
variable {s u t : State}

theorem stepMicro (h : LegalFrom s u) {k : Nat} (hm : stepMicro k u = .next t) : LegalFrom s t :=
  repeatStep_keeps (fun _ _ => microStep) hm h

theorem stepInstructions (h : LegalFrom s u) {k : Nat} (hm : stepInstructions k u = .next t) : LegalFrom s t :=
  repeatStep_keeps (fun _ _ => step) hm h

theorem stepInstructions_endsWell (h : LegalFrom s u) (k : Nat) : EndsWell s (Machine.stepInstructions k u) :=
  repeatStep_endsWell (fun _ _ => step) (fun _ => step_endsWell) k h

theorem freeRun (h : LegalFrom s u) {fuel : Nat} {stops : List Bool} {r : StopReason}
    (hm : freeRun fuel stops u = .next (t, r)) : LegalFrom s t := by
  obtain ⟨k, hk⟩ := exists_freeRunEnds hm
  exact h.stepInstructions hk.ends

theorem setRun (h : LegalFrom s u) (v : Bool) : LegalFrom s (setRun v u) := by
  refine ⟨h.legal.setRun v, ?_, ?_⟩ <;> by_cases hf : u.fault = .none
  · rw [setRun_of_noFault hf]; exact h.returns
  · rw [setRun_of_fault hf]; exact h.returns
  · rw [setRun_of_noFault hf]; exact h.fresh
  · rw [setRun_of_fault hf]; exact h.fresh

/-- Free-run ends well: each of its steps does, and its bound ends it. -/
theorem freeRun_endsWell (h : LegalFrom s u) (fuel : Nat) (stops : List Bool) :
    EndsWell s (Machine.freeRun fuel stops u) := by
  fun_induction Machine.freeRun fuel stops u
  case case4 e he => -- the step hangs
    rcases h.step_endsWell with ⟨v, hv⟩ | ⟨hn, hv⟩
    · rw [he] at hv; cases hv
    · rw [he] at hv; cases hv; exact .inr ⟨hn, rfl⟩
  case case5 e he => -- no step is refused
    rcases h.step_endsWell with ⟨v, hv⟩ | ⟨-, hv⟩ <;> rw [he] at hv <;> cases hv
  case case10 hs _ _ _ _ ih => exact ih (h.step hs) -- a boundary free-run passes
  all_goals exact .of_next rfl -- free-run ends here

end LegalFrom

/-! ### Every host call -/

theorem reportStep_eq_next {o : Host.Outcome State Fault Refusal} {t : State} {r : HostReply}
    (h : reportStep o = .next (t, r)) : o = .next t := by
  cases o <;> cases h; rfl

theorem reportRun_eq_next {o : Host.Outcome (State × StopReason) Fault Refusal} {t : State} {r : HostReply}
    (h : reportRun o = .next (t, r)) : ∃ r', o = .next (t, r') := by
  cases o <;> cases h; exact ⟨_, rfl⟩

theorem EndsWell.reportStep {s : State} {o : Host.Outcome State Fault Refusal} (h : EndsWell s o) :
    EndsWell s (reportStep o) := by
  rcases h with ⟨t, rfl⟩ | ⟨hn, rfl⟩
  · exact .of_next rfl
  · exact .inr ⟨hn, rfl⟩

theorem EndsWell.reportRun {s : State} {o : Host.Outcome (State × StopReason) Fault Refusal} (h : EndsWell s o) :
    EndsWell s (reportRun o) := by
  rcases h with ⟨t, rfl⟩ | ⟨hn, rfl⟩
  · exact .of_next rfl
  · exact .inr ⟨hn, rfl⟩

theorem hostCall_endsWell {s : State} (hs : LegalState s) (c : HostCall) : EndsWell s (hostCall c s) := by
  have hfrom := LegalFrom.refl hs
  cases c with
  | microStep => exact hfrom.microStep_endsWell.reportStep
  | instructionStep => exact hfrom.step_endsWell.reportStep
  | stepMicro k => exact (hfrom.stepMicro_endsWell k).reportStep
  | stepInstructions k => exact (hfrom.stepInstructions_endsWell k).reportStep
  | freeRun fuel stops => exact (hfrom.freeRun_endsWell fuel stops).reportRun
  | run fuel stops => exact ((hfrom.setRun true).freeRun_endsWell fuel stops).reportRun
  | initialise n =>
    by_cases hn : 1 ≤ n ∧ n ≤ 2 ^ 32
    · exact .of_next (hostCall_initialise hn s)
    · exact .of_next (hostCall_initialise_refused hn s)
  | compileFromText | compileFromFile | loadImage | registerRead | registerWrite | setBreakpoints | setRun | queryBreakpoint
    | inspect | callbackStalls => exact .of_next rfl

/-- Every host call keeps the invariant, and only initialise makes a machine fresh. -/
theorem hostCall_legal {s t : State} {c : HostCall} {r : HostReply} (hs : LegalState s) (h : hostCall c s = .next (t, r)) :
    LegalState t ∧ ((∀ n, c ≠ .initialise n) → t.fresh = true → s.fresh = true) := by
  have hfrom := LegalFrom.refl hs
  have of_legalFrom : LegalFrom s t →
      LegalState t ∧ ((∀ n, c ≠ .initialise n) → t.fresh = true → s.fresh = true) := fun h => ⟨h.legal, fun _ => h.fresh⟩
  have of_guarded {p : State × HostReply} (hp : LegalState p.1 ∧ (p.1.fresh = true → s.fresh = true)) (e : p = (t, r)) :
      LegalState t ∧ ((∀ n, c ≠ .initialise n) → t.fresh = true → s.fresh = true) := by
    subst e; exact ⟨hp.1, fun _ => hp.2⟩
  cases c with
  | initialise n =>
    refine ⟨?_, fun hne => absurd rfl (hne n)⟩
    by_cases hn : 1 ≤ n ∧ n ≤ 2 ^ 32
    · rw [hostCall_initialise hn] at h; cases h; exact initialise_legal hn hs.cfg_ok
    · rw [hostCall_initialise_refused hn] at h; cases h; exact hs
  | compileFromText | compileFromFile =>
    exact of_guarded (hs.beforeExecutionOnly (hs.placeCompiled _)) (Host.Outcome.next.inj h)
  | loadImage im => exact of_guarded (hs.beforeExecutionOnly (hs.placeImage im)) (Host.Outcome.next.inj h)
  | registerRead a => exact of_guarded (hs.beforeExecutionOnly (hs.bindRead a)) (Host.Outcome.next.inj h)
  | registerWrite a => exact of_guarded (hs.beforeExecutionOnly (hs.bindWrite a)) (Host.Outcome.next.inj h)
  | setBreakpoints as => cases h; exact ⟨hs.with_breakpoints as, fun _ => id⟩
  | callbackStalls n => cases h; exact ⟨hs.with_port s.draws s.devLog n, fun _ => id⟩
  | queryBreakpoint | inspect => cases h; exact of_legalFrom hfrom
  | setRun v => cases h; exact of_legalFrom (hfrom.setRun v)
  | microStep => exact of_legalFrom (hfrom.microStep (reportStep_eq_next h))
  | instructionStep => exact of_legalFrom (hfrom.step (reportStep_eq_next h))
  | stepMicro k => exact of_legalFrom (hfrom.stepMicro (reportStep_eq_next h))
  | stepInstructions k => exact of_legalFrom (hfrom.stepInstructions (reportStep_eq_next h))
  | freeRun fuel stops =>
    obtain ⟨r', hr⟩ := reportRun_eq_next h
    exact of_legalFrom (hfrom.freeRun hr)
  | run fuel stops =>
    obtain ⟨r', hr⟩ := reportRun_eq_next h
    exact of_legalFrom ((hfrom.setRun true).freeRun hr)

/-- Settles O39: what a call keeps and how it ends, call by call. -/
theorem hostCallsKeepLegalStates : Obligations.HostCallsKeepLegalStates := by
  intro s c hs
  have hend := hostCall_endsWell hs c
  refine ⟨fun t r h => hostCall_legal hs h, ?_, fun hc => ?_⟩
  · exact hend.answers_or_hangs.imp_left fun ⟨a, ha⟩ => ⟨a.1, a.2, ha⟩
  · obtain ⟨a, ha⟩ := hend.answers hc
    exact ⟨a.1, a.2, ha⟩

end Sys2Proof.Machine

/-!
Two machines side by side: what one does the other does too, when they differ only in registers no rule reads before writing;
from this, the statements on the scratch registers and on the stale registers at an instruction boundary (10_state R41;
70_reset_and_hazards R267).
-/

namespace Sys2Proof.Machine

/-! ### Operations that keep a relation between two machines -/

/-- Whenever `f` answers on the first of two related states it answers on the second, and the answers are related. -/
def Simulates (R : State → State → Prop) (f : State → Host.Outcome State Fault Refusal) : Prop :=
  ∀ s t, R s t → ∀ s', f s = .next s' → ∃ t', f t = .next t' ∧ R s' t'

/-- Transfers that end alike: related states, or the same stop. -/
inductive EndAlike (R : State → State → Prop) : Micro → Micro → Prop
  | done {s t : State} (h : R s t) : EndAlike R (.done s) (.done t)
  | raised {s t : State} (h : R s t) : EndAlike R (.raised s) (.raised t)
  | stuck (e : Fault) : EndAlike R (.stuck e) (.stuck e)

section
variable {R : State → State → Prop}

theorem EndAlike.andThen {m n : Micro} {f g : State → Micro} (h : EndAlike R m n)
    (hfg : ∀ u v, R u v → EndAlike R (f u) (g v)) : EndAlike R (m.andThen f) (n.andThen g) := by
  cases h with
  | done h => exact hfg _ _ h
  | raised h => exact .raised h
  | stuck e => exact .stuck e

theorem EndAlike.finish {m n : Micro} {p : MicroPos} (h : EndAlike R m n)
    (huc : ∀ u v, R u v → R { u with uc := p } { v with uc := p }) {s' : State} (hs : m.finish p = .next s') :
    ∃ t', n.finish p = .next t' ∧ R s' t' := by
  cases h with
  | done h => cases hs; exact ⟨_, rfl, huc _ _ h⟩
  | raised h => cases hs; exact ⟨_, rfl, h⟩
  | stuck e => cases hs

theorem Simulates.repeatStep {f : State → Host.Outcome State Fault Refusal} (hf : Simulates R f) (k : Nat) :
    Simulates R (repeatStep f k) := by
  induction k with
  | zero => intro s t h s' hs; cases hs; exact ⟨t, rfl, h⟩
  | succ k ih =>
    intro s t h s' hs
    cases hu : f s with
    | next u =>
      obtain ⟨v, hv, huv⟩ := hf s t h u hu
      rw [repeatStep_succ_of_next hu] at hs
      obtain ⟨t', ht, hst⟩ := ih u v huv s' hs
      exact ⟨t', (repeatStep_succ_of_next hv k).trans ht, hst⟩
    | fault e | refused e => simp [Machine.repeatStep, hu] at hs

theorem SameProgramView.idle {s t : State} (h : SameProgramView s t) : s.idle = t.idle := by
  simp [State.idle, h.fault, h.run]

theorem SameProgramView.stepEnded {s t : State} (h : SameProgramView s t) : s.stepEnded = t.stepEnded := by
  simp [State.stepEnded, h.idle, h.uc]

/-- R132's loop runs in step on two machines that a program cannot tell apart. -/
theorem Simulates.untilWrap (hview : ∀ s t, R s t → SameProgramView s t) (hm : Simulates R microStep) (k : Nat) :
    Simulates R (untilWrap k) := by
  induction k with
  | zero => intro s t h s' hs; cases hs; exact ⟨t, rfl, h⟩
  | succ k ih =>
    intro s t h s' hs
    cases hu : microStep s with
    | next u =>
      obtain ⟨v, hv, huv⟩ := hm s t h u hu
      have hended := (hview u v huv).stepEnded
      simp only [Machine.untilWrap, hu] at hs
      simp only [Machine.untilWrap, hv, ← hended]
      by_cases hend : u.stepEnded = true
      · rw [if_pos hend] at hs ⊢; cases hs; exact ⟨v, rfl, huv⟩
      · rw [if_neg hend] at hs ⊢; exact ih u v huv s' hs
    | fault e | refused e => simp [Machine.untilWrap, hu] at hs

theorem Simulates.step (hview : ∀ s t, R s t → SameProgramView s t) (hm : Simulates R microStep) : Simulates R step := by
  intro s t h s' hs
  rw [step_eq_instructionStep, instructionStep] at hs ⊢
  rw [← (hview s t h).idle]
  by_cases hid : s.idle = true
  · rw [if_pos hid] at hs ⊢; cases hs; exact ⟨t, rfl, h⟩
  · rw [if_neg hid] at hs ⊢; exact Simulates.untilWrap hview hm 5 s t h s' hs

end

/-! ### One access on two machines (20_memory R56, R57) -/

/-- What a memory access reads of the state: SAR, the configuration, memory and the device port. -/
structure SameAccess (s t : State) : Prop where
  sar : t.sar = s.sar
  cfg : t.cfg = s.cfg
  mem : t.mem = s.mem
  draws : t.draws = s.draws
  devLog : t.devLog = s.devLog
  stallsAt : t.stallsAt = s.stallsAt

/-- MemRead writes the same word and device port on all states that agree in what it reads, or raises, or hangs, on all. -/
theorem memRead_uniform (b : Bool) (s : State) :
    (∃ v d l, ∀ t, SameAccess s t → memRead b t = .done { t with sir := v, draws := d, devLog := l }) ∨
    (∀ t, SameAccess s t → memRead b t = .stuck .callbackNeverReturns) ∨
    (∀ t, SameAccess s t → memRead b t = .raised (afterBoundsFault t)) := by
  have hlegal {t : State} (h : SameAccess s t) : t.legal t.sar = s.legal s.sar := by rw [h.sar, legal_congr h.cfg]
  have hdevice {t : State} (h : SameAccess s t) : t.readsDevice b t.sar = s.readsDevice b s.sar := by
    rw [h.sar, readsDevice_congr h.cfg]
  have hreturns {t : State} (h : SameAccess s t) : t.callbackReturns = s.callbackReturns := by
    simp [State.callbackReturns, h.draws, h.stallsAt]
  rcases memRead_cases b s with ⟨hl, hd, -⟩ | ⟨hl, hd, hc, -⟩ | ⟨hl, hd, hc, -⟩ | ⟨hl, -⟩
  · refine .inl ⟨Memory.read s.mem s.sar.toNat, s.draws, s.devLog, fun t h => ?_⟩
    rw [memRead_plain ((hlegal h).trans hl) ((hdevice h).trans hd), h.mem, h.sar, ← h.draws, ← h.devLog]
  · refine .inl ⟨s.nextDraw, s.draws + 1, s.devLog ++ [.read s.sar s.nextDraw], fun t h => ?_⟩
    rw [memRead_device ((hlegal h).trans hl) ((hdevice h).trans hd) ((hreturns h).trans hc), deviceRead, State.nextDraw,
      State.nextDraw, h.draws, h.devLog, h.sar]
  · exact .inr (.inl fun t h => memRead_stalls ((hlegal h).trans hl) ((hdevice h).trans hd) ((hreturns h).trans hc))
  · exact .inr (.inr fun t h => memRead_outOfBounds ((hlegal h).trans hl))

/-! ### States that differ only in X, Y, Z and TRA (10_state R41) -/

namespace SameButScratch
variable {s t : State}

theorem of_eqs (hview : SameProgramView s t) (hsar : s.sar = t.sar) (hsir : s.sir = t.sir) (hir : s.ir = t.ir)
    (hci : s.ci = t.ci) (haluop : s.aluop = t.aluop) : SameButScratch s t := by
  obtain ⟨acc, iar, run, mem, fault, faultInfo, uc, cfg, draws, devLog, stallsAt⟩ := hview
  cases s; cases t
  simp only [SameButScratch, State.mk.injEq]
  exact ⟨acc.symm, trivial, trivial, trivial, haluop.symm, iar.symm, hir.symm, hci.symm, run.symm, trivial, uc.symm, hsar.symm, hsir.symm,
    mem.symm, fault.symm, faultInfo.symm, cfg.symm, draws.symm, devLog.symm, stallsAt.symm⟩

theorem exists_eq (h : SameButScratch s t) : ∃ x y z tra, t = { s with x := x, y := y, z := z, tra := tra } :=
  ⟨_, _, _, _, h⟩

theorem view (h : SameButScratch s t) : SameProgramView s t := by
  obtain ⟨x, y, z, tra, rfl⟩ := h.exists_eq
  exact ⟨rfl, rfl, rfl, rfl, rfl, rfl, rfl, rfl, rfl, rfl, rfl⟩

theorem with_uc (h : SameButScratch s t) (u : MicroPos) : SameButScratch { s with uc := u } { t with uc := u } := by
  obtain ⟨x, y, z, tra, rfl⟩ := h.exists_eq; rfl

theorem memRead (h : SameButScratch s t) (b : Bool) : EndAlike SameButScratch (memRead b s) (memRead b t) := by
  obtain ⟨x, y, z, tra, rfl⟩ := h.exists_eq
  have hs : SameAccess s s := ⟨rfl, rfl, rfl, rfl, rfl, rfl⟩
  have ht : SameAccess s { s with x := x, y := y, z := z, tra := tra } := ⟨rfl, rfl, rfl, rfl, rfl, rfl⟩
  rcases memRead_uniform b s with ⟨v, d, l, hread⟩ | hread | hread <;> rw [hread s hs, hread _ ht]
  · exact .done rfl
  · exact .stuck _
  · exact .raised rfl

theorem memWrite (h : SameButScratch s t) : EndAlike SameButScratch (memWrite s) (memWrite t) := by
  obtain ⟨x, y, z, tra, rfl⟩ := h.exists_eq
  rcases memWrite_cases s with ⟨hl, hd, e⟩ | ⟨hl, hd, hc, e⟩ | ⟨hl, hd, hc, e⟩ | ⟨hl, e⟩ <;> rw [e]
  · rw [memWrite_plain (by exact hl) (by exact hd)]; exact .done rfl
  · rw [memWrite_device (by exact hl) (by exact hd) (by exact hc)]; exact .done rfl
  · rw [memWrite_stalls (by exact hl) (by exact hd) (by exact hc)]; exact .stuck _
  · rw [memWrite_outOfBounds (by exact hl)]; exact .raised rfl

theorem fetchData (h : SameButScratch s t) : EndAlike SameButScratch (fetchData s) (fetchData t) := by
  refine (h.memRead true).andThen fun u v huv => .done ?_
  obtain ⟨x, y, z, tra, rfl⟩ := huv.exists_eq; rfl

theorem operandDirect (h : SameButScratch s t) (a : Word) :
    EndAlike SameButScratch (operandDirect a s) (operandDirect a t) := by
  refine memRead (s := { s with sar := a }) (t := { t with sar := a }) ?_ false
  obtain ⟨x, y, z, tra, rfl⟩ := h.exists_eq; rfl

theorem operandPhase (h : SameButScratch s t) (i : Instr) : EndAlike SameButScratch (operandPhase i s) (operandPhase i t) := by
  cases i with
  | ldiv p =>
    refine (h.operandDirect p).andThen fun u v huv => ?_
    have hsir : v.sir = u.sir := by obtain ⟨x, y, z, tra, rfl⟩ := huv.exists_eq; rfl
    change EndAlike _ (Machine.operandDirect u.sir u) (Machine.operandDirect v.sir v)
    rw [hsir]
    exact huv.operandDirect u.sir
  | add | and | or | xor | eql | ldv => exact h.operandDirect _
  | ldc | stv | jmp | jmn | hlt | not | rar | rrn =>
    obtain ⟨x, y, z, tra, rfl⟩ := h.exists_eq; exact .done rfl

theorem executeAlu (h : SameButScratch s t) : EndAlike SameButScratch (executeAlu s) (executeAlu t) := by
  obtain ⟨x, y, z, tra, rfl⟩ := h.exists_eq
  cases ha : alu s.aluop s.acc s.sir with
  | some v =>
    rw [executeAlu_of_alu ha, executeAlu_of_alu (v := v) (by exact ha)]
    exact .done rfl
  | none =>
    simp only [Machine.executeAlu, ha]
    exact .stuck _

theorem executePhase (h : SameButScratch s t) (i : Instr) : EndAlike SameButScratch (executePhase i s) (executePhase i t) := by
  cases i with
  | add | and | or | xor | eql => exact h.executeAlu
  | stv a =>
    refine memWrite (s := { s with sir := s.acc }) (t := { t with sir := t.acc }) ?_
    obtain ⟨x, y, z, tra, rfl⟩ := h.exists_eq; rfl
  | jmn a =>
    obtain ⟨x, y, z, tra, rfl⟩ := h.exists_eq
    refine .done ?_
    change SameButScratch (if s.negative then _ else _) (if s.negative then _ else _)
    split <;> rfl
  | ldc | ldv | jmp | ldiv | hlt | not | rar | rrn =>
    obtain ⟨x, y, z, tra, rfl⟩ := h.exists_eq; exact .done rfl

theorem decodeStep (h : SameButScratch s t) : SameButScratch (decodeStep s) (decodeStep t) := by
  obtain ⟨x, y, z, tra, rfl⟩ := h.exists_eq
  rcases decodeStep_cases s with ⟨i, hi, e⟩ | ⟨he, e⟩ <;> rw [e]
  · rw [decodeStep_of_ok (i := i) (by exact hi)]; rfl
  · rw [decodeStep_of_error (e := .invalidOpcode s.ir) (by exact he)]; rfl

end SameButScratch

theorem simulates_microStep_sameButScratch : Simulates SameButScratch microStep := by
  intro s t h s' hs
  have hview := h.view
  rcases idle_or_running s with hid | ⟨hr, hf⟩
  · rw [microStep_of_idle hid] at hs; cases hs
    exact ⟨t, microStep_of_idle (hview.idle ▸ hid), h⟩
  have hrt : t.run = true := hview.run ▸ hr
  have hft : t.fault = .none := hview.fault ▸ hf
  have hci : t.ci = s.ci := by obtain ⟨x, y, z, tra, rfl⟩ := h.exists_eq; rfl
  rcases microStep_next hs with ⟨hid, -⟩ | ⟨-, ⟨hu, rfl⟩ | ⟨hu, hs⟩ | ⟨hu, rfl⟩ | ⟨hu, i, hi, hs⟩ | ⟨hu, i, hi, hs⟩⟩
  · simp [idle_eq_false hr hf] at hid
  all_goals have hut := hview.uc ▸ hu
  · refine ⟨_, microStep_fetchAddr hrt hft hut, ?_⟩
    obtain ⟨x, y, z, tra, rfl⟩ := h.exists_eq; rfl
  · rw [microStep_fetchData hrt hft hut]
    exact h.fetchData.finish (fun u v huv => huv.with_uc _) hs
  · exact ⟨_, microStep_decode hrt hft hut, h.decodeStep⟩
  · rw [microStep_operand hrt hft hut (hci.trans hi)]
    exact (h.operandPhase i).finish (fun u v huv => huv.with_uc _) hs
  · rw [microStep_execute hrt hft hut (hci.trans hi)]
    exact (h.executePhase i).finish (fun u v huv => huv.with_uc _) hs

/-- Settles O47: every phase ends alike on two states that differ only in X, Y, Z, TRA, so micro-steps and steps do. -/
theorem scratchRegistersAreInert : Obligations.ScratchRegistersAreInert := fun s t h =>
  ⟨simulates_microStep_sameButScratch s t h,
    Simulates.step (fun _ _ => SameButScratch.view) simulates_microStep_sameButScratch s t h⟩

/-! ### States that agree in what the rest of the instruction reads (70_reset R267) -/

/-- Two machines a program cannot tell apart, which, where they run, agree also in the registers the current instruction has
written so far: SAR after FETCH_ADDR, SIR and IR after FETCH_DATA, and all but X, Y, Z, TRA after DECODE. -/
structure SameProgress (s t : State) : Prop where
  view : SameProgramView s t
  fetching : s.idle = false → s.uc = .fetchData → s.sar = t.sar
  decoding : s.idle = false → s.uc = .decode → s.sar = t.sar ∧ s.sir = t.sir ∧ s.ir = t.ir
  executing : s.idle = false → s.uc.afterDecode = true → SameButScratch s t

namespace SameProgress
variable {s t : State}

theorem of_boundary (h : SameProgramView s t) (hu : s.uc = .fetchAddr) : SameProgress s t :=
  ⟨h, fun _ hd => by simp [hu] at hd, fun _ hd => by simp [hu] at hd, fun _ hd => by simp [hu, MicroPos.afterDecode] at hd⟩

theorem of_idle (h : SameProgramView s t) (hid : s.idle = true) : SameProgress s t :=
  ⟨h, fun hn => by simp [hid] at hn, fun hn => by simp [hid] at hn, fun hn => by simp [hid] at hn⟩

theorem of_sameButScratch (h : SameButScratch s t) : SameProgress s t := by
  refine ⟨h.view, fun _ _ => ?_, fun _ _ => ?_, fun _ _ => h⟩ <;> obtain ⟨x, y, z, tra, rfl⟩ := h.exists_eq
  · rfl
  · exact ⟨rfl, rfl, rfl⟩

theorem fetchAddr (h : SameProgramView s t) : SameProgress (fetchAddr s) (fetchAddr t) where
  view := ⟨h.acc, h.iar, h.run, h.mem, h.fault, h.faultInfo, rfl, h.cfg, h.draws, h.devLog, h.stallsAt⟩
  fetching := fun _ _ => h.iar
  decoding := fun _ => nofun
  executing := fun _ => nofun

/-- A bounds fault at the same SAR. -/
theorem afterBoundsFault (h : SameProgramView s t) (hsar : s.sar = t.sar) :
    SameProgress (afterBoundsFault s) (afterBoundsFault t) :=
  of_idle ⟨h.acc, h.iar, rfl, h.mem, rfl, hsar, h.uc, h.cfg, h.draws, h.devLog, h.stallsAt⟩ (afterBoundsFault_idle s)

theorem fetchData_finish (h : SameProgramView s t) (hsar : s.sar = t.sar) {s' : State}
    (hs : (fetchData s).finish .decode = .next s') : ∃ t', (fetchData t).finish .decode = .next t' ∧ SameProgress s' t' := by
  have hss : SameAccess s s := ⟨rfl, rfl, rfl, rfl, rfl, rfl⟩
  have hst : SameAccess s t :=
    ⟨hsar.symm, h.cfg.symm, h.mem.symm, h.draws.symm, h.devLog.symm, h.stallsAt.symm⟩
  rcases memRead_uniform true s with ⟨v, d, l, hread⟩ | hread | hread <;>
    rw [fetchData, hread s hss] at hs <;> cases hs <;> rw [fetchData, hread t hst]
  · refine ⟨_, rfl, ?_, fun _ => nofun, fun _ _ => ⟨hsar, rfl, rfl⟩, fun _ => nofun⟩
    exact ⟨h.acc, by simp [h.iar], h.run, h.mem, h.fault, h.faultInfo, rfl, h.cfg, rfl, rfl, h.stallsAt⟩
  · exact ⟨_, rfl, afterBoundsFault h hsar⟩

theorem decodeStep (h : SameProgramView s t) (hsar : s.sar = t.sar) (hsir : s.sir = t.sir) (hir : s.ir = t.ir) :
    SameProgress (decodeStep s) (decodeStep t) := by
  rcases decodeStep_cases s with ⟨i, hi, e⟩ | ⟨he, e⟩ <;> rw [e]
  · rw [decodeStep_of_ok (s := t) (i := i) (by rw [← h.cfg, ← hir, hi])]
    refine of_sameButScratch (.of_eqs ?_ hsar hsir hir rfl rfl)
    exact ⟨h.acc, h.iar, h.run, h.mem, h.fault, h.faultInfo, rfl, h.cfg, h.draws, h.devLog, h.stallsAt⟩
  · rw [decodeStep_of_error (s := t) (e := .invalidOpcode s.ir) (by rw [← h.cfg, ← hir, he])]
    exact of_idle ⟨h.acc, h.iar, rfl, h.mem, rfl, hir, h.uc, h.cfg, h.draws, h.devLog, h.stallsAt⟩ (raise_idle ..)

end SameProgress

theorem simulates_microStep_sameProgress : Simulates SameProgress microStep := by
  intro s t h s' hs
  have hview := h.view
  cases hid : s.idle with
  | true =>
    rw [microStep_of_idle hid] at hs; cases hs
    exact ⟨t, microStep_of_idle (hview.idle ▸ hid), h⟩
  | false =>
    obtain ⟨hf, hr⟩ := (idle_eq_false_iff s).mp hid
    have hrt : t.run = true := hview.run ▸ hr
    have hft : t.fault = .none := hview.fault ▸ hf
    have past_decode (hu : s.uc.afterDecode = true) : ∃ t', microStep t = .next t' ∧ SameProgress s' t' := by
      obtain ⟨t', ht, hst⟩ := simulates_microStep_sameButScratch s t (h.executing hid hu) s' hs
      exact ⟨t', ht, .of_sameButScratch hst⟩
    cases hu : s.uc with
    | fetchAddr =>
      rw [microStep_fetchAddr hr hf hu] at hs; cases hs
      exact ⟨_, microStep_fetchAddr hrt hft (hview.uc ▸ hu), .fetchAddr hview⟩
    | fetchData =>
      rw [microStep_fetchData hr hf hu] at hs
      rw [microStep_fetchData hrt hft (hview.uc ▸ hu)]
      exact SameProgress.fetchData_finish hview (h.fetching hid hu) hs
    | decode =>
      rw [microStep_decode hr hf hu] at hs; cases hs
      obtain ⟨hsar, hsir, hir⟩ := h.decoding hid hu
      exact ⟨_, microStep_decode hrt hft (hview.uc ▸ hu), .decodeStep hview hsar hsir hir⟩
    | operand | execute => exact past_decode (by rw [hu]; rfl)

/-- Settles O48: from a boundary on the two machines stay in step, and at every boundary they agree as before. -/
theorem staleRegistersNeverMatter : Obligations.StaleRegistersNeverMatter := by
  intro k s t h hu s' hs
  have hstep : Simulates SameProgress step := Simulates.step (fun _ _ => SameProgress.view) simulates_microStep_sameProgress
  obtain ⟨t', ht, hst⟩ := hstep.repeatStep k s t (.of_boundary h hu) s' hs
  exact ⟨t', ht, hst.view⟩

end Sys2Proof.Machine

/-!
Program images as bytes, and memories as data: from the bytes of a word to the word and back, and from what a canonical memory
reads as to its cells; from these, the statements on serialised images and on equal memories (20_memory R54; 10_state R34).
-/

namespace Sys2Proof

/-- A word is its four bytes. -/
theorem byte_fields (w : Word) : bits w 24 8 ++ bits w 16 8 ++ bits w 8 8 ++ bits w 0 8 = w := by
  have hhigh : bits w 24 8 ++ bits w 16 8 = bits w 16 16 := BitVec.extractLsb'_append_extractLsb'_eq_extractLsb' rfl
  have hupper : bits w 16 16 ++ bits w 8 8 = bits w 8 24 := BitVec.extractLsb'_append_extractLsb'_eq_extractLsb' rfl
  rw [hhigh, hupper]
  exact BitVec.extractLsb'_append_extractLsb' (w := 24) (len := 8)

/-- A word has given bytes exactly when these are the bytes it is read with. -/
theorem eq_bytes_iff {w : Word} {b0 b1 b2 b3 : BitVec 8} :
    w = b3 ++ b2 ++ b1 ++ b0 ↔ bits w 24 8 = b3 ∧ bits w 16 8 = b2 ∧ bits w 8 8 = b1 ∧ bits w 0 8 = b0 := by
  conv_lhs => lhs; rw [← byte_fields w]
  rw [append_inj_bits, append_inj_bits, append_inj_bits, and_assoc, and_assoc]

end Sys2Proof

namespace Sys2Proof.Machine

/-! ### Serialised images (20_memory R54) -/

/-- The bytes of the word that four bytes stand for are these. -/
theorem wordBytes_bytesWord (o : ByteOrder) (b0 b1 b2 b3 : BitVec 8) :
    wordBytes o (bytesWord o b0 b1 b2 b3) = [b0, b1, b2, b3] := by
  cases o with
  | little =>
    obtain ⟨h3, h2, h1, h0⟩ := eq_bytes_iff.mp (rfl : bytesWord .little b0 b1 b2 b3 = _)
    rw [wordBytes, h3, h2, h1, h0]
  | big =>
    obtain ⟨h0, h1, h2, h3⟩ := eq_bytes_iff.mp (rfl : bytesWord .big b0 b1 b2 b3 = _)
    rw [wordBytes, h3, h2, h1, h0]

/-- A word's bytes are read back as the word. -/
theorem deserialise_wordBytes (o : ByteOrder) (w : Word) (rest : List (BitVec 8)) :
    deserialise o (wordBytes o w ++ rest) = (deserialise o rest).map (w :: ·) := by
  have hword := byte_fields w
  cases o <;> simp [wordBytes, deserialise, bytesWord, hword]

theorem length_wordBytes (o : ByteOrder) (w : Word) : (wordBytes o w).length = 4 := by cases o <;> rfl

theorem serialise_cons (o : ByteOrder) (w : Word) (ws : List Word) :
    serialise o (w :: ws) = wordBytes o w ++ serialise o ws := List.flatMap_cons

theorem deserialise_serialise (o : ByteOrder) (ws : List Word) : deserialise o (serialise o ws) = some ws := by
  induction ws with
  | nil => rfl
  | cons w ws ih => rw [serialise_cons, deserialise_wordBytes, ih, Option.map_some]

theorem length_serialise (o : ByteOrder) (ws : List Word) : (serialise o ws).length = 4 * ws.length := by
  induction ws with
  | nil => rfl
  | cons w ws ih => rw [serialise_cons, List.length_append, length_wordBytes, ih, List.length_cons]; omega

/-- Bytes that read back are the bytes of what they read back as. -/
theorem serialise_of_deserialise {o : ByteOrder} {bs : List (BitVec 8)} {ws : List Word}
    (h : deserialise o bs = some ws) : serialise o ws = bs := by
  fun_induction deserialise o bs generalizing ws
  case case1 => cases h; rfl -- no bytes
  case case2 b0 b1 b2 b3 rest ih => -- a word and the rest
    obtain ⟨vs, hvs, rfl⟩ := Option.map_eq_some_iff.mp h
    rw [serialise_cons, wordBytes_bytesWord, ih hvs]
    rfl
  case case3 => cases h -- no whole word

/-- Settles O59: word by word, by the round trip of one word's bytes. -/
theorem serialisedImagesReadBack : Obligations.SerialisedImagesReadBack :=
  ⟨fun o ws => ⟨deserialise_serialise o ws, length_serialise o ws⟩, fun _ => rfl, fun _ _ _ => serialise_of_deserialise⟩

/-! ### The canonical form of memory (10_state R34) -/

/-- An address that no cell lists reads as the unlisted word. -/
theorem Memory.read_of_not_listed {m : List Cell} {a : Nat} (h : ∀ c ∈ m, c.1 ≠ a) : Memory.read m a = Memory.unlisted := by
  induction m with
  | nil => rfl
  | cons c rest ih => rw [Memory.read, if_neg (h c (by simp)), ih fun d hd => h d (by simp [hd])]

/-- A listed cell is what its address reads as: no earlier cell has that address. -/
theorem Memory.read_of_mem {m : List Cell} (hm : m.Pairwise fun c d => c.1 < d.1) {c : Cell} (hc : c ∈ m) :
    Memory.read m c.1 = c.2 := by
  induction m with
  | nil => cases hc
  | cons d rest ih =>
    obtain ⟨hlt, hrest⟩ := List.pairwise_cons.mp hm
    rcases List.mem_cons.mp hc with rfl | hc
    · rw [Memory.read, if_pos rfl]
    · rw [Memory.read, if_neg (hlt c hc).ne, ih hrest hc]

/-- The cells of a canonical memory are the addresses that read as something else than the unlisted word. -/
theorem Memory.mem_iff_read {m : List Cell} (hm : Memory.wf m) (c : Cell) :
    c ∈ m ↔ c.2 ≠ Memory.unlisted ∧ Memory.read m c.1 = c.2 := by
  refine ⟨fun hc => ⟨hm.2 c hc, Memory.read_of_mem hm.1 hc⟩, fun ⟨hne, hread⟩ => ?_⟩
  by_contra hc
  have hlisted : ∃ d ∈ m, d.1 = c.1 := by
    by_contra hnone
    exact hne (hread ▸ Memory.read_of_not_listed fun d hd e => hnone ⟨d, hd, e⟩)
  obtain ⟨d, hd, hdc⟩ := hlisted
  have hdread := Memory.read_of_mem hm.1 hd
  rw [hdc, hread] at hdread
  exact hc (Prod.ext hdc hdread.symm ▸ hd)

/-- Settles O60: what a canonical memory reads as determines its cells, and their order is by address. -/
theorem equalMemoriesAreEqualData : Obligations.EqualMemoriesAreEqualData := by
  intro m m' hm hm' hread
  have : Std.Irrefl fun c d : Cell => c.1 < d.1 := ⟨fun c => Nat.lt_irrefl c.1⟩
  have : Std.Antisymm fun c d : Cell => c.1 < d.1 := ⟨fun _ _ h h' => absurd h h'.asymm⟩
  refine hm.1.eq_of_mem_iff hm'.1 fun c => ?_
  rw [Memory.mem_iff_read hm, Memory.mem_iff_read hm', hread]

end Sys2Proof.Machine
